-- ==== Sys2Proof/Word.lean ====
section
/-! DEFINITION. Word types: the 32-bit bus word (R10, R60), the symbol byte (R9), the 21-bit word address (R60) and
the bit sequence (R11). -/

namespace Sys2Proof

/-- A register or bus word: 32 bits, unsigned (R10). -/
abbrev Word := BitVec 32

/-- A symbol or a buffer byte, 0 to 255 (R9). -/
abbrev Byte := BitVec 8

/-- A word address on the host bus: 21 bits (R60). -/
abbrev Addr := BitVec 21

/-- A bit sequence, first bit inserted first (R11). The bit 1 is `true`. -/
abbrev Bits := List Bool

end Sys2Proof
end

