-- ==== Sys2Proof/Config.lean ====
section
/-! DEFINITION. The five capacity parameters of R8 with their legal ranges and reference values, and the free values
that stand for every UNSPECIFIED read (R41, R42, R68, R76; U1 to U3 of 93_implementation_defined.md). -/

namespace Sys2Proof

/-- The capacity parameters of R8. They are data carried by every state (R32: "never change, reset included"), so
every statement about a state is a statement about every configuration. -/
structure Params where
  /-- IN_CAP, bytes in the input buffer. -/
  inCap : Nat
  /-- OUT_CAP, bytes in the output buffer. -/
  outCap : Nat
  /-- BC_CAP, bit capacity of each container. -/
  bcCap : Nat
  /-- NBC, number of containers. -/
  nbc : Nat
  /-- CNT_W, width of each FREQ counter. -/
  cntW : Nat
deriving DecidableEq, Repr

/-- The legal ranges of R8. -/
def Params.legal (p : Params) : Bool :=
  decide (1 ≤ p.inCap ∧ p.inCap ≤ 65536 ∧ p.inCap ≤ 2 ^ p.cntW - 1 ∧
    1 ≤ p.outCap ∧ p.outCap ≤ 65536 ∧
    p.bcCap % 8 = 0 ∧ 256 ≤ p.bcCap ∧ p.bcCap ≤ 524288 ∧
    2 ≤ p.nbc ∧ p.nbc ≤ 16 ∧
    1 ≤ p.cntW ∧ p.cntW ≤ 24)

/-- The reference configuration of R8, used by every vector of 95_test_vectors.md. -/
def Params.reference : Params :=
  { inCap := 4096, outCap := 4096, bcCap := 65536, nbc := 4, cntW := 24 }

/-- FREE VALUE: the byte an UNSPECIFIED read of IN or OUT returns at draw `n` (R41, R42, R76). No value is chosen:
nothing can be proved about it. Log entry 2. -/
opaque Config.freeByte : Nat → Byte

/-- FREE VALUE: the word a host read of result state returns while STATUS.BUSY = 1, at draw `n` (R68). No value is
chosen. Log entry 2. -/
opaque Config.freeWord : Nat → Word

end Sys2Proof
end

