-- ==== Sys2Proof/Syntax.lean ====
section
/-! DEFINITION. The fifteen commands of R92, one constructor per row of spec/opcode_table.json. A container operand is
an index 0 to 15 (R91: fields A and B), the BC_PUSH operand is one bit (IMM[0]) and the TABLE_LOOKUP operand one
symbol (IMM). -/

namespace Sys2Proof

/-- A container operand as a command word can name it: 0 to 15 (R91). Only indices below NBC exist (R93). -/
abbrev CIdx := Fin 16

/-- The commands of the opcode map (R92). -/
inductive Instr where
  /-- NOP (R200). -/
  | nop
  /-- BC_CLEAR cA (R110). -/
  | bcClear (c : CIdx)
  /-- BC_PUSH cA, bit (R111). -/
  | bcPush (c : CIdx) (bit : Bool)
  /-- BC_FROM_BITS cA (R112). -/
  | bcFromBits (c : CIdx)
  /-- BC_FROM_BYTES cA (R113). -/
  | bcFromBytes (c : CIdx)
  /-- BC_APPEND cA, cB: `c` is the destination, `src` the source (R114). -/
  | bcAppend (c : CIdx) (src : CIdx)
  /-- BC_ITER_RESET cA (R115). -/
  | bcIterReset (c : CIdx)
  /-- BC_ITER_NEXT cA (R116). -/
  | bcIterNext (c : CIdx)
  /-- BC_ALIGN cA (R117). -/
  | bcAlign (c : CIdx)
  /-- TREE_BUILD (R141). -/
  | treeBuild
  /-- TREE_BUILD_FREQ (R142). -/
  | treeBuildFreq
  /-- TABLE_DERIVE (R161). -/
  | tableDerive
  /-- TABLE_LOOKUP cA, sym (R162). -/
  | tableLookup (c : CIdx) (sym : Byte)
  /-- ENCODE cA (R180). -/
  | encode (c : CIdx)
  /-- DECODE cA (R181). -/
  | decode (c : CIdx)
deriving DecidableEq, Repr

end Sys2Proof
end

