-- ==== Sys2Proof/WellFormed.lean ====
section
/-! DEFINITION. The operand checks of the legality rule R93 that a decoded command can still fail: a container index
must be below NBC, and BC_APPEND's two containers must differ. The checks on the word itself (reserved field, unused
fields, bit value, opcode) are the decoder's. -/

namespace Sys2Proof

/-- Container `c` exists in configuration `p` (R93: "A < NBC"). -/
def containerExists (p : Params) (c : CIdx) : Bool := decide (c.val < p.nbc)

/-- The operand checks of R93, command by command. -/
def Instr.wellFormed (p : Params) : Instr → Bool
  | .nop => true
  | .bcClear c => containerExists p c
  | .bcPush c _ => containerExists p c
  | .bcFromBits c => containerExists p c
  | .bcFromBytes c => containerExists p c
  | .bcAppend c src => containerExists p c && containerExists p src && decide (c ≠ src)
  | .bcIterReset c => containerExists p c
  | .bcIterNext c => containerExists p c
  | .bcAlign c => containerExists p c
  | .treeBuild => true
  | .treeBuildFreq => true
  | .tableDerive => true
  | .tableLookup c _ => containerExists p c
  | .encode c => containerExists p c
  | .decode c => containerExists p c

end Sys2Proof
end

