-- ==== Sys2Proof/Decode.lean ====
section
/-! DEFINITION. The command word of R90: its fields, the decoder (total, rejecting by name), the encoder, the legality
check of R93 as the spec writes it, and the opcode table's match and mask pairs (R92, R95). The bus word is a native
32-bit value (R69), so no byte order enters. -/

namespace Sys2Proof

/-! ### Fields (R90) -/

/-- OP, bits 7:0. -/
def fieldOp (w : Word) : Byte := w.extractLsb' 0 8
/-- A, bits 11:8. -/
def fieldA (w : Word) : BitVec 4 := w.extractLsb' 8 4
/-- B, bits 15:12. -/
def fieldB (w : Word) : BitVec 4 := w.extractLsb' 12 4
/-- IMM, bits 23:16. -/
def fieldImm (w : Word) : Byte := w.extractLsb' 16 8
/-- RSV, bits 31:24, must be 0. -/
def fieldRsv (w : Word) : Byte := w.extractLsb' 24 8

/-- A container index as its 4-bit field names it: unsigned, neither scaled nor shifted (R91). -/
def containerOf (f : BitVec 4) : CIdx := ⟨f.toNat, f.isLt⟩

/-! ### Decoder -/

/-- Why a word is no command word of R92, whatever the configuration. -/
inductive DecodeError where
  /-- RSV ≠ 0 (R93). -/
  | reservedField
  /-- An opcode of R94. -/
  | reservedOpcode (op : Byte)
  /-- A field the command does not use is not 0 (R93). -/
  | unusedField
  /-- BC_PUSH with IMM > 1 (R93). -/
  | pushBit
deriving DecidableEq, Repr

/-- A command without operands: A = B = IMM = 0 (R93). -/
def takeNone (w : Word) (i : Instr) : Except DecodeError Instr :=
  if fieldA w = 0 ∧ fieldB w = 0 ∧ fieldImm w = 0 then .ok i else .error .unusedField

/-- A command on one container: B = IMM = 0 (R93). -/
def takeA (w : Word) (f : CIdx → Instr) : Except DecodeError Instr :=
  if fieldB w = 0 ∧ fieldImm w = 0 then .ok (f (containerOf (fieldA w))) else .error .unusedField

/-- BC_PUSH: B = 0 and IMM ≤ 1; bit = IMM[0] (R91, R93). -/
def takePush (w : Word) : Except DecodeError Instr :=
  if fieldB w = 0 then
    if (fieldImm w).toNat ≤ 1 then .ok (.bcPush (containerOf (fieldA w)) ((fieldImm w).getLsbD 0))
    else .error .pushBit
  else .error .unusedField

/-- BC_APPEND: IMM = 0 (R93). -/
def takeAppend (w : Word) : Except DecodeError Instr :=
  if fieldImm w = 0 then .ok (.bcAppend (containerOf (fieldA w)) (containerOf (fieldB w)))
  else .error .unusedField

/-- TABLE_LOOKUP: B = 0; sym = IMM (R91, R93). -/
def takeLookup (w : Word) : Except DecodeError Instr :=
  if fieldB w = 0 then .ok (.tableLookup (containerOf (fieldA w)) (fieldImm w)) else .error .unusedField

/-- Decoding is total (R95): every word is a command of R92 or is rejected by name. The index bounds that depend on NBC
are `Instr.wellFormed`. -/
def decode (w : Word) : Except DecodeError Instr :=
  if fieldRsv w = 0 then
    match fieldOp w with
    | 0x00#8 => takeNone w .nop
    | 0x01#8 => takeA w .bcClear
    | 0x02#8 => takePush w
    | 0x03#8 => takeA w .bcFromBits
    | 0x04#8 => takeA w .bcFromBytes
    | 0x05#8 => takeAppend w
    | 0x06#8 => takeA w .bcIterReset
    | 0x07#8 => takeA w .bcIterNext
    | 0x08#8 => takeA w .bcAlign
    | 0x10#8 => takeNone w .treeBuild
    | 0x11#8 => takeNone w .treeBuildFreq
    | 0x20#8 => takeNone w .tableDerive
    | 0x21#8 => takeLookup w
    | 0x30#8 => takeA w .encode
    | 0x31#8 => takeA w .decode
    | op => .error (.reservedOpcode op)
  else .error .reservedField

/-- The host's view of the decoder: the instruction of the word whose table bits are `w`; the bits at `nbits` and above
are 0. -/
def decodeTableWord (nbits w : Nat) : Option Instr :=
  match decode (BitVec.ofNat 32 (w % 2 ^ nbits)) with
  | .ok i => some i
  | .error _ => none

/-! ### Encoder (R90, R92, R96) -/

/-- The word with RSV = 0 and the given fields (R90). -/
def packWord (op : Byte) (a b : BitVec 4) (imm : Byte) : Word :=
  imm.setWidth 32 <<< 16 ||| b.setWidth 32 <<< 12 ||| a.setWidth 32 <<< 8 ||| op.setWidth 32

/-- The 4-bit field that names a container. -/
def fieldOf (c : CIdx) : BitVec 4 := BitVec.ofNat 4 c.val

/-- The OP value of R92. -/
def Instr.opcode : Instr → Byte
  | .nop => 0x00
  | .bcClear _ => 0x01
  | .bcPush _ _ => 0x02
  | .bcFromBits _ => 0x03
  | .bcFromBytes _ => 0x04
  | .bcAppend _ _ => 0x05
  | .bcIterReset _ => 0x06
  | .bcIterNext _ => 0x07
  | .bcAlign _ => 0x08
  | .treeBuild => 0x10
  | .treeBuildFreq => 0x11
  | .tableDerive => 0x20
  | .tableLookup _ _ => 0x21
  | .encode _ => 0x30
  | .decode _ => 0x31

/-- The command word of a command: "Fields not in the syntax assemble as 0" (R96). -/
def encode (i : Instr) : Word :=
  match i with
  | .nop => packWord i.opcode 0 0 0
  | .bcClear c => packWord i.opcode (fieldOf c) 0 0
  | .bcPush c bit => packWord i.opcode (fieldOf c) 0 (if bit then 1 else 0)
  | .bcFromBits c => packWord i.opcode (fieldOf c) 0 0
  | .bcFromBytes c => packWord i.opcode (fieldOf c) 0 0
  | .bcAppend c src => packWord i.opcode (fieldOf c) (fieldOf src) 0
  | .bcIterReset c => packWord i.opcode (fieldOf c) 0 0
  | .bcIterNext c => packWord i.opcode (fieldOf c) 0 0
  | .bcAlign c => packWord i.opcode (fieldOf c) 0 0
  | .treeBuild => packWord i.opcode 0 0 0
  | .treeBuildFreq => packWord i.opcode 0 0 0
  | .tableDerive => packWord i.opcode 0 0 0
  | .tableLookup c sym => packWord i.opcode (fieldOf c) 0 sym
  | .encode c => packWord i.opcode (fieldOf c) 0 0
  | .decode c => packWord i.opcode (fieldOf c) 0 0

/-! ### The legality check as the spec writes it (R93) -/

/-- `Legal(w)` of R93, case by case. The engine decodes instead; that the two agree is a statement. -/
def legalWord (p : Params) (w : Word) : Bool :=
  let op := (fieldOp w).toNat
  let a := (fieldA w).toNat
  let b := (fieldB w).toNat
  let imm := (fieldImm w).toNat
  if fieldRsv w ≠ 0 then false
  else if op = 0x00 ∨ op = 0x10 ∨ op = 0x11 ∨ op = 0x20 then
    decide (a = 0 ∧ b = 0 ∧ imm = 0)
  else if op = 0x01 ∨ op = 0x03 ∨ op = 0x04 ∨ op = 0x06 ∨ op = 0x07 ∨ op = 0x08 ∨ op = 0x30 ∨ op = 0x31 then
    decide (a < p.nbc ∧ b = 0 ∧ imm = 0)
  else if op = 0x02 then decide (a < p.nbc ∧ b = 0 ∧ imm ≤ 1)
  else if op = 0x05 then decide (a < p.nbc ∧ b < p.nbc ∧ a ≠ b ∧ imm = 0)
  else if op = 0x21 then decide (a < p.nbc ∧ b = 0)
  else false

/-! ### The opcode table's rows (R92, R95; spec/opcode_table.json) -/

/-- One row: the words `w` with `w &&& mask = pattern`. -/
structure OpcodeRow where
  /-- The table's "match". -/
  pattern : Word
  /-- The table's "mask". -/
  mask : Word
deriving DecidableEq, Repr

/-- A word falls under a row. -/
def OpcodeRow.hits (r : OpcodeRow) (w : Word) : Bool := w &&& r.mask == r.pattern

/-- The table's row of each command. -/
def Instr.row : Instr → OpcodeRow
  | .nop => ⟨0x00000000, 0xFFFFFFFF⟩
  | .bcClear _ => ⟨0x00000001, 0xFFFFF0FF⟩
  | .bcPush _ _ => ⟨0x00000002, 0xFFFEF0FF⟩
  | .bcFromBits _ => ⟨0x00000003, 0xFFFFF0FF⟩
  | .bcFromBytes _ => ⟨0x00000004, 0xFFFFF0FF⟩
  | .bcAppend _ _ => ⟨0x00000005, 0xFFFF00FF⟩
  | .bcIterReset _ => ⟨0x00000006, 0xFFFFF0FF⟩
  | .bcIterNext _ => ⟨0x00000007, 0xFFFFF0FF⟩
  | .bcAlign _ => ⟨0x00000008, 0xFFFFF0FF⟩
  | .treeBuild => ⟨0x00000010, 0xFFFFFFFF⟩
  | .treeBuildFreq => ⟨0x00000011, 0xFFFFFFFF⟩
  | .tableDerive => ⟨0x00000020, 0xFFFFFFFF⟩
  | .tableLookup _ _ => ⟨0x00000021, 0xFF00F0FF⟩
  | .encode _ => ⟨0x00000030, 0xFFFFF0FF⟩
  | .decode _ => ⟨0x00000031, 0xFFFFF0FF⟩

/-- All rows of the table, in its order. -/
def opcodeRows : List OpcodeRow :=
  [Instr.nop.row, (Instr.bcClear 0).row, (Instr.bcPush 0 false).row, (Instr.bcFromBits 0).row,
    (Instr.bcFromBytes 0).row, (Instr.bcAppend 0 0).row, (Instr.bcIterReset 0).row, (Instr.bcIterNext 0).row] ++
  [(Instr.bcAlign 0).row, Instr.treeBuild.row, Instr.treeBuildFreq.row, Instr.tableDerive.row,
    (Instr.tableLookup 0 0).row, (Instr.encode 0).row, (Instr.decode 0).row]

end Sys2Proof
end

