-- ==== Sys2Proof/Machine/State.lean ====
section
/-! DEFINITION. The block's architectural state, all of R20, as plain data, with the agents' turns and the model's own
counter beside it; the reasons a step could stop; and the state after reset (R240, R241). -/

namespace Sys2Proof.Machine

/-! ### The parts of the state -/

/-- STATUS.ERR's eight values (R214). Codes 8 to 15 are never produced. -/
inductive ErrCode where
  /-- 0 OK. -/
  | ok
  /-- 1 EMPTY_INPUT. -/
  | emptyInput
  /-- 2 SYMBOL_NOT_FOUND. -/
  | symbolNotFound
  /-- 3 INVALID_DATA. -/
  | invalidData
  /-- 4 NO_TREE. -/
  | noTree
  /-- 5 NO_TABLE. -/
  | noTable
  /-- 6 OVERFLOW. -/
  | overflow
  /-- 7 ILLEGAL_COMMAND. -/
  | illegalCommand
deriving DecidableEq, Repr

/-- The two fields of RESULT (R28). -/
structure IterResult where
  /-- RESULT.VALID. -/
  valid : Bool
  /-- RESULT.BIT. -/
  bit : Bool
deriving DecidableEq, Repr

/-- One bit container: BC_BITS[c] and BC_POS[c] (R33, R34). BC_LEN[c] is the length of `bits`. -/
structure Container where
  /-- BC_BITS[c]. -/
  bits : Bits
  /-- BC_POS[c], the index of the next bit BC_ITER_NEXT yields. -/
  pos : Nat
deriving DecidableEq, Repr

/-- The empty container: R33's and R34's reset value. -/
def Container.empty : Container := { bits := [], pos := 0 }

/-- A node of the arena (R38). Counts are natural numbers (R144), children are node indices. -/
inductive Node where
  /-- Empty: every index at or beyond NODE_COUNT. -/
  | empty
  /-- Leaf(symbol, count). -/
  | leaf (sym : Byte) (count : Nat)
  /-- Internal(count, child0, child1). -/
  | internal (count : Nat) (child0 : Nat) (child1 : Nat)
deriving DecidableEq, Repr

/-- A byte buffer: the bytes that hold a specified value, by index, indices strictly rising. A byte that is not listed
is UNSPECIFIED (R41, R42): reading it gives a free value, so no entry can equal what an unlisted index reads as (log entry 10). -/
abbrev Memory := List Host.Cell

/-- What may happen next at the block: a turn of one of the two agents of R7, or the external reset of R240. -/
inductive Event where
  /-- The engine's turn (R212). -/
  | engine
  /-- The host's BusRead(a) (R60). -/
  | read (a : Addr)
  /-- The host's BusWrite(a, d) (R60). -/
  | write (a : Addr) (d : Word)
  /-- One poll of the host's WAIT loop (R97): a read of STATUS, repeated until BUSY reads 0. -/
  | wait
  /-- The external reset (R240). -/
  | reset
deriving DecidableEq, Repr

/-! ### Stops -/

/-- No behaviour of the block is a fault: "No behaviour of this block is treated as `fault` or `stuck`"
(93_implementation_defined.md). A failing command completes with an error code instead (R213). Nobody raises a fault, so
none is unsafe (log entry 12). -/
inductive Fault where
deriving DecidableEq, Repr

/-- Why an instruction has no meaning. -/
inductive Refusal where
  /-- Raised only by an arm of `exec` whose instruction has no meaning in the model; safe. No arm of this model raises
  it. -/
  | notModelled (mnemonic : String)
deriving DecidableEq, Repr

/-! ### The state -/

/-- R20's list, one field per piece of state, then the model's own fields. -/
structure State where
  /-- CAP_IN, CAP_OUT, CAP_BC, CAP_MISC: the parameters, constant (R32). -/
  cfg : Params
  /-- CTRL.IRQ_EN (R21). -/
  irqEn : Bool
  /-- STATUS.BUSY (R22). -/
  busy : Bool
  /-- STATUS.DONE (R22). -/
  done : Bool
  /-- STATUS.OVERRUN (R22). -/
  overrun : Bool
  /-- STATUS.ERR (R22, R214). -/
  err : ErrCode
  /-- STATUS.TREE_VALID (R22, R43). -/
  treeValid : Bool
  /-- STATUS.TABLE_VALID (R22, R43). -/
  tableValid : Bool
  /-- CMD: the last accepted command word (R23). -/
  cmd : Word
  /-- PENDING: the accepted command that awaits execution, if any (R24). -/
  pending : Option Word
  /-- IN_LEN (R25). -/
  inLen : Word
  /-- DEC_COUNT (R26). -/
  decCount : Word
  /-- OUT_LEN (R27). -/
  outLen : Word
  /-- RESULT (R28). -/
  result : IterResult
  /-- ERR_INDEX (R29). -/
  errIndex : Word
  /-- ERR_SYMBOL[7:0] (R30). -/
  errSymbol : Byte
  /-- NODE_COUNT (R31). -/
  nodeCount : Nat
  /-- ROOT (R31). -/
  root : Nat
  /-- BC_BITS[c] and BC_POS[c] (R33, R34). A command can name 16; those at NBC and above do not exist and stay
  empty (log entry 15). -/
  bcs : Vector Container 16
  /-- FREQ[s] (R36). -/
  freq : Vector Nat 256
  /-- The code table (R37): `none` is CT_VALID[s] = 0, `some code` is CT_VALID[s] = 1 with CT_CODE[s] = code and
  CT_LEN[s] its length (log entry 11). -/
  codes : Vector (Option Bits) 256
  /-- NODE[i] (R38): the nodes below NODE_COUNT; every further index is Empty. -/
  nodes : List Node
  /-- IN[i] (R41): the bytes the host has written since reset. -/
  inMem : Memory
  /-- OUT[i] (R42): the bytes the last DECODE wrote. -/
  outMem : Memory
  /-- MODEL'S OWN: how many free values have been drawn (R76: every UNSPECIFIED read is a fresh draw). Log entry 2. -/
  draws : Nat
  /-- MODEL'S OWN: the coming turns of the host, the engine and reset, first turn first: one interleaving of R73. Log
  entry 3. -/
  schedule : List Event
  /-- MODEL'S OWN: the word the last BusRead returned to the host (R60). Log entry 3. -/
  readData : Word
deriving DecidableEq, Repr

/-- Every piece of state at its reset value (R240, R241; the summary of 10_state.md section 8), for any configuration:
no byte of IN or OUT has a specified value. -/
def State.resetWith (p : Params) : State :=
  { cfg := p
    irqEn := false
    busy := false
    done := false
    overrun := false
    err := .ok
    treeValid := false
    tableValid := false
    cmd := 0
    pending := none
    inLen := 0
    decCount := 0
    outLen := 0
    result := { valid := false, bit := false }
    errIndex := 0
    errSymbol := 0
    nodeCount := 0
    root := 0
    bcs := Vector.replicate 16 Container.empty
    freq := Vector.replicate 256 0
    codes := Vector.replicate 256 none
    nodes := []
    inMem := []
    outMem := []
    draws := 0
    schedule := []
    readData := 0 }

/-- The machine right after reset, in the reference configuration of R8 (log entry 1). -/
def State.reset : State := State.resetWith Params.reference

end Sys2Proof.Machine
end

