-- ==== Sys2Proof/Machine/Ops.lean ====
section
/-! DEFINITION. The named operations the commands share: byte buffers, containers, counters, code table and arena
accessors, free draws, and the command lifecycle of R210 to R216 (acceptance, completion, error report). The error report
is this block's form of taking an exception; R219 gives no return from one: "There is no handler, no saved context and no
return command". -/

namespace Sys2Proof.Machine

/-- What a command answers. -/
abbrev Answer := Host.Outcome State Fault Refusal

/-! ### Byte buffers (R41, R42, R71) -/

/-- The specified value of byte `i`, if it has one. -/
def Memory.read (m : Memory) (i : Nat) : Option Byte :=
  match m with
  | [] => none
  | (j, v) :: rest => if j = i then some v else Memory.read rest i

/-- Give byte `i` the value `v`, keeping indices strictly rising. -/
def Memory.write (m : Memory) (i : Nat) (v : Byte) : Memory :=
  match m with
  | [] => [(i, v)]
  | (j, u) :: rest =>
    if i < j then (i, v) :: (j, u) :: rest
    else if i = j then (i, v) :: rest
    else (j, u) :: Memory.write rest i v

/-- The canonical form: indices strictly rising. -/
def Memory.wf (m : Memory) : Bool :=
  match m with
  | [] => true
  | (i, _) :: rest => (match rest with | [] => true | (j, _) :: _ => decide (i < j)) && Memory.wf rest

/-- Every listed index is below `n`. -/
def Memory.below (m : Memory) (n : Nat) : Bool := m.all fun cell => decide (cell.1 < n)

/-- MemWrite of consecutive bytes from index `i` on (R71). -/
def Memory.writeBytes (m : Memory) (i : Nat) : List Byte → Memory
  | [] => m
  | v :: vs => Memory.writeBytes (m.write i v) (i + 1) vs

/-! ### Containers (R33, R34) -/

/-- Container `c`. -/
def State.container (s : State) (c : CIdx) : Container := s.bcs[c.val]
/-- BC_BITS[c]. -/
def State.bits (s : State) (c : CIdx) : Bits := (s.container c).bits
/-- BC_POS[c]. -/
def State.pos (s : State) (c : CIdx) : Nat := (s.container c).pos

/-- Store container `c`. -/
def State.setContainer (s : State) (c : CIdx) (k : Container) : State := { s with bcs := s.bcs.set c.val k }

/-- A command that extends a container keeps its BC_POS (R34). -/
abbrev State.extendTo (s : State) (c : CIdx) (b : Bits) : State := s.setContainer c { bits := b, pos := s.pos c }

/-- A command that replaces a container's contents sets its BC_POS to 0 (R34, R249). -/
abbrev State.replaceBits (s : State) (c : CIdx) (b : Bits) : State := s.setContainer c { bits := b, pos := 0 }

/-- Set BC_POS[c] alone. -/
abbrev State.setPos (s : State) (c : CIdx) (p : Nat) : State := s.setContainer c { bits := s.bits c, pos := p }

/-! ### Counters, code table, arena (R36, R37, R38) -/

/-- FREQ[s]. -/
def State.freqAt (s : State) (sym : Byte) : Nat := s.freq[sym.toNat]'sym.isLt

/-- A host write of FREQ[sym] keeps the low CNT_W bits (R36). -/
def State.setFreq (s : State) (sym : Byte) (d : Word) : State :=
  { s with freq := s.freq.set sym.toNat (d.toNat % 2 ^ s.cfg.cntW) sym.isLt }

/-- A code table (R37): one entry for each symbol. -/
abbrev CodeTable := Vector (Option Bits) 256

/-- The table's entry for a symbol. -/
def CodeTable.entry (t : CodeTable) (sym : Byte) : Option Bits := t[sym.toNat]'sym.isLt

/-- The table with every entry invalid (R37). -/
def CodeTable.cleared : CodeTable := Vector.replicate 256 none

/-- Record a symbol's code. -/
def CodeTable.record (t : CodeTable) (sym : Byte) (code : Bits) : CodeTable := t.set sym.toNat (some code) sym.isLt

/-- CT_VALID[sym] and CT_CODE[sym] in one. -/
def State.code (s : State) (sym : Byte) : Option Bits := CodeTable.entry s.codes sym
/-- CT_VALID[sym]. -/
def State.ctValid (s : State) (sym : Byte) : Bool := (s.code sym).isSome
/-- CT_CODE[sym]; the empty sequence for an invalid entry (R37). -/
def State.ctCode (s : State) (sym : Byte) : Bits := (s.code sym).getD []
/-- CT_LEN[sym]; 0 for an invalid entry (R37). -/
def State.ctLen (s : State) (sym : Byte) : Nat := (s.ctCode sym).length

/-- Node `i` of a list of nodes; Empty beyond its end. -/
def nodeOf (nodes : List Node) (i : Nat) : Node := nodes.getD i .empty

/-- NODE[i] as its views define it: index 511 and every index at or beyond NODE_COUNT is Empty (R38). -/
def State.node (s : State) (i : Nat) : Node := if i < 511 then nodeOf s.nodes i else .empty

/-- count(Leaf(s, f)) = f and count(Internal(w, _, _)) = w (R140). -/
def Node.count : Node → Nat
  | .empty => 0
  | .leaf _ n => n
  | .internal n _ _ => n

/-- A successful build's commit (R140 step 4): arena, NODE_COUNT and ROOT, TREE_VALID set, the code table cleared. -/
def State.commitTree (s : State) (nodes : List Node) : State :=
  { s with
    nodes := nodes
    nodeCount := nodes.length
    root := nodes.length - 1
    treeValid := true
    codes := CodeTable.cleared
    tableValid := false }

/-! ### Free draws (R41, R42, R68, R76) -/

/-- One UNSPECIFIED byte, never drawn again. -/
def State.drawByte (s : State) : Byte × State := (Config.freeByte s.draws, { s with draws := s.draws + 1 })

/-- One UNSPECIFIED word, never drawn again. -/
def State.drawWord (s : State) : Word × State := (Config.freeWord s.draws, { s with draws := s.draws + 1 })

/-! ### Command lifecycle (R210 to R216) -/

/-- Acceptance of the command word `w` (R210). -/
def State.accept (s : State) (w : Word) : State :=
  { s with cmd := w, pending := some w, busy := true, done := false, err := .ok, errIndex := 0, errSymbol := 0 }

/-- Completion without an error (R213). -/
def State.complete (s : State) : State :=
  { s with pending := none, busy := false, done := true, err := .ok }

/-- Completion with an error and its report (R213, R216). Everything else is as the argument has it, so a command that
raises before it commits changes nothing else (R215). -/
def State.raise (e : ErrCode) (index : Nat) (symbol : Byte) (s : State) : State :=
  { s with
    pending := none
    busy := false
    done := true
    err := e
    errIndex := BitVec.ofNat 32 index
    errSymbol := symbol }

/-- A failing DECODE's own effect: OUT_LEN <- 0 and every byte of OUT becomes UNSPECIFIED (R215). -/
def State.discardOutput (s : State) : State := { s with outLen := 0, outMem := [] }

/-- The reset event (R240): every piece of the block's state at its reset value, a pending command discarded. The
parameters are constant (R32). The draws go on, since each is fresh; the coming turns and the word the host holds are
not the block's (log entry 9). -/
def State.resetEvent (s : State) : State :=
  { State.resetWith s.cfg with draws := s.draws, schedule := s.schedule, readData := s.readData }

end Sys2Proof.Machine
end

