-- ==== Sys2Proof/Machine/Flags.lean ====
section
/-! DEFINITION. The words the host reads: STATUS and its error codes (R22, R214), CTRL (R21), RESULT (R28), CAP_MISC
(R32), CT_INFO (R37), NODE_A and NODE_B (R38), the packed view BCDATA (R35), and the interrupt output (R221). Reserved
bits read 0 (R64). -/

namespace Sys2Proof.Machine

/-- The code of R214. -/
def ErrCode.code : ErrCode → BitVec 4
  | .ok => 0
  | .emptyInput => 1
  | .symbolNotFound => 2
  | .invalidData => 3
  | .noTree => 4
  | .noTable => 5
  | .overflow => 6
  | .illegalCommand => 7

/-- A flag as one bit. -/
def flag (b : Bool) : BitVec 1 := BitVec.ofBool b

/-- CTRL (R21). -/
def State.ctrlWord (s : State) : Word := 0#31 ++ flag s.irqEn

/-- STATUS (R22). -/
def State.statusWord (s : State) : Word :=
  0#22 ++ flag s.tableValid ++ flag s.treeValid ++ s.err.code ++ 0#1 ++ flag s.overrun ++ flag s.done ++ flag s.busy

/-- RESULT (R28). -/
def State.resultWord (s : State) : Word := 0#30 ++ flag s.result.valid ++ flag s.result.bit

/-- CAP_MISC: NBC in bits 4:0, CNT_W in bits 12:8 (R32). -/
def capMiscWord (p : Params) : Word := 0#19 ++ BitVec.ofNat 5 p.cntW ++ 0#3 ++ BitVec.ofNat 5 p.nbc

/-- CT_INFO[sym] (R37). -/
def State.ctInfoWord (s : State) (sym : Byte) : Word :=
  flag (s.ctValid sym) ++ 0#23 ++ BitVec.ofNat 8 (s.ctLen sym)

/-- NODE_A of a node (R38). -/
def Node.wordA : Node → Word
  | .empty => 0
  | .leaf sym _ => 0#24 ++ sym
  | .internal _ c0 c1 => 1#1 ++ 0#6 ++ BitVec.ofNat 9 c1 ++ 0#7 ++ BitVec.ofNat 9 c0

/-- NODE_B of a node: its count (R38). -/
def Node.wordB (n : Node) : Word := BitVec.ofNat 32 n.count

/-- Eight bits of a container from index `8 * j`, most significant first; bits at or beyond the length are 0 (R35). -/
def packedByte (b : Bits) (j : Nat) : Byte :=
  flag (b.getD (8 * j) false) ++ flag (b.getD (8 * j + 1) false) ++ flag (b.getD (8 * j + 2) false) ++
  flag (b.getD (8 * j + 3) false) ++ flag (b.getD (8 * j + 4) false) ++ flag (b.getD (8 * j + 5) false) ++
  flag (b.getD (8 * j + 6) false) ++ flag (b.getD (8 * j + 7) false)

/-- The bits of a byte, most significant first (R69). -/
def byteBits (v : Byte) : Bits :=
  [v.getLsbD 7, v.getLsbD 6, v.getLsbD 5, v.getLsbD 4, v.getLsbD 3, v.getLsbD 2, v.getLsbD 1, v.getLsbD 0]

/-- irq = CTRL.IRQ_EN AND STATUS.DONE (R221). -/
def State.irq (s : State) : Bool := s.irqEn && s.done

end Sys2Proof.Machine
end

