-- ==== Sys2Proof/Machine/Operands.lean ====
section
/-! DEFINITION. Operand forms: the legality of a command's container operands (R93) and the input bytes IN[0..IN_LEN-1]
(R25, R71, R76). -/

namespace Sys2Proof.Machine

/-- A command whose operands R93 rejects completes with ILLEGAL_COMMAND and nothing else; any other runs `body` (R212).
This check comes before every other (R217). An
illegal DECODE keeps OUT (log entry 8). -/
def ifLegal (i : Instr) (s : State) (body : State → State) : State :=
  if i.wellFormed s.cfg then body s else s.raise .illegalCommand 0 0

/-- MemRead(IN, i, 1) for `n` consecutive indices from `i`, with the draw counter `d`: a byte the host has not written
since reset is a fresh UNSPECIFIED draw (R71, R76). -/
def inputBytes (m : Memory) (d : Nat) (i : Nat) : Nat → List Byte × Nat
  | 0 => ([], d)
  | n + 1 =>
    match m.read i with
    | some v => let r := inputBytes m d (i + 1) n; (v :: r.1, r.2)
    | none => let r := inputBytes m (d + 1) (i + 1) n; (Config.freeByte d :: r.1, r.2)

/-- IN_LEN as a count. -/
def State.inCount (s : State) : Nat := s.inLen.toNat

/-- The bytes IN[0..IN_LEN-1] as a command reads them (R25). -/
def State.input (s : State) : List Byte := (inputBytes s.inMem s.draws 0 s.inCount).1

/-- The state after a command has read them: only the draw counter moves. -/
def State.afterInput (s : State) : State := { s with draws := (inputBytes s.inMem s.draws 0 s.inCount).2 }

end Sys2Proof.Machine
end

