-- ==== Sys2Proof/Machine/Bus.lean ====
section
/-! DEFINITION. The host bus (20_memory.md): the address map R62 and R63, what a BusRead returns and changes (R65, R68),
and what a BusWrite does while idle (R66) and while busy (R67). -/

namespace Sys2Proof.Machine

/-- A row of the address map (R62) with its index, or an unmapped address (R63). -/
inductive Target where
  | ctrl
  | status
  | cmd
  | inLen
  | decCount
  | outLen
  | result
  | errIndex
  | errSymbol
  | nodeCount
  | root
  | capIn
  | capOut
  | capBc
  | capMisc
  | bcLen (c : CIdx)
  | bcPos (c : CIdx)
  | freq (sym : Byte)
  | ctInfo (sym : Byte)
  | nodeA (i : Nat)
  | nodeB (i : Nat)
  | inByte (i : Nat)
  | outByte (i : Nat)
  | bcData (c : CIdx) (j : Nat)
  | unmapped
deriving DecidableEq, Repr

/-- The single registers, addresses 0x000000 to 0x00000E (R62). -/
def singleAt (n : Nat) : Target :=
  match n with
  | 0 => .ctrl
  | 1 => .status
  | 2 => .cmd
  | 3 => .inLen
  | 4 => .decCount
  | 5 => .outLen
  | 6 => .result
  | 7 => .errIndex
  | 8 => .errSymbol
  | 9 => .nodeCount
  | 10 => .root
  | 11 => .capIn
  | 12 => .capOut
  | 13 => .capBc
  | 14 => .capMisc
  | _ => .unmapped

/-- A container index out of an address offset. -/
def cidxOf (n : Nat) : CIdx := ⟨n % 16, Nat.mod_lt n (by decide)⟩

/-- The row an address belongs to (R62); every other address is unmapped, the indices beyond a parameter's bound among
them (R63). -/
def locate (p : Params) (a : Addr) : Target :=
  let n := a.toNat
  if n < 0x10 then singleAt n
  else if n < 0x20 then if n - 0x10 < p.nbc then .bcLen (cidxOf (n - 0x10)) else .unmapped
  else if n < 0x30 then if n - 0x20 < p.nbc then .bcPos (cidxOf (n - 0x20)) else .unmapped
  else if n < 0x100 then .unmapped
  else if n < 0x200 then .freq (BitVec.ofNat 8 (n - 0x100))
  else if n < 0x300 then .ctInfo (BitVec.ofNat 8 (n - 0x200))
  else if n < 0x400 then .unmapped
  else if n < 0x600 then .nodeA (n - 0x400)
  else if n < 0x800 then .nodeB (n - 0x600)
  else if n < 0x10000 then .unmapped
  else if n < 0x20000 then if n - 0x10000 < p.inCap then .inByte (n - 0x10000) else .unmapped
  else if n < 0x30000 then if n - 0x20000 < p.outCap then .outByte (n - 0x20000) else .unmapped
  else if n < 0x100000 then .unmapped
  else
    let c := (n - 0x100000) / 0x10000
    let j := (n - 0x100000) % 0x10000
    if c < p.nbc ∧ j < p.bcCap / 8 then .bcData (cidxOf c) j else .unmapped

/-- A row exists in configuration `p`: its index is below the bound R62 gives. -/
def Target.mapped (p : Params) : Target → Bool
  | .bcLen c => containerExists p c
  | .bcPos c => containerExists p c
  | .nodeA i => decide (i < 512)
  | .nodeB i => decide (i < 512)
  | .inByte i => decide (i < p.inCap)
  | .outByte i => decide (i < p.outCap)
  | .bcData c j => containerExists p c && decide (j < p.bcCap / 8)
  | .unmapped => false
  | _ => true

/-- The word address R62 gives a row; 0 stands for none at `unmapped`. -/
def Target.address : Target → Nat
  | .ctrl => 0x000000
  | .status => 0x000001
  | .cmd => 0x000002
  | .inLen => 0x000003
  | .decCount => 0x000004
  | .outLen => 0x000005
  | .result => 0x000006
  | .errIndex => 0x000007
  | .errSymbol => 0x000008
  | .nodeCount => 0x000009
  | .root => 0x00000A
  | .capIn => 0x00000B
  | .capOut => 0x00000C
  | .capBc => 0x00000D
  | .capMisc => 0x00000E
  | .bcLen c => 0x000010 + c.val
  | .bcPos c => 0x000020 + c.val
  | .freq sym => 0x000100 + sym.toNat
  | .ctInfo sym => 0x000200 + sym.toNat
  | .nodeA i => 0x000400 + i
  | .nodeB i => 0x000600 + i
  | .inByte i => 0x010000 + i
  | .outByte i => 0x020000 + i
  | .bcData c j => 0x100000 + 0x10000 * c.val + j
  | .unmapped => 0

/-! ### Reads -/

/-- IN[i] as the host reads it: bits 31:8 are 0, and a byte it has not written since reset is a fresh draw (R41, U1 of
93_implementation_defined.md). -/
def State.readIn (s : State) (i : Nat) : Word × State :=
  match s.inMem.read i with
  | some v => (v.setWidth 32, s)
  | none => (s.drawByte.1.setWidth 32, s.drawByte.2)

/-- OUT[i] as the host reads it: a fresh draw at OUT_LEN and beyond (R42, U2 of 93_implementation_defined.md). -/
def State.readOut (s : State) (i : Nat) : Word × State :=
  match (if i < s.outLen.toNat then s.outMem.read i else none) with
  | some v => (v.setWidth 32, s)
  | none => (s.drawByte.1.setWidth 32, s.drawByte.2)

/-- The value the state rule of a row defines, with the draws it takes (R65). -/
def State.readTarget (s : State) (t : Target) : Word × State :=
  match t with
  | .ctrl => (s.ctrlWord, s)
  | .status => (s.statusWord, s)
  | .cmd => (s.cmd, s)
  | .inLen => (s.inLen, s)
  | .decCount => (s.decCount, s)
  | .outLen => (s.outLen, s)
  | .result => (s.resultWord, s)
  | .errIndex => (s.errIndex, s)
  | .errSymbol => (s.errSymbol.setWidth 32, s)
  | .nodeCount => (BitVec.ofNat 32 s.nodeCount, s)
  | .root => (BitVec.ofNat 32 s.root, s)
  | .capIn => (BitVec.ofNat 32 s.cfg.inCap, s)
  | .capOut => (BitVec.ofNat 32 s.cfg.outCap, s)
  | .capBc => (BitVec.ofNat 32 s.cfg.bcCap, s)
  | .capMisc => (capMiscWord s.cfg, s)
  | .bcLen c => (BitVec.ofNat 32 (s.bits c).length, s)
  | .bcPos c => (BitVec.ofNat 32 (s.pos c), s)
  | .freq sym => (BitVec.ofNat 32 (s.freqAt sym), s)
  | .ctInfo sym => (s.ctInfoWord sym, s)
  | .nodeA i => ((s.node i).wordA, s)
  | .nodeB i => ((s.node i).wordB, s)
  | .inByte i => s.readIn i
  | .outByte i => s.readOut i
  | .bcData c j => ((packedByte (s.bits c) j).setWidth 32, s)
  | .unmapped => (0, s)

/-- The registers whose read is defined while BUSY = 1: CTRL, STATUS, CMD and CAP_* (R68). -/
def Target.definedWhileBusy : Target → Bool
  | .ctrl => true
  | .status => true
  | .cmd => true
  | .capIn => true
  | .capOut => true
  | .capBc => true
  | .capMisc => true
  | _ => false

/-- BusRead(a) (R60): the word, and the state with the draws taken. While BUSY = 1 a read of any other address than those
of R68 is a fresh UNSPECIFIED word, an unmapped address among them (log entry 5). -/
def State.busRead (s : State) (a : Addr) : Word × State :=
  if s.busy && !(locate s.cfg a).definedWhileBusy then s.drawWord else s.readTarget (locate s.cfg a)

/-! ### Writes -/

/-- STATUS is write-1-to-clear in bits 1 and 2 (R22, R66). -/
def State.writeStatus (s : State) (d : Word) : State :=
  { s with done := s.done && !d.getLsbD 1, overrun := s.overrun && !d.getLsbD 2 }

/-- A CMD write: acceptance while idle (R210), overrun while busy (R211). -/
def State.writeCmd (s : State) (w : Word) : State :=
  if s.busy then { s with overrun := true } else s.accept w

/-- BusWrite(a, d) (R60, R66, R67): operand writes are ignored while BUSY = 1, and a write to a read-only row or an
unmapped address always is. -/
def State.busWrite (s : State) (a : Addr) (d : Word) : State :=
  match locate s.cfg a with
  | .ctrl => { s with irqEn := d.getLsbD 0 }
  | .status => s.writeStatus d
  | .cmd => s.writeCmd d
  | .inLen => if s.busy then s else { s with inLen := d }
  | .decCount => if s.busy then s else { s with decCount := d }
  | .freq sym => if s.busy then s else s.setFreq sym d
  | .inByte i => if s.busy then s else { s with inMem := s.inMem.write i (d.setWidth 8) }
  | _ => s

/-- The host's BusRead as a turn: the word returned is what the host now holds. -/
def State.hostRead (s : State) (a : Addr) : State := { (s.busRead a).2 with readData := (s.busRead a).1 }

end Sys2Proof.Machine
end

