-- ==== Sys2Proof/Machine/BitContainer.lean ====
section
/-! DEFINITION. The bit container commands (40_bit_container.md, R110 to R117). -/

namespace Sys2Proof.Machine

/-- R110: the container becomes empty, its iterator 0. -/
def clearContainer (c : CIdx) (s : State) : State := (s.replaceBits c []).complete

/-- R111: one bit at the tail; OVERFLOW when the container already holds BC_CAP bits. -/
def pushBit (c : CIdx) (bit : Bool) (s : State) : State :=
  if (s.bits c).length = s.cfg.bcCap then s.raise .overflow 0 0
  else (s.extendTo c (s.bits c ++ [bit])).complete

/-- R112: a byte of IN carries the bit 0 exactly when it is 0x00. -/
def bitOfByte (v : Byte) : Bool := v != 0

/-- R112: replace the container by one bit per input byte. -/
def loadBits (c : CIdx) (s : State) : State :=
  if s.cfg.inCap < s.inCount then s.raise .overflow 0 0
  else if s.cfg.bcCap < s.inCount then s.raise .overflow 0 0
  else (s.afterInput.replaceBits c (s.input.map bitOfByte)).complete

/-- R113: replace the container by the bits of the input bytes, each most-significant-bit first. -/
def loadBytes (c : CIdx) (s : State) : State :=
  if s.cfg.inCap < s.inCount then s.raise .overflow 0 0
  else if s.cfg.bcCap < 8 * s.inCount then s.raise .overflow 0 0
  else (s.afterInput.replaceBits c (s.input.flatMap byteBits)).complete

/-- R114: the source's bits after the destination's; the source is left empty, its iterator 0. -/
def appendContainer (c src : CIdx) (s : State) : State :=
  if s.cfg.bcCap < (s.bits c).length + (s.bits src).length then s.raise .overflow 0 0
  else ((s.extendTo c (s.bits c ++ s.bits src)).replaceBits src []).complete

/-- R115: a fresh iteration at bit 0. -/
def restartIterator (c : CIdx) (s : State) : State := (s.setPos c 0).complete

/-- R116: yield the next bit into RESULT; the end of the sequence is VALID = 0 and no error. -/
def yieldBit (c : CIdx) (s : State) : State :=
  match (s.bits c)[s.pos c]? with
  | some b => ({ s with result := { valid := true, bit := b } }.setPos c (s.pos c + 1)).complete
  | none => { s with result := { valid := false, bit := false } }.complete

/-- R117: the zero bits that bring a length to the next multiple of 8. -/
def padding (n : Nat) : Bits := List.replicate ((8 - n % 8) % 8) false

/-- R117: pad the container to a multiple of 8 bits. -/
def alignContainer (c : CIdx) (s : State) : State :=
  (s.extendTo c (s.bits c ++ padding (s.bits c).length)).complete

/-- BC_CLEAR (R110). -/
def execBcClear (c : CIdx) (s : State) : Answer := .next (ifLegal (.bcClear c) s (clearContainer c))

/-- BC_PUSH (R111). -/
def execBcPush (c : CIdx) (bit : Bool) (s : State) : Answer := .next (ifLegal (.bcPush c bit) s (pushBit c bit))

/-- BC_FROM_BITS (R112). -/
def execBcFromBits (c : CIdx) (s : State) : Answer := .next (ifLegal (.bcFromBits c) s (loadBits c))

/-- BC_FROM_BYTES (R113). -/
def execBcFromBytes (c : CIdx) (s : State) : Answer := .next (ifLegal (.bcFromBytes c) s (loadBytes c))

/-- BC_APPEND (R114). -/
def execBcAppend (c src : CIdx) (s : State) : Answer := .next (ifLegal (.bcAppend c src) s (appendContainer c src))

/-- BC_ITER_RESET (R115). -/
def execBcIterReset (c : CIdx) (s : State) : Answer := .next (ifLegal (.bcIterReset c) s (restartIterator c))

/-- BC_ITER_NEXT (R116). -/
def execBcIterNext (c : CIdx) (s : State) : Answer := .next (ifLegal (.bcIterNext c) s (yieldBit c))

/-- BC_ALIGN (R117). -/
def execBcAlign (c : CIdx) (s : State) : Answer := .next (ifLegal (.bcAlign c) s (alignContainer c))

end Sys2Proof.Machine
end

