-- ==== Sys2Proof/Machine/CodeTable.lean ====
section
/-! DEFINITION. The code table commands (42_code_table.md, R160 to R162). -/

namespace Sys2Proof.Machine

/-- Walk(i, p) (R160), with fuel: record each leaf's path from the root, child0 by the bit 0 and child1 by the bit 1.
A child's index is below its parent's (R39), so fuel above the root's index reaches every leaf (log entry 6). -/
def walkCodes (nodes : List Node) : Nat → Nat → Bits → CodeTable → CodeTable
  | 0, _, _, t => t
  | fuel + 1, i, p, t =>
    match nodeOf nodes i with
    | .leaf sym _ => t.record sym p
    | .internal _ c0 c1 => walkCodes nodes fuel c1 (p ++ [true]) (walkCodes nodes fuel c0 (p ++ [false]) t)
    | .empty => t

/-- DeriveCodes() (R160): 511 is the size of the arena (R9). -/
def deriveCodes (nodes : List Node) (root : Nat) : CodeTable := walkCodes nodes 511 root [] CodeTable.cleared

/-- R161: derive the table from the tree in the arena. -/
def deriveTable (s : State) : State :=
  if s.treeValid then { s with codes := deriveCodes s.nodes s.root, tableValid := true }.complete
  else s.raise .noTree 0 0

/-- R162: copy a symbol's code into the container. -/
def lookupCode (c : CIdx) (sym : Byte) (s : State) : State :=
  if s.tableValid then
    match s.code sym with
    | some code => (s.replaceBits c code).complete
    | none => s.raise .symbolNotFound 0 sym
  else s.raise .noTable 0 0

/-- TABLE_DERIVE (R161). -/
def execTableDerive (s : State) : Answer := .next (ifLegal .tableDerive s deriveTable)

/-- TABLE_LOOKUP (R162). -/
def execTableLookup (c : CIdx) (sym : Byte) (s : State) : Answer :=
  .next (ifLegal (.tableLookup c sym) s (lookupCode c sym))

end Sys2Proof.Machine
end

