-- ==== Sys2Proof/Machine/Coder.lean ====
section
/-! DEFINITION. The encode and decode commands (43_coder.md, R180 and R181). -/

namespace Sys2Proof.Machine

/-- The arguments of a `raise` (R12). -/
structure Raised where
  /-- The error. -/
  code : ErrCode
  /-- ERR_INDEX. -/
  index : Nat
  /-- ERR_SYMBOL. -/
  symbol : Byte
deriving DecidableEq, Repr

/-- R180's loop from byte `i` with the accumulated bits `acc`: a byte with no code is reported before its overflow, and
the first failing byte decides. -/
def encodeFrom (t : CodeTable) (cap : Nat) (i : Nat) (acc : Bits) : List Byte → Except Raised Bits
  | [] => .ok acc
  | v :: vs =>
    match t.entry v with
    | none => .error { code := .symbolNotFound, index := i, symbol := v }
    | some code =>
      if cap < acc.length + code.length then .error { code := .overflow, index := i, symbol := 0 }
      else encodeFrom t cap (i + 1) (acc ++ code) vs

/-- R180: replace the container by the codes of the input bytes, all or nothing. -/
def encodeInput (c : CIdx) (s : State) : State :=
  if s.tableValid then
    if s.cfg.inCap < s.inCount then s.raise .overflow 0 0
    else
      match encodeFrom s.codes s.cfg.bcCap 0 [] s.input with
      | .ok bits => (s.afterInput.replaceBits c bits).complete
      | .error e => s.afterInput.raise e.code e.index e.symbol
  else s.raise .noTable 0 0

/-- The child a bit selects: 0 selects child0 and 1 selects child1 (R98, R181). A node without children is left where it
is; by R39 the walk never stands on one (log entry 6). -/
def childOf (nodes : List Node) (p : Nat) (bit : Bool) : Nat :=
  match nodeOf nodes p with
  | .internal _ c0 c1 => if bit then c1 else c0
  | _ => p

/-- R181's walk from bit `i` with the walk position `p` and `m` bytes already written: the bytes still to write. -/
def decodeFrom (nodes : List Node) (root cap : Nat) (i p m : Nat) : Bits → Except Raised (List Byte)
  | [] => if p = root then .ok [] else .error { code := .invalidData, index := i, symbol := 0 }
  | b :: bs =>
    match nodeOf nodes (childOf nodes p b) with
    | .leaf sym _ =>
      if m = cap then .error { code := .overflow, index := i, symbol := 0 }
      else (decodeFrom nodes root cap (i + 1) root (m + 1) bs).map (sym :: ·)
    | _ => decodeFrom nodes root cap (i + 1) (childOf nodes p b) m bs

/-- symbol(NODE[i]), where that node is a leaf. -/
def symbolOf (nodes : List Node) (i : Nat) : Byte :=
  match nodeOf nodes i with
  | .leaf sym _ => sym
  | _ => 0

/-- R181 for a single-leaf tree: no bit belongs to an empty code, and DEC_COUNT gives the number of symbols. -/
def decodeSingle (s : State) (b : Bits) : Except Raised (List Byte) :=
  if b ≠ [] then .error { code := .invalidData, index := 0, symbol := 0 }
  else if s.cfg.outCap < s.decCount.toNat then .error { code := .overflow, index := 0, symbol := 0 }
  else .ok (List.replicate s.decCount.toNat (symbolOf s.nodes s.root))

/-- R181: the bytes a container decodes to under the tree in the arena. -/
def decodeBits (s : State) (b : Bits) : Except Raised (List Byte) :=
  if s.nodeCount = 1 then decodeSingle s b else decodeFrom s.nodes s.root s.cfg.outCap 0 s.root 0 b

/-- A successful DECODE's output: OUT[0..m-1] and OUT_LEN = m; every further byte of OUT is UNSPECIFIED (R42, R181). -/
def State.emit (s : State) (bytes : List Byte) : State :=
  { s with outLen := BitVec.ofNat 32 bytes.length, outMem := Memory.writeBytes [] 0 bytes }

/-- R181: decode the container into OUT. -/
def decodeContainer (c : CIdx) (s : State) : State :=
  if s.treeValid then
    match decodeBits s (s.bits c) with
    | .ok bytes => (s.emit bytes).complete
    | .error e => s.discardOutput.raise e.code e.index e.symbol
  else s.discardOutput.raise .noTree 0 0

/-- ENCODE (R180). -/
def execEncode (c : CIdx) (s : State) : Answer := .next (ifLegal (.encode c) s (encodeInput c))

/-- DECODE (R181). -/
def execDecode (c : CIdx) (s : State) : Answer := .next (ifLegal (.decode c) s (decodeContainer c))

end Sys2Proof.Machine
end

