-- ==== Sys2Proof/Machine/Control.lean ====
section
/-! DEFINITION. The control command NOP (44_control.md). -/

namespace Sys2Proof.Machine

/-- NOP (R200): complete without any effect on data state. -/
def execNop (s : State) : Answer := .next (ifLegal .nop s State.complete)

end Sys2Proof.Machine
end

