-- ==== Sys2Proof/Machine/TreeBuilder.lean ====
section
/-! DEFINITION. The tree construction commands (41_tree_builder.md, R140 to R142): counts, leaves in ascending symbol
order, the greedy merge by the key (count, index), and the commit. -/

namespace Sys2Proof.Machine

/-- The counts F[0..255] a tree is built from (R140). -/
abbrev Counts := Vector Nat 256

/-- R141: how often each byte value occurs in the input. -/
def countBytes (bytes : List Byte) : Counts :=
  ⟨⟨(List.range 256).map fun sym => bytes.count (BitVec.ofNat 8 sym)⟩, by simp⟩

/-- R140 step 2's loop from symbol `sym` on, over the counts of that symbol and the further ones. -/
def leavesFrom (sym : Nat) : List Nat → List Node
  | [] => []
  | n :: ns => if 0 < n then .leaf (BitVec.ofNat 8 sym) n :: leavesFrom (sym + 1) ns else leavesFrom (sym + 1) ns

/-- R140 step 2: one leaf for each symbol with a positive count, in ascending symbol order. -/
def leavesOf (f : Counts) : List Node := leavesFrom 0 f.toList

/-- A root candidate: a node's count and index, which are its key (R140). -/
structure Cand where
  /-- count(T[i]). -/
  count : Nat
  /-- i. -/
  index : Nat
deriving DecidableEq, Repr

/-- The lexicographic order of the keys (count, index) (R140). -/
def Cand.before (x y : Cand) : Bool := x.count < y.count || (x.count == y.count && x.index < y.index)

/-- The candidate set Q is kept as a list in key order, so its least element is its first: Q ∪ {x}. -/
def insertCand (x : Cand) : List Cand → List Cand
  | [] => [x]
  | y :: q => if x.before y then x :: y :: q else y :: insertCand x q

/-- The candidates of the given nodes, whose first has index `i`: the set Q before the merge (R140). -/
def candidates (i : Nat) : List Node → List Cand
  | [] => []
  | n :: ns => insertCand { count := n.count, index := i } (candidates (i + 1) ns)

/-- R140 step 3, with fuel: while two candidates are left, take the least `a`, then the least `b` of the rest, and give
the new node `Internal(count a + count b, a, b)` the next free index. -/
def mergeAll : Nat → List Cand → List Node → List Node
  | fuel + 1, a :: b :: q, t =>
    mergeAll fuel (insertCand { count := a.count + b.count, index := t.length } q)
      (t ++ [.internal (a.count + b.count) a.index b.index])
  | _, _, t => t

/-- BuildTree (R140): the finished arena, or `none` where no symbol has a count. Each merge leaves one candidate fewer, so
as much fuel as leaves runs the loop to its end. -/
def buildTree (f : Counts) : Option (List Node) :=
  match leavesOf f with
  | [] => none
  | l :: ls => some (mergeAll (l :: ls).length (candidates 0 (l :: ls)) (l :: ls))

/-- BuildTree's commit, or EMPTY_INPUT (R140); `s` is the state to commit to, `s0` the one a failure keeps (R215). -/
def commitBuild (f : Counts) (s0 s : State) : State :=
  match buildTree f with
  | none => s0.raise .emptyInput 0 0
  | some nodes => (s.commitTree nodes).complete

/-- R141: count the input into FREQ and build. -/
def buildFromInput (s : State) : State :=
  if s.cfg.inCap < s.inCount then s.raise .overflow 0 0
  else if s.inCount = 0 then s.raise .emptyInput 0 0
  else
    let g := countBytes s.input
    commitBuild g s.afterInput { s.afterInput with freq := g }

/-- R142: build from FREQ as it stands; FREQ is not written. -/
def buildFromFreq (s : State) : State := commitBuild s.freq s s

/-- TREE_BUILD (R141). -/
def execTreeBuild (s : State) : Answer := .next (ifLegal .treeBuild s buildFromInput)

/-- TREE_BUILD_FREQ (R142). -/
def execTreeBuildFreq (s : State) : Answer := .next (ifLegal .treeBuildFreq s buildFromFreq)

end Sys2Proof.Machine
end

