-- ==== Sys2Proof/Machine/Dispatch.lean ====
section
/-! DEFINITION. One arm per command of the opcode map (R92, R212). -/

namespace Sys2Proof.Machine

def exec (i : Instr) (s : State) : Host.Outcome State Fault Refusal :=
  match i with
  | .nop => Sys2Proof.Machine.execNop s
  | .bcClear c => Sys2Proof.Machine.execBcClear c s
  | .bcPush c bit => Sys2Proof.Machine.execBcPush c bit s
  | .bcFromBits c => Sys2Proof.Machine.execBcFromBits c s
  | .bcFromBytes c => Sys2Proof.Machine.execBcFromBytes c s
  | .bcAppend c src => Sys2Proof.Machine.execBcAppend c src s
  | .bcIterReset c => Sys2Proof.Machine.execBcIterReset c s
  | .bcIterNext c => Sys2Proof.Machine.execBcIterNext c s
  | .bcAlign c => Sys2Proof.Machine.execBcAlign c s
  | .treeBuild => Sys2Proof.Machine.execTreeBuild s
  | .treeBuildFreq => Sys2Proof.Machine.execTreeBuildFreq s
  | .tableDerive => Sys2Proof.Machine.execTableDerive s
  | .tableLookup c sym => Sys2Proof.Machine.execTableLookup c sym s
  | .encode c => Sys2Proof.Machine.execEncode c s
  | .decode c => Sys2Proof.Machine.execDecode c s

end Sys2Proof.Machine
end

