-- ==== Sys2Proof/Machine/Engine.lean ====
section
/-! DEFINITION. The turns of the machine: the engine step (R212), the host's accesses (R60), a poll of WAIT (R97) and
reset (R240). -/

namespace Sys2Proof.Machine

/-- The engine's execution of the command word `w` (R212): a word that is no command of R92 completes with
ILLEGAL_COMMAND, and so does one whose operands R93 rejects (in its meaning). -/
def runWord (w : Word) (s : State) : Answer :=
  match decode w with
  | .ok i => exec i s
  | .error _ => .next (s.raise .illegalCommand 0 0)

/-- The engine has a step exactly when PENDING ≠ none (R212); otherwise its turn changes nothing (log entry 4). -/
def engineStep (s : State) : Answer :=
  match s.pending with
  | some w => runWord w s
  | none => .next s

/-- One poll of WAIT (R97): an ordinary read of STATUS. While it reads BUSY = 1 the loop goes on, and the engine's turn
comes before the next poll (weak fairness, R250; log entry 3). -/
def State.poll (s : State) : State :=
  if s.busy then { s.hostRead 0x000001 with schedule := .engine :: .wait :: s.schedule } else s.hostRead 0x000001

/-- One turn, already taken off the schedule. -/
def turn (e : Event) (s : State) : Answer :=
  match e with
  | .engine => engineStep s
  | .read a => .next (s.hostRead a)
  | .write a d => .next (s.busWrite a d)
  | .wait => .next s.poll
  | .reset => .next s.resetEvent

/-- The next turn of the schedule; where the schedule says nothing more, the engine's. -/
def nextTurn (s : State) : Answer :=
  match s.schedule with
  | [] => engineStep s
  | e :: rest => turn e { s with schedule := rest }

/-- `s` with the table word `w` of `nbits` bits pending (R24: PENDING ≠ none exactly when BUSY = 1) and the engine's turn
next (log entry 7). -/
def placeWord (s : State) (nbits w : Nat) : State :=
  { s with
    pending := some (BitVec.ofNat 32 (w % 2 ^ nbits))
    busy := true
    schedule := .engine :: s.schedule }

end Sys2Proof.Machine
end

