-- ==== Sys2Proof/Machine/HostProgram.lean ====
section
/-! DEFINITION. The host's pseudo-instructions of R97 as the bus accesses they expand to: a host program is a list of
them, and its expansion is a schedule of the machine. -/

namespace Sys2Proof.Machine

/-- A host-side operation of R97. -/
inductive HostOp where
  /-- WR addr, value. -/
  | wr (a : Addr) (d : Word)
  /-- RD addr. -/
  | rd (a : Addr)
  /-- ISSUE cmd, with any command word (V-X3 issues words that are no command). -/
  | issue (w : Word)
  /-- WAIT. -/
  | wait
  /-- DO cmd. -/
  | run (i : Instr)
  /-- LOAD_IN [b0, ..., bn-1]. -/
  | loadIn (bytes : List Byte)
  /-- CHECK_OK: the read; what it requires of the word read is `wordIsOk`. -/
  | checkOk
deriving DecidableEq, Repr

/-- `BusWrite(0x010000 + i, bi)` for consecutive bytes from index `i` (R97). -/
def loadEvents (i : Nat) : List Byte → List Event
  | [] => []
  | b :: bs => .write (BitVec.ofNat 21 (0x010000 + i)) (b.setWidth 32) :: loadEvents (i + 1) bs

/-- The expansion of R97. -/
def HostOp.expand : HostOp → List Event
  | .wr a d => [.write a d]
  | .rd a => [.read a]
  | .issue w => [.write 0x000002 w]
  | .wait => [.wait]
  | .run i => [.write 0x000002 (encode i), .wait]
  | .loadIn bytes => loadEvents 0 bytes ++ [.write 0x000003 (BitVec.ofNat 32 bytes.length)]
  | .checkOk => [.read 0x000001]

/-- A host program's bus accesses, in its order (R61). -/
def expandProgram (p : List HostOp) : List Event := p.flatMap HostOp.expand

/-- What CHECK_OK requires of the STATUS word read: bits 7:4 (ERR) are 0 (R97). -/
def wordIsOk (w : Word) : Bool := w.extractLsb' 4 4 == 0#4

end Sys2Proof.Machine
end

