-- ==== Sys2Proof/Safety.lean ====
section
/-! DEFINITION. The terms the statements use: paths and candidates in an arena, the tree invariant of R39, the greedy
arena of R140 read declaratively, the machine's invariant, what a command leaves unchanged, and runs of several commands. -/

namespace Sys2Proof.Machine

/-! ### The arena -/

/-- `PathTo nodes i p j`: from node `i` the bits `p` lead through internal nodes to node `j`, 0 by child0 and 1 by child1
(R40, R160). -/
def PathTo (nodes : List Node) : Nat → Bits → Nat → Prop
  | i, [], j => i = j
  | i, b :: p, j => ∃ n c0 c1, nodeOf nodes i = .internal n c0 c1 ∧ PathTo nodes (if b then c1 else c0) p j

/-- Node `i` is a child of the internal node `j` (R39). -/
def IsChild (nodes : List Node) (j i : Nat) : Prop :=
  ∃ n c0 c1, nodeOf nodes j = .internal n c0 c1 ∧ (i = c0 ∨ i = c1)

/-- Node `i` is a leaf of symbol `sym`. -/
def IsLeafOf (nodes : List Node) (i : Nat) (sym : Byte) : Prop := ∃ n, nodeOf nodes i = .leaf sym n

/-- The tree invariant of R39 for a tree of `k` leaves, with its four items in their order. -/
structure TreeShape (cntW : Nat) (nodes : List Node) (nodeCount root k : Nat) : Prop where
  /-- Item 1: NODE_COUNT = 2k − 1 with 1 ≤ k ≤ 256, and ROOT = NODE_COUNT − 1. -/
  size : 1 ≤ k ∧ k ≤ 256 ∧ nodeCount = 2 * k - 1 ∧ root = nodeCount - 1 ∧ nodes.length = nodeCount
  /-- Item 2: nodes 0..k−1 are leaves (with the counts R38 allows). -/
  leaves : ∀ i, i < k → ∃ sym n, nodeOf nodes i = .leaf sym n ∧ 0 < n ∧ n < 2 ^ cntW
  /-- Item 2: in strictly ascending symbol order. -/
  ascending : ∀ i j si ni sj nj, i < j → j < k → nodeOf nodes i = .leaf si ni → nodeOf nodes j = .leaf sj nj →
    si.toNat < sj.toNat
  /-- Items 3 and 4: nodes k..2k−2 are internal, with children below them and the sum of their counts. -/
  internals : ∀ i, k ≤ i → i < nodeCount → ∃ n c0 c1, nodeOf nodes i = .internal n c0 c1 ∧ c0 < i ∧ c1 < i ∧
    n = (nodeOf nodes c0).count + (nodeOf nodes c1).count
  /-- Item 3: every node other than ROOT is the child of exactly one internal node. -/
  oneParent : ∀ i, i < root → ∃ j, IsChild nodes j i ∧ ∀ j', IsChild nodes j' i → j' = j

/-- Node `i` is a root candidate when node `m` is about to be created: it exists and no node below `m` has it as a child
(R140: the set Q). -/
def IsCand (nodes : List Node) (m i : Nat) : Prop := i < m ∧ ∀ j, j < m → ¬ IsChild nodes j i

/-- The key (count, index) of a node (R140). -/
def keyOf (nodes : List Node) (i : Nat) : Cand := { count := (nodeOf nodes i).count, index := i }

/-- What R140's procedure leaves for counts `f` with `k` positive ones, said without a loop: the leaves in ascending
symbol order, then each further node the merge of the two least candidates at its creation, the least as child0. -/
structure GreedyArena (f : Counts) (nodes : List Node) (k : Nat) : Prop where
  /-- k ≥ 1 leaves and 2k − 1 nodes. -/
  size : 1 ≤ k ∧ nodes.length = 2 * k - 1
  /-- Nodes 0..k−1 are leaves of symbols with a positive count, and hold that count. -/
  leaves : ∀ i, i < k → ∃ sym : Byte, nodeOf nodes i = .leaf sym (f[sym.toNat]'sym.isLt) ∧ 0 < f[sym.toNat]'sym.isLt
  /-- Every symbol with a positive count has a leaf. -/
  present : ∀ sym : Byte, 0 < f[sym.toNat]'sym.isLt → ∃ i, i < k ∧ IsLeafOf nodes i sym
  /-- Leaves stand in strictly ascending symbol order. -/
  ascending : ∀ i j si sj, i < j → j < k → IsLeafOf nodes i si → IsLeafOf nodes j sj → si.toNat < sj.toNat
  /-- Node `m` merges the two candidates of least key, the least as child0. -/
  merges : ∀ m, k ≤ m → m < 2 * k - 1 → ∃ a b,
    nodeOf nodes m = .internal ((nodeOf nodes a).count + (nodeOf nodes b).count) a b ∧
    IsCand nodes m a ∧ IsCand nodes m b ∧ (keyOf nodes a).before (keyOf nodes b) = true ∧
    ∀ c, IsCand nodes m c → c ≠ a → c ≠ b → (keyOf nodes b).before (keyOf nodes c) = true

/-! ### The machine's invariant -/

/-- What holds after reset and after every step. -/
structure MachineInv (s : State) : Prop where
  /-- The parameters are in their ranges (R8). -/
  legal : s.cfg.legal = true
  /-- PENDING ≠ none ⇔ STATUS.BUSY = 1 (R24). -/
  busyPending : s.busy = s.pending.isSome
  /-- While a command is pending, CMD holds its word and the report is as acceptance left it (R210, R23). -/
  accepted : ∀ w, s.pending = some w →
    s.cmd = w ∧ s.done = false ∧ s.err = .ok ∧ s.errIndex = 0 ∧ s.errSymbol = 0
  /-- With ERR = OK the report registers are 0 (R216). -/
  report : s.err = .ok → s.errIndex = 0 ∧ s.errSymbol = 0
  /-- RESULT.BIT is 0 when RESULT.VALID is 0 (R28). -/
  resultBit : s.result.valid = false → s.result.bit = false
  /-- len(BC_BITS[c]) ≤ BC_CAP (R33). -/
  bitLen : ∀ c, (s.bits c).length ≤ s.cfg.bcCap
  /-- BC_POS[c] ≤ len(BC_BITS[c]) (R34). -/
  bitPos : ∀ c, s.pos c ≤ (s.bits c).length
  /-- Containers at NBC and above do not exist: nothing is ever put there (R91). -/
  absent : ∀ c, containerExists s.cfg c = false → s.container c = Container.empty
  /-- IN is in canonical form, within IN_CAP (R41). -/
  inForm : s.inMem.wf = true ∧ s.inMem.below s.cfg.inCap = true
  /-- OUT is in canonical form; the bytes below OUT_LEN, and only those, hold a specified value (R42). -/
  outForm : s.outMem.wf = true ∧ ∀ i, (s.outMem.read i).isSome = true ↔ i < s.outLen.toNat
  /-- OUT_LEN ≤ OUT_CAP (R27). -/
  outLen : s.outLen.toNat ≤ s.cfg.outCap
  /-- FREQ counters have CNT_W bits (R36). -/
  freq : ∀ sym, s.freqAt sym < 2 ^ s.cfg.cntW
  /-- Without a tree the arena is empty (R39). -/
  noTree : s.treeValid = false → s.nodes = [] ∧ s.nodeCount = 0 ∧ s.root = 0
  /-- With a tree the arena is a finished BuildTree of CNT_W-bit counts (R140, R43). -/
  tree : s.treeValid = true → s.nodeCount = s.nodes.length ∧ s.root = s.nodes.length - 1 ∧
    ∃ f : Counts, (∀ sym : Byte, f[sym.toNat]'sym.isLt < 2 ^ s.cfg.cntW) ∧ buildTree f = some s.nodes
  /-- Without a table every entry is invalid (R37). -/
  noTable : s.tableValid = false → ∀ sym, s.code sym = none
  /-- With a table, it is derived from the tree now in the arena (R43). -/
  table : s.tableValid = true → s.treeValid = true ∧ s.codes = deriveCodes s.nodes s.root

/-! ### What a command leaves unchanged -/

/-- The registers no command writes: CTRL, OVERRUN, CMD, IN_LEN, DEC_COUNT and the parameters, and the host's own. -/
def SameControl (s t : State) : Prop :=
  t.cfg = s.cfg ∧ t.irqEn = s.irqEn ∧ t.overrun = s.overrun ∧ t.cmd = s.cmd ∧ t.inLen = s.inLen ∧
  t.decCount = s.decCount ∧ t.schedule = s.schedule ∧ t.readData = s.readData

/-- Every byte of IN reads as before: it has the same specified value or is UNSPECIFIED as before. -/
def SameIn (s t : State) : Prop := ∀ i, t.inMem.read i = s.inMem.read i

/-- OUT_LEN and every byte of OUT are as before. -/
def SameOut (s t : State) : Prop := t.outLen = s.outLen ∧ ∀ i, t.outMem.read i = s.outMem.read i

/-- RESULT is as before. -/
def SameResult (s t : State) : Prop := t.result = s.result

/-- Every FREQ counter is as before. -/
def SameFreq (s t : State) : Prop := ∀ sym, t.freqAt sym = s.freqAt sym

/-- The arena, NODE_COUNT, ROOT and TREE_VALID are as before. -/
def SameTree (s t : State) : Prop :=
  t.nodes = s.nodes ∧ t.nodeCount = s.nodeCount ∧ t.root = s.root ∧ t.treeValid = s.treeValid

/-- Every code table entry and TABLE_VALID are as before. -/
def SameTable (s t : State) : Prop := (∀ sym, t.code sym = s.code sym) ∧ t.tableValid = s.tableValid

/-- Every container but those `touched` has the bits and the position it had. -/
def SameContainersBut (touched : List CIdx) (s t : State) : Prop :=
  ∀ d, d ∉ touched → t.bits d = s.bits d ∧ t.pos d = s.pos d

/-- A completion without an error (R213): the report registers keep what acceptance wrote. -/
def CompletedOk (s t : State) : Prop :=
  t.pending = none ∧ t.busy = false ∧ t.done = true ∧ t.err = .ok ∧
  t.errIndex = s.errIndex ∧ t.errSymbol = s.errSymbol

/-- A completion with an error and its report (R213, R216). -/
def CompletedWith (e : ErrCode) (index : Nat) (symbol : Byte) (t : State) : Prop :=
  t.pending = none ∧ t.busy = false ∧ t.done = true ∧ t.err = e ∧
  t.errIndex = BitVec.ofNat 32 index ∧ t.errSymbol = symbol

/-- All that the bit container commands other than BC_ITER_NEXT leave unchanged, but for the containers. -/
def SameButContainers (s t : State) : Prop :=
  SameControl s t ∧ SameIn s t ∧ SameOut s t ∧ SameResult s t ∧ SameFreq s t ∧ SameTree s t ∧ SameTable s t

/-- Nothing but the lifecycle and report registers changes (R215 for every command but DECODE). -/
def SameData (s t : State) : Prop := SameButContainers s t ∧ SameContainersBut [] s t

/-! ### Turns and reads -/

/-- The next turn is the engine's, and the schedule after it is `rest`: the schedule names the turn, or it says nothing
more (log entry 3). -/
def EngineNext (s : State) (rest : List Event) : Prop :=
  s.schedule = .engine :: rest ∨ s.schedule = [] ∧ rest = []

/-- BusRead of word address `a` gives the number `n` and changes nothing (R65). -/
def Reads (s : State) (a n : Nat) : Prop :=
  (s.busRead (BitVec.ofNat 21 a)).1.toNat = n ∧ (s.busRead (BitVec.ofNat 21 a)).2 = s

/-- BusRead of word address `a` gives a fresh draw of a byte, whatever `Config.freeByte` is (U1, U2 of
93_implementation_defined.md; log entry 2). -/
def ReadsFreshByte (s : State) (a : Nat) : Prop :=
  s.busRead (BitVec.ofNat 21 a) = ((Config.freeByte s.draws).setWidth 32, { s with draws := s.draws + 1 })

/-! ### Runs of several commands -/

/-- The state an answer goes on with; a stop goes nowhere. -/
def Answer.state (s : State) : Answer → State
  | .next t => t
  | .fault _ => s
  | .refused _ => s

/-- The commands `is` executed one after the other, each from the state the one before left. -/
def runAll : List Instr → State → State
  | [], s => s
  | i :: is, s => runAll is (Answer.state s (exec i s))

/-- Host writes one after the other. -/
def writeAll : List (Addr × Word) → State → State
  | [], s => s
  | (a, d) :: ws, s => writeAll ws (s.busWrite a d)

/-- A sum over all 256 symbols. -/
def symbolSum (g : Byte → Nat) : Nat := ((List.finRange 256).map fun i => g (BitVec.ofNat 8 i.val)).sum

end Sys2Proof.Machine
end

