-- ==== Sys2Proof/Certificates/Slice0/Obligations.lean ====
section
/-! DEFINITION. The statements for the provers, from the numbered rules of spec/. `exec i s` is one command executed
(R212); `step s` is one turn of one agent (R61). A statement that rests on a choice of the model says so and names the log
entry. -/

open Sys2Proof Sys2Proof.Machine

/-! ### Encoding -/

/-- R90, R91, R92, R96: no bit of an encoding is dropped. -/
def Obligations.DecodeAfterEncode : Prop := ∀ i : Instr, decode (encode i) = .ok i

/-- R90 to R94: every accepted word is the one word of its command. -/
def Obligations.EncodeAfterDecode : Prop := ∀ (w : Word) (i : Instr), decode w = .ok i → encode i = w

/-- R95 (derived in the spec from R92 and R93), clause by clause: the rows do not overlap; a word under a row decodes to
that row's command and still needs the index bounds; every word is legal and selects a row, or is not legal and
completes with ILLEGAL_COMMAND. -/
def Obligations.DecodingIsTotalAndUnambiguous : Prop :=
  ∀ (p : Params) (w : Word),
    (∀ r ∈ opcodeRows, ∀ r' ∈ opcodeRows, r.hits w = true → r'.hits w = true → r = r') ∧
    (∀ r ∈ opcodeRows, r.hits w = true →
      ∃ i, decode w = .ok i ∧ i.row = r ∧ legalWord p w = i.wellFormed p) ∧
    ((legalWord p w = true ∧ ∃ r ∈ opcodeRows, r.hits w = true) ∨
     (legalWord p w = false ∧ ∀ s : State, s.cfg = p →
       ∃ t, runWord w s = .next t ∧ CompletedWith .illegalCommand 0 0 t))

/-- R94: a reserved opcode completes with ILLEGAL_COMMAND and nothing else; NOP has one encoding. -/
def Obligations.ReservedOpcodesAreIllegal : Prop :=
  (∀ (s : State) (w : Word),
    let op := (fieldOp w).toNat
    (0x09 ≤ op ∧ op ≤ 0x0F ∨ 0x12 ≤ op ∧ op ≤ 0x1F ∨ 0x22 ≤ op ∧ op ≤ 0x2F ∨ 0x32 ≤ op) →
    ∃ t, runWord w s = .next t ∧ CompletedWith .illegalCommand 0 0 t ∧ SameData s t ∧ t.draws = s.draws) ∧
  ∀ w : Word, decode w = .ok .nop ↔ w = 0

/-- R93: an engine step on a word that is not `Legal` completes with ILLEGAL_COMMAND and changes no other state. That such
a word with OP 0x31 keeps OUT and OUT_LEN too is the model's reading of R93 against R215 (log entry 8), and the schedule is
the model's own (log entry 3). -/
def Obligations.IllegalWordChangesOnlyTheReport : Prop :=
  ∀ (s : State) (w : Word) (rest : List Event), EngineNext s rest → s.pending = some w → legalWord s.cfg w = false →
    ∃ t, step s = .next t ∧ CompletedWith .illegalCommand 0 0 t ∧ SameData { s with schedule := rest } t ∧
      t.draws = s.draws

/-- Words written out from R92's table and the examples of R96 and files 40 to 44. A sanity statement. -/
def Obligations.SampleWordsDecode : Prop :=
  decode 0x00000000 = .ok .nop ∧
  decode 0x00000101 = .ok (.bcClear 1) ∧
  decode 0x00010002 = .ok (.bcPush 0 true) ∧
  decode 0x00000203 = .ok (.bcFromBits 2) ∧
  decode 0x00002105 = .ok (.bcAppend 1 2) ∧
  decode 0x00000010 = .ok .treeBuild ∧
  decode 0x00000020 = .ok .tableDerive ∧
  decode 0x00040021 = .ok (.tableLookup 0 4) ∧
  decode 0x00000130 = .ok (.encode 1) ∧
  decode 0x00000031 = .ok (.decode 0)

/-! ### Steps -/

/-- R212, R77: when the engine's turn comes and PENDING holds a word that decodes to `i`, the step is `exec i`, whether
the schedule names the turn or says nothing more; and a word placed by `withFetchWord` is what the next step runs. The
schedule and `withFetchWord` are the model's own (log entries 3 and 7). -/
def Obligations.StepRunsThePendingCommand : Prop :=
  (∀ (s : State) (w : Word) (i : Instr), s.pending = some w → decode w = .ok i →
    (s.schedule = [] → step s = exec i s) ∧
    (∀ rest, s.schedule = .engine :: rest → step s = exec i { s with schedule := rest })) ∧
  ∀ (s : State) (i : Instr),
    step (s.withFetchWord 32 (encode i).toNat) = exec i { s with pending := some (encode i), busy := true }

/-- R61, R65, R97, R240: a scheduled host access or reset is the next step's whole effect; WAIT polls STATUS until BUSY
reads 0 (that the engine's turn then comes before the next poll is the model's choice, log entry 3). -/
def Obligations.HostTurnsComeInOrder : Prop :=
  ∀ (s : State) (rest : List Event), let s' := { s with schedule := rest }
    (∀ a, s.schedule = .read a :: rest → step s = .next (s'.hostRead a)) ∧
    (∀ a d, s.schedule = .write a d :: rest → step s = .next (s'.busWrite a d)) ∧
    (s.schedule = .reset :: rest → step s = .next s'.resetEvent) ∧
    (s.schedule = .wait :: rest → s.busy = false → step s = .next (s'.hostRead 0x000001)) ∧
    (s.schedule = .wait :: rest → s.busy = true →
      step s = .next { s'.hostRead 0x000001 with schedule := .engine :: .wait :: rest })

/-- R212, R213, R250: one engine step completes whatever command is pending. No behaviour is a fault or stuck
(93_implementation_defined.md). With no command pending the engine's turn changes nothing (the model's choice, log
entry 4; the schedule, log entry 3). -/
def Obligations.StepsNeverStopAndCompleteTheCommand : Prop :=
  (∀ s : State, ∃ t, step s = .next t) ∧
  (∀ (s : State) (w : Word) (rest : List Event), EngineNext s rest → s.pending = some w →
    ∃ t, step s = .next t ∧ t.schedule = rest ∧ t.pending = none ∧ t.busy = false ∧ t.done = true ∧
      (t.err = .ok → t.errIndex = s.errIndex ∧ t.errSymbol = s.errSymbol)) ∧
  ∀ (s : State) (rest : List Event), EngineNext s rest → s.pending = none → step s = .next { s with schedule := rest }

/-! ### The host bus -/

/-- R210: acceptance of any word; one that is not legal is accepted too, and then completes with ILLEGAL_COMMAND
(R212, R93) at the engine's turn. That the schedule says when that turn comes, an empty one at once, is the model's choice
(log entry 3). -/
def Obligations.AcceptanceTakesTheWord : Prop :=
  ∀ (s : State) (w : Word), s.busy = false →
    s.busWrite 0x000002 w =
      { s with cmd := w, pending := some w, busy := true, done := false, err := .ok, errIndex := 0, errSymbol := 0 } ∧
    (legalWord s.cfg w = false → ∀ rest, EngineNext s rest →
      ∃ t, step (s.busWrite 0x000002 w) = .next t ∧ CompletedWith .illegalCommand 0 0 t)

/-- R211: a CMD write while busy is dropped and sets OVERRUN, which stays until the host writes 1 to it or reset. -/
def Obligations.OverrunDropsTheWord : Prop :=
  (∀ (s : State) (w : Word), s.busy = true → s.busWrite 0x000002 w = { s with overrun := true }) ∧
  (∀ s t : State, s.overrun = true → step s = .next t →
    t.overrun = true ∨ (∃ rest, s.schedule = .reset :: rest) ∨
      ∃ a d rest, s.schedule = .write a d :: rest ∧ locate s.cfg a = .status ∧ d.getLsbD 2 = true)

/-- R66: every target's write effect while idle. -/
def Obligations.IdleWriteEffects : Prop :=
  ∀ (s : State) (a : Addr) (d : Word), s.busy = false →
    (locate s.cfg a = .ctrl → s.busWrite a d = { s with irqEn := d.getLsbD 0 }) ∧
    (locate s.cfg a = .status → s.busWrite a d =
      { s with done := if d.getLsbD 1 then false else s.done
               overrun := if d.getLsbD 2 then false else s.overrun }) ∧
    (locate s.cfg a = .cmd → s.busWrite a d = s.accept d) ∧
    (locate s.cfg a = .inLen → s.busWrite a d = { s with inLen := d }) ∧
    (locate s.cfg a = .decCount → s.busWrite a d = { s with decCount := d }) ∧
    (∀ sym, locate s.cfg a = .freq sym →
      (s.busWrite a d).freqAt sym = d.toNat % 2 ^ s.cfg.cntW ∧
      (∀ sym', sym' ≠ sym → (s.busWrite a d).freqAt sym' = s.freqAt sym') ∧
      { s.busWrite a d with freq := s.freq } = s) ∧
    (∀ i, locate s.cfg a = .inByte i →
      (s.busWrite a d).inMem.read i = some (d.setWidth 8) ∧
      (∀ j, j ≠ i → (s.busWrite a d).inMem.read j = s.inMem.read j) ∧
      { s.busWrite a d with inMem := s.inMem } = s) ∧
    (∀ t, locate s.cfg a = t → t ∉ [Target.ctrl, .status, .cmd, .inLen, .decCount] →
      (∀ sym, t ≠ .freq sym) → (∀ i, t ≠ .inByte i) → s.busWrite a d = s)

/-- R67: while busy, CTRL and STATUS writes act as while idle, a CMD write sets OVERRUN, and every other write is
ignored. -/
def Obligations.BusyWriteEffects : Prop :=
  ∀ (s : State) (a : Addr) (d : Word), s.busy = true →
    (locate s.cfg a = .ctrl → s.busWrite a d = { s with irqEn := d.getLsbD 0 }) ∧
    (locate s.cfg a = .status → s.busWrite a d =
      { s with done := if d.getLsbD 1 then false else s.done
               overrun := if d.getLsbD 2 then false else s.overrun }) ∧
    (locate s.cfg a = .cmd → s.busWrite a d = { s with overrun := true }) ∧
    (locate s.cfg a ∉ [Target.ctrl, .status, .cmd] → s.busWrite a d = s)

/-- R67, R77: "the pending command always executes on the operands present at its acceptance": whatever the host writes
while a command is pending, the command's outcome is the same, but for CTRL and OVERRUN. -/
def Obligations.PendingCommandIgnoresHostWrites : Prop :=
  ∀ (s t : State) (w : Word) (ws : List (Addr × Word)), s.busy = true → runWord w s = .next t →
    runWord w (writeAll ws s) =
      .next { t with irqEn := (writeAll ws s).irqEn, overrun := (writeAll ws s).overrun }

/-- R68: while busy, CTRL, STATUS, CMD and CAP_* read their values, and any other read is a fresh free value (so an
unmapped address too: log entry 5). The free value is whatever `Config.freeWord` is. -/
def Obligations.BusyReadsAreDefinedOrFree : Prop :=
  ∀ (s : State) (a : Addr), s.busy = true →
    ((locate s.cfg a).definedWhileBusy = true → s.busRead a = s.readTarget (locate s.cfg a)) ∧
    ((locate s.cfg a).definedWhileBusy = false →
      s.busRead a = (Config.freeWord s.draws, { s with draws := s.draws + 1 })) ∧
    ((locate s.cfg a).definedWhileBusy = true ↔
      locate s.cfg a ∈ [Target.ctrl, .status, .cmd, .capIn, .capOut, .capBc, .capMisc])

/-- R62: each row's address is its own, for any legal parameters, and each mapped address is its row's. -/
def Obligations.AddressMapHasNoOverlap : Prop :=
  ∀ p : Params, p.legal = true →
    (∀ t : Target, t.mapped p = true → t.address < 2 ^ 21 ∧ locate p (BitVec.ofNat 21 t.address) = t) ∧
    ∀ a : Addr, locate p a ≠ .unmapped → (locate p a).mapped p = true ∧ (locate p a).address = a.toNat

/-- R63, where R68 does not say otherwise: an unmapped address reads 0 while idle, and a write to it never does
anything. -/
def Obligations.UnmappedReadsZeroAndIgnoresWrites : Prop :=
  ∀ (s : State) (a : Addr), locate s.cfg a = .unmapped →
    (s.busy = false → s.busRead a = (0, s)) ∧ ∀ d, s.busWrite a d = s

/-- R65, R41, R42: a read changes no state but the draws that UNSPECIFIED values take, and a read that took none gives the
same value again. An idle read of IN[i] gives the byte the host wrote, one of OUT[i] below OUT_LEN the byte there; IN[i] not
yet written and OUT[i] at OUT_LEN and beyond are a fresh draw (U1, U2; whatever `Config.freeByte` is, log entry 2). -/
def Obligations.ReadsHaveNoSideEffect : Prop :=
  (∀ (s : State) (a : Addr),
    (s.busRead a).2 = { s with draws := (s.busRead a).2.draws } ∧
    ((s.busRead a).2.draws = s.draws ∨ (s.busRead a).2.draws = s.draws + 1) ∧
    ((s.busRead a).2.draws = s.draws → (s.busRead a).2.busRead a = s.busRead a)) ∧
  ∀ s : State, MachineInv s → s.busy = false →
    (∀ i, i < s.cfg.inCap →
      (∀ v, s.inMem.read i = some v → Reads s (0x010000 + i) v.toNat) ∧
      (s.inMem.read i = none → ReadsFreshByte s (0x010000 + i))) ∧
    ∀ i, i < s.cfg.outCap →
      (i < s.outLen.toNat → ∃ v, s.outMem.read i = some v ∧ Reads s (0x020000 + i) v.toNat) ∧
      (s.outLen.toNat ≤ i → ReadsFreshByte s (0x020000 + i))

/-- R21, R22, R28, R30, R64: the fields of CTRL, STATUS, RESULT and ERR_SYMBOL stand where the rules say, reserved bits
read 0, and STATUS.ERR is at most 7 (R214). R62, R65, R23, R25 to R31, R33, R34, R36: a read of CTRL, STATUS or CMD at any
time, and an idle read of any other register, gives that register at its address and changes nothing. -/
def Obligations.RegisterWordsHaveTheirFields : Prop :=
  ∀ s : State,
    (s.ctrlWord.getLsbD 0 = s.irqEn ∧ ∀ i, 1 ≤ i → s.ctrlWord.getLsbD i = false) ∧
    (s.statusWord.getLsbD 0 = s.busy ∧ s.statusWord.getLsbD 1 = s.done ∧ s.statusWord.getLsbD 2 = s.overrun ∧
      s.statusWord.getLsbD 3 = false ∧ s.statusWord.extractLsb' 4 4 = s.err.code ∧ s.err.code.toNat ≤ 7 ∧
      s.statusWord.getLsbD 8 = s.treeValid ∧ s.statusWord.getLsbD 9 = s.tableValid ∧
      ∀ i, 10 ≤ i → s.statusWord.getLsbD i = false) ∧
    (s.resultWord.getLsbD 0 = s.result.bit ∧ s.resultWord.getLsbD 1 = s.result.valid ∧
      ∀ i, 2 ≤ i → s.resultWord.getLsbD i = false) ∧
    (Reads s 0x000000 s.ctrlWord.toNat ∧ Reads s 0x000001 s.statusWord.toNat ∧ Reads s 0x000002 s.cmd.toNat) ∧
    (s.busy = false →
      Reads s 0x000003 s.inLen.toNat ∧ Reads s 0x000004 s.decCount.toNat ∧ Reads s 0x000005 s.outLen.toNat ∧
      Reads s 0x000006 s.resultWord.toNat ∧ Reads s 0x000007 s.errIndex.toNat ∧
      Reads s 0x000008 s.errSymbol.toNat) ∧
    (MachineInv s → s.busy = false →
      Reads s 0x000009 s.nodeCount ∧ s.nodeCount ≤ 511 ∧ Reads s 0x00000A s.root ∧ s.root = s.nodeCount - 1 ∧
      (∀ c, containerExists s.cfg c = true →
        Reads s (0x000010 + c.val) (s.bits c).length ∧ Reads s (0x000020 + c.val) (s.pos c)) ∧
      ∀ sym, Reads s (0x000100 + sym.toNat) (s.freqAt sym))

/-- R35, with R69's order: bit 7−k of word j of BCDATA[c] is bit 8j+k of the container, or 0 beyond its length; bits 31:8
are 0; and that word is what an idle read at its address (R62) gives. -/
def Obligations.PackedViewIsMostSignificantFirst : Prop :=
  ∀ (s : State) (c : CIdx) (j k : Nat), k < 8 →
    (s.readTarget (.bcData c j)).2 = s ∧
    (s.readTarget (.bcData c j)).1.getLsbD (7 - k) = (s.bits c).getD (8 * j + k) false ∧
    (∀ i, 8 ≤ i → (s.readTarget (.bcData c j)).1.getLsbD i = false) ∧
    (s.cfg.legal = true → s.busy = false → containerExists s.cfg c = true → j < s.cfg.bcCap / 8 →
      s.busRead (BitVec.ofNat 21 (0x100000 + 0x10000 * c.val + j)) = s.readTarget (.bcData c j))

/-- R37, R38: the CT_INFO, NODE_A and NODE_B views, field by field, in every state the machine can be in, and what an idle
read at their addresses (R62) gives. -/
def Obligations.TableAndNodeViewsHaveTheirFields : Prop :=
  ∀ s : State, MachineInv s →
    (∀ sym, (s.code sym = none → s.ctInfoWord sym = 0) ∧
      ∀ p, s.code sym = some p → p.length ≤ 255 ∧ (s.ctInfoWord sym).toNat = 2 ^ 31 + p.length) ∧
    (∀ i, (s.nodeCount ≤ i → s.node i = .empty ∧ (s.node i).wordA = 0 ∧ (s.node i).wordB = 0) ∧
      (∀ sym n, s.node i = .leaf sym n → (s.node i).wordA.toNat = sym.toNat ∧ (s.node i).wordB.toNat = n) ∧
      ∀ n c0 c1, s.node i = .internal n c0 c1 →
        (s.node i).wordA.toNat = 2 ^ 31 + 2 ^ 16 * c1 + c0 ∧ (s.node i).wordB.toNat = n) ∧
    (s.busy = false →
      (∀ sym, Reads s (0x000200 + sym.toNat) (s.ctInfoWord sym).toNat) ∧
      ∀ i, i < 512 → Reads s (0x000400 + i) (s.node i).wordA.toNat ∧ Reads s (0x000600 + i) (s.node i).wordB.toNat)

/-- R32: CAP_* read the parameters whether or not a command is pending, and no step changes them, reset included. -/
def Obligations.ParametersNeverChange : Prop :=
  (∀ s t : State, step s = .next t → t.cfg = s.cfg) ∧
  ∀ s : State, s.cfg.legal = true →
    (s.busRead 0x00000B).1.toNat = s.cfg.inCap ∧ (s.busRead 0x00000C).1.toNat = s.cfg.outCap ∧
    (s.busRead 0x00000D).1.toNat = s.cfg.bcCap ∧
    (s.busRead 0x00000E).1.toNat = s.cfg.nbc + 2 ^ 8 * s.cfg.cntW

/-- R25, R26, R36, R41: a word the idle host writes to IN_LEN, DEC_COUNT, FREQ[s] or IN[i] is what it then reads, cut to
the register's width. -/
def Obligations.IdleWriteThenReadBack : Prop :=
  ∀ (s : State) (a : Addr) (d : Word), s.busy = false → s.cfg.legal = true →
    (locate s.cfg a = .inLen ∨ locate s.cfg a = .decCount → ((s.busWrite a d).busRead a).1 = d) ∧
    (∀ sym, locate s.cfg a = .freq sym → ((s.busWrite a d).busRead a).1.toNat = d.toNat % 2 ^ s.cfg.cntW) ∧
    (∀ i, locate s.cfg a = .inByte i → ((s.busWrite a d).busRead a).1.toNat = d.toNat % 256)

/-- R221, R222: irq is IRQ_EN and DONE; acceptance and a 1 written to DONE lower it; setting IRQ_EN while DONE = 1 raises
it at once, and clearing IRQ_EN lowers it and keeps DONE; OVERRUN has no part in it. -/
def Obligations.InterruptFollowsDoneAndEnable : Prop :=
  ∀ s : State,
    (s.irq = true ↔ s.irqEn = true ∧ s.done = true) ∧
    (∀ w, s.busy = false → (s.busWrite 0x000002 w).irq = false) ∧
    (∀ d : Word, d.getLsbD 1 = true → (s.busWrite 0x000001 d).irq = false) ∧
    (∀ d : Word, d.getLsbD 0 = true → (s.busWrite 0x000000 d).irq = s.done) ∧
    (∀ d : Word, d.getLsbD 0 = false → (s.busWrite 0x000000 d).irq = false ∧ (s.busWrite 0x000000 d).done = s.done) ∧
    (∀ w, s.busy = true → (s.busWrite 0x000002 w).irq = s.irq) ∧
    (s.resetEvent.irqEn = false ∧ s.resetEvent.done = false)

/-- R25, R76: a command reads IN_LEN bytes; a byte the host has written has that value, and each byte it has not written
is a fresh draw of its own (whatever `Config.freeByte` is; log entry 2). -/
def Obligations.InputBytesAreWrittenOrFresh : Prop :=
  ∀ s : State, s.input.length = s.inCount ∧
    (∀ i, i < s.inCount →
      (∀ v, s.inMem.read i = some v → s.input[i]? = some v) ∧
      (s.inMem.read i = none → s.input[i]? = some (Config.freeByte
        (s.draws + (List.range i).countP fun j => (s.inMem.read j).isNone)))) ∧
    s.afterInput.draws = s.draws + (List.range s.inCount).countP fun j => (s.inMem.read j).isNone

/-! ### Control and bit container commands -/

/-- R200. -/
def Obligations.NopChangesNoData : Prop :=
  encode .nop = 0 ∧ ∀ s : State, ∃ t, exec .nop s = .next t ∧ CompletedOk s t ∧ SameData s t

/-- R110. -/
def Obligations.ClearEmptiesTheContainer : Prop :=
  ∀ (s : State) (c : CIdx), containerExists s.cfg c = true →
    (encode (.bcClear c)).toNat = 0x01 + 2 ^ 8 * c.val ∧
    ∃ t, exec (.bcClear c) s = .next t ∧ CompletedOk s t ∧ t.bits c = [] ∧ t.pos c = 0 ∧
      SameContainersBut [c] s t ∧ SameButContainers s t

/-- R111: one bit at the tail, or OVERFLOW exactly when the container holds BC_CAP bits. -/
def Obligations.PushAppendsOneBit : Prop :=
  ∀ (s : State) (c : CIdx) (bit : Bool), containerExists s.cfg c = true →
    (encode (.bcPush c bit)).toNat = 0x02 + 2 ^ 8 * c.val + 2 ^ 16 * bit.toNat ∧
    ((s.bits c).length ≠ s.cfg.bcCap →
      ∃ t, exec (.bcPush c bit) s = .next t ∧ CompletedOk s t ∧ t.bits c = s.bits c ++ [bit] ∧ t.pos c = s.pos c ∧
        SameContainersBut [c] s t ∧ SameButContainers s t) ∧
    ((s.bits c).length = s.cfg.bcCap →
      ∃ t, exec (.bcPush c bit) s = .next t ∧ CompletedWith .overflow 0 0 t ∧ SameData s t)

/-- R112: one bit for each input byte, 0 only for the byte 0x00. -/
def Obligations.FromBitsTakesOneBitPerByte : Prop :=
  ∀ (s : State) (c : CIdx), containerExists s.cfg c = true →
    (encode (.bcFromBits c)).toNat = 0x03 + 2 ^ 8 * c.val ∧
    (s.inCount ≤ s.cfg.inCap → s.inCount ≤ s.cfg.bcCap →
      ∃ t, exec (.bcFromBits c) s = .next t ∧ CompletedOk s t ∧ (t.bits c).length = s.inCount ∧
        (∀ (i : Nat) (v : Byte), s.input[i]? = some v → (t.bits c)[i]? = some (decide (v ≠ 0))) ∧ t.pos c = 0 ∧
        SameContainersBut [c] s t ∧ SameButContainers s t) ∧
    (s.cfg.inCap < s.inCount ∨ s.cfg.bcCap < s.inCount →
      ∃ t, exec (.bcFromBits c) s = .next t ∧ CompletedWith .overflow 0 0 t ∧ SameData s t)

/-- R113, with the corner case that BCDATA then reads the input bytes. -/
def Obligations.FromBytesUnpacksMostSignificantFirst : Prop :=
  ∀ (s : State) (c : CIdx), containerExists s.cfg c = true →
    (encode (.bcFromBytes c)).toNat = 0x04 + 2 ^ 8 * c.val ∧
    (s.inCount ≤ s.cfg.inCap → 8 * s.inCount ≤ s.cfg.bcCap →
      ∃ t, exec (.bcFromBytes c) s = .next t ∧ CompletedOk s t ∧ (t.bits c).length = 8 * s.inCount ∧
        (∀ (i : Nat) (v : Byte), s.input[i]? = some v →
          (∀ k, k < 8 → (t.bits c)[8 * i + k]? = some (v.getLsbD (7 - k))) ∧ packedByte (t.bits c) i = v) ∧
        t.pos c = 0 ∧ SameContainersBut [c] s t ∧ SameButContainers s t) ∧
    (s.cfg.inCap < s.inCount ∨ s.cfg.bcCap < 8 * s.inCount →
      ∃ t, exec (.bcFromBytes c) s = .next t ∧ CompletedWith .overflow 0 0 t ∧ SameData s t)

/-- R114: the source's bits go after the destination's, and the source is left empty with its iterator at 0. -/
def Obligations.AppendMovesTheSource : Prop :=
  ∀ (s : State) (c src : CIdx), containerExists s.cfg c = true → containerExists s.cfg src = true → c ≠ src →
    (encode (.bcAppend c src)).toNat = 0x05 + 2 ^ 8 * c.val + 2 ^ 12 * src.val ∧
    ((s.bits c).length + (s.bits src).length ≤ s.cfg.bcCap →
      ∃ t, exec (.bcAppend c src) s = .next t ∧ CompletedOk s t ∧ t.bits c = s.bits c ++ s.bits src ∧
        t.pos c = s.pos c ∧ t.bits src = [] ∧ t.pos src = 0 ∧
        SameContainersBut [c, src] s t ∧ SameButContainers s t) ∧
    (s.cfg.bcCap < (s.bits c).length + (s.bits src).length →
      ∃ t, exec (.bcAppend c src) s = .next t ∧ CompletedWith .overflow 0 0 t ∧ SameData s t)

/-- R115. -/
def Obligations.IterResetRestartsAtZero : Prop :=
  ∀ (s : State) (c : CIdx), containerExists s.cfg c = true →
    (encode (.bcIterReset c)).toNat = 0x06 + 2 ^ 8 * c.val ∧
    ∃ t, exec (.bcIterReset c) s = .next t ∧ CompletedOk s t ∧ t.pos c = 0 ∧ t.bits c = s.bits c ∧
      SameContainersBut [c] s t ∧ SameButContainers s t

/-- R116: the bit at the position, or VALID = 0 at the end, which is no error. -/
def Obligations.IterNextYieldsTheNextBit : Prop :=
  ∀ (s : State) (c : CIdx), containerExists s.cfg c = true →
    (encode (.bcIterNext c)).toNat = 0x07 + 2 ^ 8 * c.val ∧
    ∃ t, exec (.bcIterNext c) s = .next t ∧ CompletedOk s t ∧ t.bits c = s.bits c ∧
      (∀ h : s.pos c < (s.bits c).length,
        t.result = { valid := true, bit := (s.bits c)[s.pos c] } ∧ t.pos c = s.pos c + 1) ∧
      ((s.bits c).length ≤ s.pos c → t.result = { valid := false, bit := false } ∧ t.pos c = s.pos c) ∧
      SameContainersBut [c] s t ∧ SameControl s t ∧ SameIn s t ∧ SameOut s t ∧ SameFreq s t ∧ SameTree s t ∧
      SameTable s t

/-- R117: zero bits up to the next multiple of 8, at most 7, within BC_CAP, and BCDATA reads the same. -/
def Obligations.AlignPadsToAMultipleOfEight : Prop :=
  ∀ (s : State) (c : CIdx), containerExists s.cfg c = true →
    (encode (.bcAlign c)).toNat = 0x08 + 2 ^ 8 * c.val ∧
    ∃ t n, exec (.bcAlign c) s = .next t ∧ CompletedOk s t ∧ t.bits c = s.bits c ++ List.replicate n false ∧
      n ≤ 7 ∧ (t.bits c).length % 8 = 0 ∧ t.pos c = s.pos c ∧ (∀ j, packedByte (t.bits c) j = packedByte (s.bits c) j) ∧
      (s.cfg.legal = true → (s.bits c).length ≤ s.cfg.bcCap → (t.bits c).length ≤ s.cfg.bcCap) ∧
      SameContainersBut [c] s t ∧ SameButContainers s t

/-- R118 (derived in the spec from R110 to R112): clearing and pushing the bits one at a time gives the container that
BC_FROM_BITS gives. -/
def Obligations.PushingEqualsConstructing : Prop :=
  ∀ (s : State) (c : CIdx) (b : Bits), containerExists s.cfg c = true →
    b ≠ [] → b.length ≤ s.cfg.inCap → b.length ≤ s.cfg.bcCap → s.inCount = b.length →
    s.input = b.map (fun x => if x then 1 else 0) →
    ((runAll (.bcClear c :: b.map (.bcPush c ·)) s).container c = (runAll [.bcFromBits c] s).container c ∧
     (runAll [.bcFromBits c] s).container c = { bits := b, pos := 0 })

/-- R119 (derived in the spec from R111 and R114): BC_APPEND leaves the destination as pushing the source's bits one at
a time does. -/
def Obligations.AppendingEqualsPushing : Prop :=
  ∀ (s : State) (c src : CIdx), containerExists s.cfg c = true → containerExists s.cfg src = true → c ≠ src →
    (s.bits c).length + (s.bits src).length ≤ s.cfg.bcCap →
    (runAll [.bcAppend c src] s).container c = (runAll ((s.bits src).map (.bcPush c ·)) s).container c

/-! ### Tree construction -/

/-- R140: the built arena is the greedy one, no other arena is, and there is none exactly when every count is 0. -/
def Obligations.BuildTreeIsTheGreedyMerge : Prop :=
  ∀ f : Counts,
    (∀ nodes, buildTree f = some nodes ↔ ∃ k, GreedyArena f nodes k) ∧
    (buildTree f = none ↔ ∀ sym : Byte, f[sym.toNat]'sym.isLt = 0)

/-- R141: TREE_BUILD counts the input into FREQ and builds from it, or raises OVERFLOW or EMPTY_INPUT. -/
def Obligations.TreeBuildCountsAndBuilds : Prop :=
  ∀ s : State, encode .treeBuild = 0x00000010 ∧
    (0 < s.inCount → s.inCount ≤ s.cfg.inCap →
      ∃ t, exec .treeBuild s = .next t ∧ CompletedOk s t ∧ (∀ sym, t.freqAt sym = s.input.count sym) ∧
        (∃ k, GreedyArena t.freq t.nodes k) ∧ t.nodeCount = t.nodes.length ∧ t.root = t.nodeCount - 1 ∧
        t.treeValid = true ∧ t.tableValid = false ∧ (∀ sym, t.code sym = none) ∧
        SameControl s t ∧ SameIn s t ∧ SameOut s t ∧ SameResult s t ∧ SameContainersBut [] s t) ∧
    (s.cfg.inCap < s.inCount →
      ∃ t, exec .treeBuild s = .next t ∧ CompletedWith .overflow 0 0 t ∧ SameData s t) ∧
    (s.inCount = 0 →
      ∃ t, exec .treeBuild s = .next t ∧ CompletedWith .emptyInput 0 0 t ∧ SameData s t)

/-- R142: TREE_BUILD_FREQ builds from FREQ and does not write it, or raises EMPTY_INPUT. -/
def Obligations.TreeBuildFreqBuildsFromTheCounters : Prop :=
  ∀ s : State, encode .treeBuildFreq = 0x00000011 ∧
    ((∃ sym, 0 < s.freqAt sym) →
      ∃ t, exec .treeBuildFreq s = .next t ∧ CompletedOk s t ∧ SameFreq s t ∧
        (∃ k, GreedyArena s.freq t.nodes k) ∧ t.nodeCount = t.nodes.length ∧ t.root = t.nodeCount - 1 ∧
        t.treeValid = true ∧ t.tableValid = false ∧ (∀ sym, t.code sym = none) ∧
        SameControl s t ∧ SameIn s t ∧ SameOut s t ∧ SameResult s t ∧ SameContainersBut [] s t) ∧
    ((∀ sym, s.freqAt sym = 0) →
      ∃ t, exec .treeBuildFreq s = .next t ∧ CompletedWith .emptyInput 0 0 t ∧ SameData s t)

/-- R143 (derived in the spec from R140, R141): the tree is a function of the counts, TREE_BUILD's of the multiset of
the input, equal trees derive equal tables, and TREE_BUILD_FREQ after TREE_BUILD rebuilds the same arena. -/
def Obligations.BuildingIsDeterministic : Prop :=
  (∀ s s' t t' : State, s.input.Perm s'.input → exec .treeBuild s = .next t → exec .treeBuild s' = .next t' →
    t.err = .ok → t'.err = .ok → SameTree t t' ∧ SameFreq t t') ∧
  (∀ s s' t t' : State, SameFreq s s' → exec .treeBuildFreq s = .next t → exec .treeBuildFreq s' = .next t' →
    t.err = .ok → t'.err = .ok → SameTree t t') ∧
  (∀ s s' t t' : State, SameTree s s' → exec .tableDerive s = .next t → exec .tableDerive s' = .next t' →
    t.err = .ok → t'.err = .ok → SameTable t t') ∧
  (∀ s t u : State, exec .treeBuild s = .next t → t.err = .ok → exec .treeBuildFreq t = .next u →
    u.err = .ok ∧ SameTree t u)

/-- R144 (derived in the spec from R140, R9): leaf counts are positive CNT_W-bit numbers, internal counts exact sums,
every count at most the root's and below 2^(CNT_W+8), and the root's count is the sum of FREQ, which after TREE_BUILD is
IN_LEN. -/
def Obligations.CountsAreExactSums : Prop :=
  (∀ s : State, MachineInv s → ∀ i,
    (s.node i).count ≤ (s.node s.root).count ∧ (s.node i).count < 2 ^ (s.cfg.cntW + 8) ∧
    (∀ sym n, s.node i = .leaf sym n → 0 < n ∧ n < 2 ^ s.cfg.cntW) ∧
    (∀ n c0 c1, s.node i = .internal n c0 c1 → n = (s.node c0).count + (s.node c1).count)) ∧
  (∀ s t : State, exec .treeBuild s = .next t → t.err = .ok →
    (t.node t.root).count = symbolSum t.freqAt ∧ (t.node t.root).count = s.inCount) ∧
  (∀ s t : State, exec .treeBuildFreq s = .next t → t.err = .ok → (t.node t.root).count = symbolSum t.freqAt)

/-- R145 (derived in the spec from R140), its four facts in order, after a successful build by either command. -/
def Obligations.BuiltTreesHaveTheShapeFacts : Prop :=
  ∀ s t : State, (exec .treeBuild s = .next t ∨ exec .treeBuildFreq s = .next t) → t.err = .ok →
    ∃ k, t.nodeCount = 2 * k - 1 ∧
      (∀ i n a b, t.node i = .internal n a b →
        (t.node a).count < (t.node b).count ∨ (t.node a).count = (t.node b).count ∧ a < b) ∧
      (∀ i n a b, t.node i = .internal n a b → a < i ∧ b < i) ∧
      (∀ i j, k ≤ i → i ≤ j → j < t.nodeCount → (t.node i).count ≤ (t.node j).count) ∧
      (2 ≤ k → ∀ i sym, IsLeafOf t.nodes i sym →
        (∃ p, PathTo t.nodes t.root p i) ∧ ∀ p, PathTo t.nodes t.root p i → 1 ≤ p.length ∧ p.length ≤ k - 1)

/-- R39 (derived in the spec from R140): the tree invariant, and the empty arena without a tree. -/
def Obligations.ArenaIsATreeWhileValid : Prop :=
  ∀ s : State, MachineInv s →
    (s.treeValid = true → ∃ k, TreeShape s.cfg.cntW s.nodes s.nodeCount s.root k) ∧
    (s.treeValid = false → s.nodeCount = 0 ∧ ∀ i, s.node i = .empty)

/-! ### Code table -/

/-- R160, R161: the derived table holds for each symbol the path to its leaf, and nothing else; NO_TREE without a tree. -/
def Obligations.DeriveRecordsEveryPath : Prop :=
  ∀ s : State, MachineInv s → encode .tableDerive = 0x00000020 ∧
    (s.treeValid = true →
      ∃ t, exec .tableDerive s = .next t ∧ CompletedOk s t ∧ t.tableValid = true ∧
        (∀ sym p, t.code sym = some p ↔ ∃ i, PathTo s.nodes s.root p i ∧ IsLeafOf s.nodes i sym) ∧
        SameControl s t ∧ SameIn s t ∧ SameOut s t ∧ SameResult s t ∧ SameFreq s t ∧ SameTree s t ∧
        SameContainersBut [] s t) ∧
    (s.treeValid = false →
      ∃ t, exec .tableDerive s = .next t ∧ CompletedWith .noTree 0 0 t ∧ SameData s t)

/-- R162: a symbol's code goes into the container, or NO_TABLE or SYMBOL_NOT_FOUND with the symbol. -/
def Obligations.LookupCopiesTheCode : Prop :=
  ∀ (s : State) (c : CIdx) (sym : Byte), containerExists s.cfg c = true →
    (encode (.tableLookup c sym)).toNat = 0x21 + 2 ^ 8 * c.val + 2 ^ 16 * sym.toNat ∧
    (∀ p, s.tableValid = true → s.code sym = some p →
      ∃ t, exec (.tableLookup c sym) s = .next t ∧ CompletedOk s t ∧ t.bits c = p ∧ t.pos c = 0 ∧
        SameContainersBut [c] s t ∧ SameButContainers s t) ∧
    (s.tableValid = true → s.code sym = none →
      ∃ t, exec (.tableLookup c sym) s = .next t ∧ CompletedWith .symbolNotFound 0 sym t ∧ SameData s t) ∧
    (s.tableValid = false →
      ∃ t, exec (.tableLookup c sym) s = .next t ∧ CompletedWith .noTable 0 0 t ∧ SameData s t)

/-- R40, R163 (derived in the spec from R160, R39): while TABLE_VALID = 1 the table is the tree's paths, and no code is
a beginning of another symbol's. -/
def Obligations.CodesArePathsAndPrefixFree : Prop :=
  ∀ s : State, MachineInv s → s.tableValid = true →
    (∀ sym, s.ctValid sym = true ↔ ∃ i, IsLeafOf s.nodes i sym) ∧
    (∀ sym p, s.code sym = some p ↔ ∃ i, PathTo s.nodes s.root p i ∧ IsLeafOf s.nodes i sym) ∧
    ∀ s1 s2 p1 p2, s1 ≠ s2 → s.code s1 = some p1 → s.code s2 = some p2 → ¬ p1 <+: p2

/-- R164 (derived in the spec from R160, R39) for two leaves or more: the sum of 2^(−CT_LEN) is 1 (here times 2^255),
and every bit sequence is codes one after the other and then a proper beginning of a code. -/
def Obligations.CodeIsComplete : Prop :=
  ∀ s : State, MachineInv s → s.tableValid = true → s.nodeCount ≠ 1 →
    symbolSum (fun sym => if s.ctValid sym then 2 ^ (255 - s.ctLen sym) else 0) = 2 ^ 255 ∧
    ∀ b : Bits, ∃ (syms : List Byte) (r : Bits), b = syms.flatMap s.ctCode ++ r ∧ (∀ v ∈ syms, s.ctValid v = true) ∧
      ∃ v, s.ctValid v = true ∧ r <+: s.ctCode v ∧ r ≠ s.ctCode v

/-- R165 (derived in the spec from R160), read off the arena: a leaf of greater count has no longer a code. -/
def Obligations.FrequentSymbolsHaveShortCodes : Prop :=
  ∀ s : State, MachineInv s → s.tableValid = true → ∀ i1 i2 s1 s2 n1 n2,
    s.node i1 = .leaf s1 n1 → s.node i2 = .leaf s2 n2 → n2 < n1 → s.ctLen s1 ≤ s.ctLen s2

/-! ### Encode and decode -/

/-- R180: the codes of the input bytes in order; the first failing byte decides the error, a missing code before an
overflow; nothing is committed on an error. -/
def Obligations.EncodeConcatenatesTheCodes : Prop :=
  ∀ (s : State) (c : CIdx), containerExists s.cfg c = true →
    (encode (.encode c)).toNat = 0x30 + 2 ^ 8 * c.val ∧
    (s.tableValid = true → s.inCount ≤ s.cfg.inCap → (∀ v ∈ s.input, s.ctValid v = true) →
      (s.input.map s.ctLen).sum ≤ s.cfg.bcCap →
      ∃ t, exec (.encode c) s = .next t ∧ CompletedOk s t ∧ t.bits c = s.input.flatMap s.ctCode ∧ t.pos c = 0 ∧
        SameContainersBut [c] s t ∧ SameButContainers s t) ∧
    (s.tableValid = false →
      ∃ t, exec (.encode c) s = .next t ∧ CompletedWith .noTable 0 0 t ∧ SameData s t) ∧
    (s.tableValid = true → s.cfg.inCap < s.inCount →
      ∃ t, exec (.encode c) s = .next t ∧ CompletedWith .overflow 0 0 t ∧ SameData s t) ∧
    (s.tableValid = true → s.inCount ≤ s.cfg.inCap → ∀ (i : Nat) (v : Byte), s.input[i]? = some v →
      (∀ u ∈ s.input.take i, s.ctValid u = true) → ((s.input.take i).map s.ctLen).sum ≤ s.cfg.bcCap →
      (s.ctValid v = false →
        ∃ t, exec (.encode c) s = .next t ∧ CompletedWith .symbolNotFound i v t ∧ SameData s t) ∧
      (s.ctValid v = true → s.cfg.bcCap < ((s.input.take i).map s.ctLen).sum + s.ctLen v →
        ∃ t, exec (.encode c) s = .next t ∧ CompletedWith .overflow i 0 t ∧ SameData s t))

/-- What a failing DECODE leaves: its report, OUT_LEN = 0, every OUT byte UNSPECIFIED, all else as before (R215). -/
def DecodeFails (s t : State) (e : ErrCode) (index : Nat) : Prop :=
  CompletedWith e index 0 t ∧ t.outLen = 0 ∧ (∀ i, t.outMem.read i = none) ∧
  SameControl s t ∧ SameIn s t ∧ SameResult s t ∧ SameFreq s t ∧ SameTree s t ∧ SameTable s t ∧
  SameContainersBut [] s t

/-- What a successful DECODE leaves: the bytes in OUT, OUT_LEN their number, all else as before, the container and its
position among it (R181). -/
def DecodeGives (s t : State) (bytes : List Byte) : Prop :=
  CompletedOk s t ∧ t.outLen.toNat = bytes.length ∧ (∀ i, t.outMem.read i = bytes[i]?) ∧
  SameControl s t ∧ SameIn s t ∧ SameResult s t ∧ SameFreq s t ∧ SameTree s t ∧ SameTable s t ∧
  SameContainersBut [] s t

/-- `segs` are root-to-leaf paths with the symbols of their leaves. -/
def LeafPaths (s : State) (segs : List (Bits × Byte)) : Prop :=
  ∀ g ∈ segs, ∃ i, PathTo s.nodes s.root g.1 i ∧ IsLeafOf s.nodes i g.2

/-- R181: NO_TREE; the single leaf by DEC_COUNT; otherwise the walk: bits that are root-to-leaf paths one after the other
give their symbols, a rest that ends off the root is INVALID_DATA at the number of bits, and the path that completes
symbol OUT_CAP + 1 is OVERFLOW at its last bit, whatever follows. -/
def Obligations.DecodeWalksTheTree : Prop :=
  ∀ (s : State) (c : CIdx), MachineInv s → containerExists s.cfg c = true →
    (encode (.decode c)).toNat = 0x31 + 2 ^ 8 * c.val ∧
    (s.treeValid = false → ∃ t, exec (.decode c) s = .next t ∧ DecodeFails s t .noTree 0) ∧
    (∀ sym n, s.treeValid = true → s.nodeCount = 1 → s.node s.root = .leaf sym n →
      (s.bits c ≠ [] → ∃ t, exec (.decode c) s = .next t ∧ DecodeFails s t .invalidData 0) ∧
      (s.bits c = [] → s.cfg.outCap < s.decCount.toNat →
        ∃ t, exec (.decode c) s = .next t ∧ DecodeFails s t .overflow 0) ∧
      (s.bits c = [] → s.decCount.toNat ≤ s.cfg.outCap →
        ∃ t, exec (.decode c) s = .next t ∧ DecodeGives s t (List.replicate s.decCount.toNat sym))) ∧
    (∀ segs r, s.treeValid = true → s.nodeCount ≠ 1 → LeafPaths s segs → s.bits c = segs.flatMap (·.1) ++ r →
      (r = [] → segs.length ≤ s.cfg.outCap →
        ∃ t, exec (.decode c) s = .next t ∧ DecodeGives s t (segs.map (·.2))) ∧
      (∀ i, r ≠ [] → segs.length ≤ s.cfg.outCap → PathTo s.nodes s.root r i → (∀ sym, ¬ IsLeafOf s.nodes i sym) →
        ∃ t, exec (.decode c) s = .next t ∧ DecodeFails s t .invalidData (s.bits c).length) ∧
      (segs.length = s.cfg.outCap + 1 →
        ∃ t, exec (.decode c) s = .next t ∧ DecodeFails s t .overflow ((segs.flatMap (·.1)).length - 1)))

/-- R182 (derived in the spec from R141, R161, R180, R181, R163): TREE_BUILD, TABLE_DERIVE, ENCODE c and DECODE c give
the input back. -/
def Obligations.RoundTrip : Prop :=
  ∀ (s s1 s2 s3 s4 : State) (c : CIdx), MachineInv s → containerExists s.cfg c = true →
    0 < s.inCount → s.inCount ≤ s.cfg.inCap → s.inCount ≤ s.cfg.outCap →
    (∀ i, i < s.inCount → (s.inMem.read i).isSome = true) →
    exec .treeBuild s = .next s1 → exec .tableDerive s1 = .next s2 → exec (.encode c) s2 = .next s3 →
    s3.err = .ok → (s1.nodeCount = 1 → s.decCount.toNat = s.inCount) → exec (.decode c) s3 = .next s4 →
    s4.err = .ok ∧ s4.outLen.toNat = s.inCount ∧ ∀ i, i < s.inCount → s4.outMem.read i = s.inMem.read i

/-- R183 (derived in the spec from R181, R163): with two leaves or more, DECODE of an encoding without its last bit
fails with INVALID_DATA at L − 1 when the last code has two bits or more, and gives all but the last symbol when it has
one. -/
def Obligations.TruncatedEncodingFails : Prop :=
  ∀ (s : State) (c : CIdx) (syms : List Byte) (v : Byte), MachineInv s → containerExists s.cfg c = true →
    s.tableValid = true → s.nodeCount ≠ 1 → (∀ u ∈ syms ++ [v], s.ctValid u = true) →
    (syms ++ [v]).length ≤ s.cfg.outCap → s.bits c = ((syms ++ [v]).flatMap s.ctCode).dropLast →
    (2 ≤ s.ctLen v → ∃ t, exec (.decode c) s = .next t ∧
      DecodeFails s t .invalidData (((syms ++ [v]).flatMap s.ctCode).length - 1)) ∧
    (s.ctLen v = 1 → ∃ t, exec (.decode c) s = .next t ∧ DecodeGives s t syms)

/-- R184 (derived in the spec from R180, R160): ENCODE's output length is the sum of the code lengths; for TREE_BUILD's
own input that is the sum over the symbols of count times length, and the sum of the counts of all internal nodes. -/
def Obligations.EncodedLengthIsTheWeightedSum : Prop :=
  (∀ (s t : State) (c : CIdx), containerExists s.cfg c = true → exec (.encode c) s = .next t → t.err = .ok →
    (t.bits c).length = (s.input.map s.ctLen).sum) ∧
  ∀ (s s1 s2 s3 : State) (c : CIdx), containerExists s.cfg c = true →
    (∀ i, i < s.inCount → (s.inMem.read i).isSome = true) →
    exec .treeBuild s = .next s1 → s1.err = .ok → exec .tableDerive s1 = .next s2 →
    exec (.encode c) s2 = .next s3 → s3.err = .ok →
    (s3.bits c).length = symbolSum (fun sym => s1.freqAt sym * s2.ctLen sym) ∧
    (s3.bits c).length = (s1.nodes.map fun n => match n with | .internal w _ _ => w | _ => 0).sum

/-! ### Errors, frames, reset -/

/-- The errors R214 lets a legal command raise. -/
def raisedBy : Instr → List ErrCode
  | .bcPush _ _ => [.overflow]
  | .bcFromBits _ => [.overflow]
  | .bcFromBytes _ => [.overflow]
  | .bcAppend _ _ => [.overflow]
  | .treeBuild => [.emptyInput, .overflow]
  | .treeBuildFreq => [.emptyInput]
  | .tableDerive => [.noTree]
  | .tableLookup _ _ => [.symbolNotFound, .noTable]
  | .encode _ => [.symbolNotFound, .noTable, .overflow]
  | .decode _ => [.invalidData, .noTree, .overflow]
  | _ => []

/-- R214: the codes, and which command raises which; ILLEGAL_COMMAND exactly when the operands are not legal. -/
def Obligations.ErrorsComeFromTheirCommands : Prop :=
  (ErrCode.code .ok = 0 ∧ ErrCode.code .emptyInput = 1 ∧ ErrCode.code .symbolNotFound = 2 ∧
    ErrCode.code .invalidData = 3 ∧ ErrCode.code .noTree = 4 ∧ ErrCode.code .noTable = 5 ∧
    ErrCode.code .overflow = 6 ∧ ErrCode.code .illegalCommand = 7) ∧
  ∀ (i : Instr) (s t : State), exec i s = .next t →
    (t.err = .illegalCommand ↔ i.wellFormed s.cfg = false) ∧
    (i.wellFormed s.cfg = true → t.err = .ok ∨ t.err ∈ raisedBy i)

/-- R215: a failing command changes STATUS and the report only; a legal DECODE also drops OUT (that an illegal DECODE word
keeps OUT is the model's reading of R93 against R215, log entry 8). -/
def Obligations.FailingCommandsChangeNothingElse : Prop :=
  ∀ (i : Instr) (s t : State), exec i s = .next t → t.err ≠ .ok →
    t.pending = none ∧ t.busy = false ∧ t.done = true ∧
    SameControl s t ∧ SameIn s t ∧ SameResult s t ∧ SameFreq s t ∧ SameTree s t ∧ SameTable s t ∧
    SameContainersBut [] s t ∧
    ((∃ c, i = .decode c ∧ containerExists s.cfg c = true) → t.outLen = 0 ∧ ∀ j, t.outMem.read j = none) ∧
    ((∀ c, i = .decode c → containerExists s.cfg c = false) → SameOut s t)

/-- The containers a command may write (R110 to R117, R162, R180). -/
def writtenContainers : Instr → List CIdx
  | .bcClear c => [c]
  | .bcPush c _ => [c]
  | .bcFromBits c => [c]
  | .bcFromBytes c => [c]
  | .bcAppend c src => [c, src]
  | .bcIterReset c => [c]
  | .bcIterNext c => [c]
  | .bcAlign c => [c]
  | .tableLookup c _ => [c]
  | .encode c => [c]
  | _ => []

/-- Which command writes what, over all commands and both outcomes: no command writes CTRL, OVERRUN, CMD, IN_LEN,
DEC_COUNT or IN (R25, R26, R41); only DECODE writes OUT and OUT_LEN (R27, R42); only BC_ITER_NEXT writes RESULT (R28);
only a build writes the arena, NODE_COUNT and ROOT (R31); only TREE_BUILD writes FREQ (R36); only a build or TABLE_DERIVE
writes the table (R37); and only its own containers change (R33). -/
def Obligations.EachCommandWritesOnlyItsOwnState : Prop :=
  ∀ (i : Instr) (s t : State), exec i s = .next t →
    SameControl s t ∧ SameIn s t ∧
    ((∀ c, i ≠ .decode c) → SameOut s t) ∧
    ((∀ c, i ≠ .bcIterNext c) → SameResult s t) ∧
    (i ≠ .treeBuild → i ≠ .treeBuildFreq → SameTree s t) ∧
    (i ≠ .treeBuild → SameFreq s t) ∧
    (i ≠ .treeBuild → i ≠ .treeBuildFreq → i ≠ .tableDerive → SameTable s t) ∧
    SameContainersBut (writtenContainers i) s t

/-- R43: what sets and clears TREE_VALID and TABLE_VALID, over every step. -/
def Obligations.ValidityFlagsFollowBuildsAndDerives : Prop :=
  (∀ (i : Instr) (s t : State), exec i s = .next t →
    let built := (i = .treeBuild ∨ i = .treeBuildFreq) ∧ t.err = .ok
    (built → t.treeValid = true ∧ t.tableValid = false) ∧
    (i = .tableDerive → t.err = .ok → t.treeValid = s.treeValid ∧ t.tableValid = true) ∧
    (¬ built → ¬ (i = .tableDerive ∧ t.err = .ok) → t.treeValid = s.treeValid ∧ t.tableValid = s.tableValid)) ∧
  (∀ (s : State) (a : Addr) (d : Word),
    (s.busWrite a d).treeValid = s.treeValid ∧ (s.busWrite a d).tableValid = s.tableValid ∧
    (s.busRead a).2.treeValid = s.treeValid ∧ (s.busRead a).2.tableValid = s.tableValid) ∧
  (∀ s t : State, step s = .next t → s.treeValid = true → t.treeValid = true ∨ ∃ rest, s.schedule = .reset :: rest) ∧
  (∀ s : State, s.resetEvent.treeValid = false ∧ s.resetEvent.tableValid = false) ∧
  (∀ s : State, MachineInv s → s.tableValid = true → s.codes = deriveCodes s.nodes s.root)

/-- R240, R241: reset from any state puts every piece of state at the value the rules of 10_state.md give, discards a
pending command, leaves every byte of IN and OUT UNSPECIFIED and irq low, and the block then accepts a command at once. -/
def Obligations.ResetPutsEveryStateAtItsValue : Prop :=
  ∀ (s : State) (rest : List Event), s.schedule = .reset :: rest →
    ∃ t, step s = .next t ∧ t.cfg = s.cfg ∧
      t.ctrlWord = 0 ∧ t.statusWord = 0 ∧ t.cmd = 0 ∧ t.pending = none ∧ t.inLen = 0 ∧ t.decCount = 0 ∧
      t.outLen = 0 ∧ t.resultWord = 0 ∧ t.errIndex = 0 ∧ t.errSymbol = 0 ∧ t.nodeCount = 0 ∧ t.root = 0 ∧
      (∀ c, t.bits c = [] ∧ t.pos c = 0) ∧ (∀ sym, t.freqAt sym = 0) ∧ (∀ sym, t.code sym = none) ∧
      (∀ i, t.node i = .empty) ∧ (∀ i, t.inMem.read i = none ∧ t.outMem.read i = none) ∧ t.irq = false ∧
      ∀ w, (t.busWrite 0x000002 w).pending = some w

/-! ### The invariant -/

/-- `MachineInv` holds after reset in every legal configuration, the reference one among them. -/
def Obligations.InvariantHoldsAtReset : Prop :=
  MachineInv State.reset ∧ ∀ p : Params, p.legal = true → MachineInv (State.resetWith p)

/-- `MachineInv` is kept by every step, from every state that meets it: the invariants of R24, R33, R34, R39, R43 and
the value ranges of R27, R28, R36, R41 and R42. -/
def Obligations.StepKeepsTheInvariant : Prop := ∀ s t : State, MachineInv s → step s = .next t → MachineInv t
end

