-- ==== Sys2Proof/Laws/State.lean ====
section
/-! SUPPORT. One lemma per field per update of State, true by rfl, so that no later proof unfolds a record update; and
each draw's value and state. -/

namespace Sys2Proof.Machine

/-! ### setContainer -/

section
variable (s : State) (c : CIdx) (k : Container)
@[simp] theorem State.setContainer_cfg : (s.setContainer c k).cfg = s.cfg := rfl
@[simp] theorem State.setContainer_irqEn : (s.setContainer c k).irqEn = s.irqEn := rfl
@[simp] theorem State.setContainer_busy : (s.setContainer c k).busy = s.busy := rfl
@[simp] theorem State.setContainer_done : (s.setContainer c k).done = s.done := rfl
@[simp] theorem State.setContainer_overrun : (s.setContainer c k).overrun = s.overrun := rfl
@[simp] theorem State.setContainer_err : (s.setContainer c k).err = s.err := rfl
@[simp] theorem State.setContainer_treeValid : (s.setContainer c k).treeValid = s.treeValid := rfl
@[simp] theorem State.setContainer_tableValid : (s.setContainer c k).tableValid = s.tableValid := rfl
@[simp] theorem State.setContainer_cmd : (s.setContainer c k).cmd = s.cmd := rfl
@[simp] theorem State.setContainer_pending : (s.setContainer c k).pending = s.pending := rfl
@[simp] theorem State.setContainer_inLen : (s.setContainer c k).inLen = s.inLen := rfl
@[simp] theorem State.setContainer_decCount : (s.setContainer c k).decCount = s.decCount := rfl
@[simp] theorem State.setContainer_outLen : (s.setContainer c k).outLen = s.outLen := rfl
@[simp] theorem State.setContainer_result : (s.setContainer c k).result = s.result := rfl
@[simp] theorem State.setContainer_errIndex : (s.setContainer c k).errIndex = s.errIndex := rfl
@[simp] theorem State.setContainer_errSymbol : (s.setContainer c k).errSymbol = s.errSymbol := rfl
@[simp] theorem State.setContainer_nodeCount : (s.setContainer c k).nodeCount = s.nodeCount := rfl
@[simp] theorem State.setContainer_root : (s.setContainer c k).root = s.root := rfl
@[simp] theorem State.setContainer_bcs : (s.setContainer c k).bcs = s.bcs.set c.val k := rfl
@[simp] theorem State.setContainer_freq : (s.setContainer c k).freq = s.freq := rfl
@[simp] theorem State.setContainer_codes : (s.setContainer c k).codes = s.codes := rfl
@[simp] theorem State.setContainer_nodes : (s.setContainer c k).nodes = s.nodes := rfl
@[simp] theorem State.setContainer_inMem : (s.setContainer c k).inMem = s.inMem := rfl
@[simp] theorem State.setContainer_outMem : (s.setContainer c k).outMem = s.outMem := rfl
@[simp] theorem State.setContainer_draws : (s.setContainer c k).draws = s.draws := rfl
@[simp] theorem State.setContainer_schedule : (s.setContainer c k).schedule = s.schedule := rfl
@[simp] theorem State.setContainer_readData : (s.setContainer c k).readData = s.readData := rfl
end

/-! ### setFreq -/

section
variable (s : State) (sym : Byte) (d : Word)
@[simp] theorem State.setFreq_cfg : (s.setFreq sym d).cfg = s.cfg := rfl
@[simp] theorem State.setFreq_irqEn : (s.setFreq sym d).irqEn = s.irqEn := rfl
@[simp] theorem State.setFreq_busy : (s.setFreq sym d).busy = s.busy := rfl
@[simp] theorem State.setFreq_done : (s.setFreq sym d).done = s.done := rfl
@[simp] theorem State.setFreq_overrun : (s.setFreq sym d).overrun = s.overrun := rfl
@[simp] theorem State.setFreq_err : (s.setFreq sym d).err = s.err := rfl
@[simp] theorem State.setFreq_treeValid : (s.setFreq sym d).treeValid = s.treeValid := rfl
@[simp] theorem State.setFreq_tableValid : (s.setFreq sym d).tableValid = s.tableValid := rfl
@[simp] theorem State.setFreq_cmd : (s.setFreq sym d).cmd = s.cmd := rfl
@[simp] theorem State.setFreq_pending : (s.setFreq sym d).pending = s.pending := rfl
@[simp] theorem State.setFreq_inLen : (s.setFreq sym d).inLen = s.inLen := rfl
@[simp] theorem State.setFreq_decCount : (s.setFreq sym d).decCount = s.decCount := rfl
@[simp] theorem State.setFreq_outLen : (s.setFreq sym d).outLen = s.outLen := rfl
@[simp] theorem State.setFreq_result : (s.setFreq sym d).result = s.result := rfl
@[simp] theorem State.setFreq_errIndex : (s.setFreq sym d).errIndex = s.errIndex := rfl
@[simp] theorem State.setFreq_errSymbol : (s.setFreq sym d).errSymbol = s.errSymbol := rfl
@[simp] theorem State.setFreq_nodeCount : (s.setFreq sym d).nodeCount = s.nodeCount := rfl
@[simp] theorem State.setFreq_root : (s.setFreq sym d).root = s.root := rfl
@[simp] theorem State.setFreq_bcs : (s.setFreq sym d).bcs = s.bcs := rfl
@[simp] theorem State.setFreq_freq : (s.setFreq sym d).freq = s.freq.set sym.toNat (d.toNat % 2 ^ s.cfg.cntW) sym.isLt := rfl
@[simp] theorem State.setFreq_codes : (s.setFreq sym d).codes = s.codes := rfl
@[simp] theorem State.setFreq_nodes : (s.setFreq sym d).nodes = s.nodes := rfl
@[simp] theorem State.setFreq_inMem : (s.setFreq sym d).inMem = s.inMem := rfl
@[simp] theorem State.setFreq_outMem : (s.setFreq sym d).outMem = s.outMem := rfl
@[simp] theorem State.setFreq_draws : (s.setFreq sym d).draws = s.draws := rfl
@[simp] theorem State.setFreq_schedule : (s.setFreq sym d).schedule = s.schedule := rfl
@[simp] theorem State.setFreq_readData : (s.setFreq sym d).readData = s.readData := rfl
end

/-! ### commitTree -/

section
variable (s : State) (ns : List Node)
@[simp] theorem State.commitTree_cfg : (s.commitTree ns).cfg = s.cfg := rfl
@[simp] theorem State.commitTree_irqEn : (s.commitTree ns).irqEn = s.irqEn := rfl
@[simp] theorem State.commitTree_busy : (s.commitTree ns).busy = s.busy := rfl
@[simp] theorem State.commitTree_done : (s.commitTree ns).done = s.done := rfl
@[simp] theorem State.commitTree_overrun : (s.commitTree ns).overrun = s.overrun := rfl
@[simp] theorem State.commitTree_err : (s.commitTree ns).err = s.err := rfl
@[simp] theorem State.commitTree_treeValid : (s.commitTree ns).treeValid = true := rfl
@[simp] theorem State.commitTree_tableValid : (s.commitTree ns).tableValid = false := rfl
@[simp] theorem State.commitTree_cmd : (s.commitTree ns).cmd = s.cmd := rfl
@[simp] theorem State.commitTree_pending : (s.commitTree ns).pending = s.pending := rfl
@[simp] theorem State.commitTree_inLen : (s.commitTree ns).inLen = s.inLen := rfl
@[simp] theorem State.commitTree_decCount : (s.commitTree ns).decCount = s.decCount := rfl
@[simp] theorem State.commitTree_outLen : (s.commitTree ns).outLen = s.outLen := rfl
@[simp] theorem State.commitTree_result : (s.commitTree ns).result = s.result := rfl
@[simp] theorem State.commitTree_errIndex : (s.commitTree ns).errIndex = s.errIndex := rfl
@[simp] theorem State.commitTree_errSymbol : (s.commitTree ns).errSymbol = s.errSymbol := rfl
@[simp] theorem State.commitTree_nodeCount : (s.commitTree ns).nodeCount = ns.length := rfl
@[simp] theorem State.commitTree_root : (s.commitTree ns).root = ns.length - 1 := rfl
@[simp] theorem State.commitTree_bcs : (s.commitTree ns).bcs = s.bcs := rfl
@[simp] theorem State.commitTree_freq : (s.commitTree ns).freq = s.freq := rfl
@[simp] theorem State.commitTree_codes : (s.commitTree ns).codes = CodeTable.cleared := rfl
@[simp] theorem State.commitTree_nodes : (s.commitTree ns).nodes = ns := rfl
@[simp] theorem State.commitTree_inMem : (s.commitTree ns).inMem = s.inMem := rfl
@[simp] theorem State.commitTree_outMem : (s.commitTree ns).outMem = s.outMem := rfl
@[simp] theorem State.commitTree_draws : (s.commitTree ns).draws = s.draws := rfl
@[simp] theorem State.commitTree_schedule : (s.commitTree ns).schedule = s.schedule := rfl
@[simp] theorem State.commitTree_readData : (s.commitTree ns).readData = s.readData := rfl
end

/-! ### accept -/

section
variable (s : State) (w : Word)
@[simp] theorem State.accept_cfg : (s.accept w).cfg = s.cfg := rfl
@[simp] theorem State.accept_irqEn : (s.accept w).irqEn = s.irqEn := rfl
@[simp] theorem State.accept_busy : (s.accept w).busy = true := rfl
@[simp] theorem State.accept_done : (s.accept w).done = false := rfl
@[simp] theorem State.accept_overrun : (s.accept w).overrun = s.overrun := rfl
@[simp] theorem State.accept_err : (s.accept w).err = .ok := rfl
@[simp] theorem State.accept_treeValid : (s.accept w).treeValid = s.treeValid := rfl
@[simp] theorem State.accept_tableValid : (s.accept w).tableValid = s.tableValid := rfl
@[simp] theorem State.accept_cmd : (s.accept w).cmd = w := rfl
@[simp] theorem State.accept_pending : (s.accept w).pending = some w := rfl
@[simp] theorem State.accept_inLen : (s.accept w).inLen = s.inLen := rfl
@[simp] theorem State.accept_decCount : (s.accept w).decCount = s.decCount := rfl
@[simp] theorem State.accept_outLen : (s.accept w).outLen = s.outLen := rfl
@[simp] theorem State.accept_result : (s.accept w).result = s.result := rfl
@[simp] theorem State.accept_errIndex : (s.accept w).errIndex = 0 := rfl
@[simp] theorem State.accept_errSymbol : (s.accept w).errSymbol = 0 := rfl
@[simp] theorem State.accept_nodeCount : (s.accept w).nodeCount = s.nodeCount := rfl
@[simp] theorem State.accept_root : (s.accept w).root = s.root := rfl
@[simp] theorem State.accept_bcs : (s.accept w).bcs = s.bcs := rfl
@[simp] theorem State.accept_freq : (s.accept w).freq = s.freq := rfl
@[simp] theorem State.accept_codes : (s.accept w).codes = s.codes := rfl
@[simp] theorem State.accept_nodes : (s.accept w).nodes = s.nodes := rfl
@[simp] theorem State.accept_inMem : (s.accept w).inMem = s.inMem := rfl
@[simp] theorem State.accept_outMem : (s.accept w).outMem = s.outMem := rfl
@[simp] theorem State.accept_draws : (s.accept w).draws = s.draws := rfl
@[simp] theorem State.accept_schedule : (s.accept w).schedule = s.schedule := rfl
@[simp] theorem State.accept_readData : (s.accept w).readData = s.readData := rfl
end

/-! ### complete -/

section
variable (s : State)
@[simp] theorem State.complete_cfg : (s.complete).cfg = s.cfg := rfl
@[simp] theorem State.complete_irqEn : (s.complete).irqEn = s.irqEn := rfl
@[simp] theorem State.complete_busy : (s.complete).busy = false := rfl
@[simp] theorem State.complete_done : (s.complete).done = true := rfl
@[simp] theorem State.complete_overrun : (s.complete).overrun = s.overrun := rfl
@[simp] theorem State.complete_err : (s.complete).err = .ok := rfl
@[simp] theorem State.complete_treeValid : (s.complete).treeValid = s.treeValid := rfl
@[simp] theorem State.complete_tableValid : (s.complete).tableValid = s.tableValid := rfl
@[simp] theorem State.complete_cmd : (s.complete).cmd = s.cmd := rfl
@[simp] theorem State.complete_pending : (s.complete).pending = none := rfl
@[simp] theorem State.complete_inLen : (s.complete).inLen = s.inLen := rfl
@[simp] theorem State.complete_decCount : (s.complete).decCount = s.decCount := rfl
@[simp] theorem State.complete_outLen : (s.complete).outLen = s.outLen := rfl
@[simp] theorem State.complete_result : (s.complete).result = s.result := rfl
@[simp] theorem State.complete_errIndex : (s.complete).errIndex = s.errIndex := rfl
@[simp] theorem State.complete_errSymbol : (s.complete).errSymbol = s.errSymbol := rfl
@[simp] theorem State.complete_nodeCount : (s.complete).nodeCount = s.nodeCount := rfl
@[simp] theorem State.complete_root : (s.complete).root = s.root := rfl
@[simp] theorem State.complete_bcs : (s.complete).bcs = s.bcs := rfl
@[simp] theorem State.complete_freq : (s.complete).freq = s.freq := rfl
@[simp] theorem State.complete_codes : (s.complete).codes = s.codes := rfl
@[simp] theorem State.complete_nodes : (s.complete).nodes = s.nodes := rfl
@[simp] theorem State.complete_inMem : (s.complete).inMem = s.inMem := rfl
@[simp] theorem State.complete_outMem : (s.complete).outMem = s.outMem := rfl
@[simp] theorem State.complete_draws : (s.complete).draws = s.draws := rfl
@[simp] theorem State.complete_schedule : (s.complete).schedule = s.schedule := rfl
@[simp] theorem State.complete_readData : (s.complete).readData = s.readData := rfl
end

/-! ### raise -/

section
variable (s : State) (e : ErrCode) (i : Nat) (v : Byte)
@[simp] theorem State.raise_cfg : (s.raise e i v).cfg = s.cfg := rfl
@[simp] theorem State.raise_irqEn : (s.raise e i v).irqEn = s.irqEn := rfl
@[simp] theorem State.raise_busy : (s.raise e i v).busy = false := rfl
@[simp] theorem State.raise_done : (s.raise e i v).done = true := rfl
@[simp] theorem State.raise_overrun : (s.raise e i v).overrun = s.overrun := rfl
@[simp] theorem State.raise_err : (s.raise e i v).err = e := rfl
@[simp] theorem State.raise_treeValid : (s.raise e i v).treeValid = s.treeValid := rfl
@[simp] theorem State.raise_tableValid : (s.raise e i v).tableValid = s.tableValid := rfl
@[simp] theorem State.raise_cmd : (s.raise e i v).cmd = s.cmd := rfl
@[simp] theorem State.raise_pending : (s.raise e i v).pending = none := rfl
@[simp] theorem State.raise_inLen : (s.raise e i v).inLen = s.inLen := rfl
@[simp] theorem State.raise_decCount : (s.raise e i v).decCount = s.decCount := rfl
@[simp] theorem State.raise_outLen : (s.raise e i v).outLen = s.outLen := rfl
@[simp] theorem State.raise_result : (s.raise e i v).result = s.result := rfl
@[simp] theorem State.raise_errIndex : (s.raise e i v).errIndex = BitVec.ofNat 32 i := rfl
@[simp] theorem State.raise_errSymbol : (s.raise e i v).errSymbol = v := rfl
@[simp] theorem State.raise_nodeCount : (s.raise e i v).nodeCount = s.nodeCount := rfl
@[simp] theorem State.raise_root : (s.raise e i v).root = s.root := rfl
@[simp] theorem State.raise_bcs : (s.raise e i v).bcs = s.bcs := rfl
@[simp] theorem State.raise_freq : (s.raise e i v).freq = s.freq := rfl
@[simp] theorem State.raise_codes : (s.raise e i v).codes = s.codes := rfl
@[simp] theorem State.raise_nodes : (s.raise e i v).nodes = s.nodes := rfl
@[simp] theorem State.raise_inMem : (s.raise e i v).inMem = s.inMem := rfl
@[simp] theorem State.raise_outMem : (s.raise e i v).outMem = s.outMem := rfl
@[simp] theorem State.raise_draws : (s.raise e i v).draws = s.draws := rfl
@[simp] theorem State.raise_schedule : (s.raise e i v).schedule = s.schedule := rfl
@[simp] theorem State.raise_readData : (s.raise e i v).readData = s.readData := rfl
end

/-! ### discardOutput -/

section
variable (s : State)
@[simp] theorem State.discardOutput_cfg : (s.discardOutput).cfg = s.cfg := rfl
@[simp] theorem State.discardOutput_irqEn : (s.discardOutput).irqEn = s.irqEn := rfl
@[simp] theorem State.discardOutput_busy : (s.discardOutput).busy = s.busy := rfl
@[simp] theorem State.discardOutput_done : (s.discardOutput).done = s.done := rfl
@[simp] theorem State.discardOutput_overrun : (s.discardOutput).overrun = s.overrun := rfl
@[simp] theorem State.discardOutput_err : (s.discardOutput).err = s.err := rfl
@[simp] theorem State.discardOutput_treeValid : (s.discardOutput).treeValid = s.treeValid := rfl
@[simp] theorem State.discardOutput_tableValid : (s.discardOutput).tableValid = s.tableValid := rfl
@[simp] theorem State.discardOutput_cmd : (s.discardOutput).cmd = s.cmd := rfl
@[simp] theorem State.discardOutput_pending : (s.discardOutput).pending = s.pending := rfl
@[simp] theorem State.discardOutput_inLen : (s.discardOutput).inLen = s.inLen := rfl
@[simp] theorem State.discardOutput_decCount : (s.discardOutput).decCount = s.decCount := rfl
@[simp] theorem State.discardOutput_outLen : (s.discardOutput).outLen = 0 := rfl
@[simp] theorem State.discardOutput_result : (s.discardOutput).result = s.result := rfl
@[simp] theorem State.discardOutput_errIndex : (s.discardOutput).errIndex = s.errIndex := rfl
@[simp] theorem State.discardOutput_errSymbol : (s.discardOutput).errSymbol = s.errSymbol := rfl
@[simp] theorem State.discardOutput_nodeCount : (s.discardOutput).nodeCount = s.nodeCount := rfl
@[simp] theorem State.discardOutput_root : (s.discardOutput).root = s.root := rfl
@[simp] theorem State.discardOutput_bcs : (s.discardOutput).bcs = s.bcs := rfl
@[simp] theorem State.discardOutput_freq : (s.discardOutput).freq = s.freq := rfl
@[simp] theorem State.discardOutput_codes : (s.discardOutput).codes = s.codes := rfl
@[simp] theorem State.discardOutput_nodes : (s.discardOutput).nodes = s.nodes := rfl
@[simp] theorem State.discardOutput_inMem : (s.discardOutput).inMem = s.inMem := rfl
@[simp] theorem State.discardOutput_outMem : (s.discardOutput).outMem = [] := rfl
@[simp] theorem State.discardOutput_draws : (s.discardOutput).draws = s.draws := rfl
@[simp] theorem State.discardOutput_schedule : (s.discardOutput).schedule = s.schedule := rfl
@[simp] theorem State.discardOutput_readData : (s.discardOutput).readData = s.readData := rfl
end

/-! ### afterInput -/

section
variable (s : State)
@[simp] theorem State.afterInput_cfg : (s.afterInput).cfg = s.cfg := rfl
@[simp] theorem State.afterInput_irqEn : (s.afterInput).irqEn = s.irqEn := rfl
@[simp] theorem State.afterInput_busy : (s.afterInput).busy = s.busy := rfl
@[simp] theorem State.afterInput_done : (s.afterInput).done = s.done := rfl
@[simp] theorem State.afterInput_overrun : (s.afterInput).overrun = s.overrun := rfl
@[simp] theorem State.afterInput_err : (s.afterInput).err = s.err := rfl
@[simp] theorem State.afterInput_treeValid : (s.afterInput).treeValid = s.treeValid := rfl
@[simp] theorem State.afterInput_tableValid : (s.afterInput).tableValid = s.tableValid := rfl
@[simp] theorem State.afterInput_cmd : (s.afterInput).cmd = s.cmd := rfl
@[simp] theorem State.afterInput_pending : (s.afterInput).pending = s.pending := rfl
@[simp] theorem State.afterInput_inLen : (s.afterInput).inLen = s.inLen := rfl
@[simp] theorem State.afterInput_decCount : (s.afterInput).decCount = s.decCount := rfl
@[simp] theorem State.afterInput_outLen : (s.afterInput).outLen = s.outLen := rfl
@[simp] theorem State.afterInput_result : (s.afterInput).result = s.result := rfl
@[simp] theorem State.afterInput_errIndex : (s.afterInput).errIndex = s.errIndex := rfl
@[simp] theorem State.afterInput_errSymbol : (s.afterInput).errSymbol = s.errSymbol := rfl
@[simp] theorem State.afterInput_nodeCount : (s.afterInput).nodeCount = s.nodeCount := rfl
@[simp] theorem State.afterInput_root : (s.afterInput).root = s.root := rfl
@[simp] theorem State.afterInput_bcs : (s.afterInput).bcs = s.bcs := rfl
@[simp] theorem State.afterInput_freq : (s.afterInput).freq = s.freq := rfl
@[simp] theorem State.afterInput_codes : (s.afterInput).codes = s.codes := rfl
@[simp] theorem State.afterInput_nodes : (s.afterInput).nodes = s.nodes := rfl
@[simp] theorem State.afterInput_inMem : (s.afterInput).inMem = s.inMem := rfl
@[simp] theorem State.afterInput_outMem : (s.afterInput).outMem = s.outMem := rfl
@[simp] theorem State.afterInput_draws : (s.afterInput).draws = (inputBytes s.inMem s.draws 0 s.inCount).2 := rfl
@[simp] theorem State.afterInput_schedule : (s.afterInput).schedule = s.schedule := rfl
@[simp] theorem State.afterInput_readData : (s.afterInput).readData = s.readData := rfl
end

/-! ### emit -/

section
variable (s : State) (bs : List Byte)
@[simp] theorem State.emit_cfg : (s.emit bs).cfg = s.cfg := rfl
@[simp] theorem State.emit_irqEn : (s.emit bs).irqEn = s.irqEn := rfl
@[simp] theorem State.emit_busy : (s.emit bs).busy = s.busy := rfl
@[simp] theorem State.emit_done : (s.emit bs).done = s.done := rfl
@[simp] theorem State.emit_overrun : (s.emit bs).overrun = s.overrun := rfl
@[simp] theorem State.emit_err : (s.emit bs).err = s.err := rfl
@[simp] theorem State.emit_treeValid : (s.emit bs).treeValid = s.treeValid := rfl
@[simp] theorem State.emit_tableValid : (s.emit bs).tableValid = s.tableValid := rfl
@[simp] theorem State.emit_cmd : (s.emit bs).cmd = s.cmd := rfl
@[simp] theorem State.emit_pending : (s.emit bs).pending = s.pending := rfl
@[simp] theorem State.emit_inLen : (s.emit bs).inLen = s.inLen := rfl
@[simp] theorem State.emit_decCount : (s.emit bs).decCount = s.decCount := rfl
@[simp] theorem State.emit_outLen : (s.emit bs).outLen = BitVec.ofNat 32 bs.length := rfl
@[simp] theorem State.emit_result : (s.emit bs).result = s.result := rfl
@[simp] theorem State.emit_errIndex : (s.emit bs).errIndex = s.errIndex := rfl
@[simp] theorem State.emit_errSymbol : (s.emit bs).errSymbol = s.errSymbol := rfl
@[simp] theorem State.emit_nodeCount : (s.emit bs).nodeCount = s.nodeCount := rfl
@[simp] theorem State.emit_root : (s.emit bs).root = s.root := rfl
@[simp] theorem State.emit_bcs : (s.emit bs).bcs = s.bcs := rfl
@[simp] theorem State.emit_freq : (s.emit bs).freq = s.freq := rfl
@[simp] theorem State.emit_codes : (s.emit bs).codes = s.codes := rfl
@[simp] theorem State.emit_nodes : (s.emit bs).nodes = s.nodes := rfl
@[simp] theorem State.emit_inMem : (s.emit bs).inMem = s.inMem := rfl
@[simp] theorem State.emit_outMem : (s.emit bs).outMem = Memory.writeBytes [] 0 bs := rfl
@[simp] theorem State.emit_draws : (s.emit bs).draws = s.draws := rfl
@[simp] theorem State.emit_schedule : (s.emit bs).schedule = s.schedule := rfl
@[simp] theorem State.emit_readData : (s.emit bs).readData = s.readData := rfl
end

/-! ### writeStatus -/

section
variable (s : State) (d : Word)
@[simp] theorem State.writeStatus_cfg : (s.writeStatus d).cfg = s.cfg := rfl
@[simp] theorem State.writeStatus_irqEn : (s.writeStatus d).irqEn = s.irqEn := rfl
@[simp] theorem State.writeStatus_busy : (s.writeStatus d).busy = s.busy := rfl
@[simp] theorem State.writeStatus_done : (s.writeStatus d).done = (s.done && !d.getLsbD 1) := rfl
@[simp] theorem State.writeStatus_overrun : (s.writeStatus d).overrun = (s.overrun && !d.getLsbD 2) := rfl
@[simp] theorem State.writeStatus_err : (s.writeStatus d).err = s.err := rfl
@[simp] theorem State.writeStatus_treeValid : (s.writeStatus d).treeValid = s.treeValid := rfl
@[simp] theorem State.writeStatus_tableValid : (s.writeStatus d).tableValid = s.tableValid := rfl
@[simp] theorem State.writeStatus_cmd : (s.writeStatus d).cmd = s.cmd := rfl
@[simp] theorem State.writeStatus_pending : (s.writeStatus d).pending = s.pending := rfl
@[simp] theorem State.writeStatus_inLen : (s.writeStatus d).inLen = s.inLen := rfl
@[simp] theorem State.writeStatus_decCount : (s.writeStatus d).decCount = s.decCount := rfl
@[simp] theorem State.writeStatus_outLen : (s.writeStatus d).outLen = s.outLen := rfl
@[simp] theorem State.writeStatus_result : (s.writeStatus d).result = s.result := rfl
@[simp] theorem State.writeStatus_errIndex : (s.writeStatus d).errIndex = s.errIndex := rfl
@[simp] theorem State.writeStatus_errSymbol : (s.writeStatus d).errSymbol = s.errSymbol := rfl
@[simp] theorem State.writeStatus_nodeCount : (s.writeStatus d).nodeCount = s.nodeCount := rfl
@[simp] theorem State.writeStatus_root : (s.writeStatus d).root = s.root := rfl
@[simp] theorem State.writeStatus_bcs : (s.writeStatus d).bcs = s.bcs := rfl
@[simp] theorem State.writeStatus_freq : (s.writeStatus d).freq = s.freq := rfl
@[simp] theorem State.writeStatus_codes : (s.writeStatus d).codes = s.codes := rfl
@[simp] theorem State.writeStatus_nodes : (s.writeStatus d).nodes = s.nodes := rfl
@[simp] theorem State.writeStatus_inMem : (s.writeStatus d).inMem = s.inMem := rfl
@[simp] theorem State.writeStatus_outMem : (s.writeStatus d).outMem = s.outMem := rfl
@[simp] theorem State.writeStatus_draws : (s.writeStatus d).draws = s.draws := rfl
@[simp] theorem State.writeStatus_schedule : (s.writeStatus d).schedule = s.schedule := rfl
@[simp] theorem State.writeStatus_readData : (s.writeStatus d).readData = s.readData := rfl
end

/-! ### resetEvent -/

section
variable (s : State)
@[simp] theorem State.resetEvent_cfg : (s.resetEvent).cfg = s.cfg := rfl
@[simp] theorem State.resetEvent_irqEn : (s.resetEvent).irqEn = (State.resetWith s.cfg).irqEn := rfl
@[simp] theorem State.resetEvent_busy : (s.resetEvent).busy = (State.resetWith s.cfg).busy := rfl
@[simp] theorem State.resetEvent_done : (s.resetEvent).done = (State.resetWith s.cfg).done := rfl
@[simp] theorem State.resetEvent_overrun : (s.resetEvent).overrun = (State.resetWith s.cfg).overrun := rfl
@[simp] theorem State.resetEvent_err : (s.resetEvent).err = (State.resetWith s.cfg).err := rfl
@[simp] theorem State.resetEvent_treeValid : (s.resetEvent).treeValid = (State.resetWith s.cfg).treeValid := rfl
@[simp] theorem State.resetEvent_tableValid : (s.resetEvent).tableValid = (State.resetWith s.cfg).tableValid := rfl
@[simp] theorem State.resetEvent_cmd : (s.resetEvent).cmd = (State.resetWith s.cfg).cmd := rfl
@[simp] theorem State.resetEvent_pending : (s.resetEvent).pending = (State.resetWith s.cfg).pending := rfl
@[simp] theorem State.resetEvent_inLen : (s.resetEvent).inLen = (State.resetWith s.cfg).inLen := rfl
@[simp] theorem State.resetEvent_decCount : (s.resetEvent).decCount = (State.resetWith s.cfg).decCount := rfl
@[simp] theorem State.resetEvent_outLen : (s.resetEvent).outLen = (State.resetWith s.cfg).outLen := rfl
@[simp] theorem State.resetEvent_result : (s.resetEvent).result = (State.resetWith s.cfg).result := rfl
@[simp] theorem State.resetEvent_errIndex : (s.resetEvent).errIndex = (State.resetWith s.cfg).errIndex := rfl
@[simp] theorem State.resetEvent_errSymbol : (s.resetEvent).errSymbol = (State.resetWith s.cfg).errSymbol := rfl
@[simp] theorem State.resetEvent_nodeCount : (s.resetEvent).nodeCount = (State.resetWith s.cfg).nodeCount := rfl
@[simp] theorem State.resetEvent_root : (s.resetEvent).root = (State.resetWith s.cfg).root := rfl
@[simp] theorem State.resetEvent_bcs : (s.resetEvent).bcs = (State.resetWith s.cfg).bcs := rfl
@[simp] theorem State.resetEvent_freq : (s.resetEvent).freq = (State.resetWith s.cfg).freq := rfl
@[simp] theorem State.resetEvent_codes : (s.resetEvent).codes = (State.resetWith s.cfg).codes := rfl
@[simp] theorem State.resetEvent_nodes : (s.resetEvent).nodes = (State.resetWith s.cfg).nodes := rfl
@[simp] theorem State.resetEvent_inMem : (s.resetEvent).inMem = (State.resetWith s.cfg).inMem := rfl
@[simp] theorem State.resetEvent_outMem : (s.resetEvent).outMem = (State.resetWith s.cfg).outMem := rfl
@[simp] theorem State.resetEvent_draws : (s.resetEvent).draws = s.draws := rfl
@[simp] theorem State.resetEvent_schedule : (s.resetEvent).schedule = s.schedule := rfl
@[simp] theorem State.resetEvent_readData : (s.resetEvent).readData = s.readData := rfl
end

/-! ### Draws -/

@[simp] theorem State.drawByte_fst (s : State) : s.drawByte.1 = Config.freeByte s.draws := rfl
@[simp] theorem State.drawByte_snd (s : State) : s.drawByte.2 = { s with draws := s.draws + 1 } := rfl
@[simp] theorem State.drawWord_fst (s : State) : s.drawWord.1 = Config.freeWord s.draws := rfl
@[simp] theorem State.drawWord_snd (s : State) : s.drawWord.2 = { s with draws := s.draws + 1 } := rfl

end Sys2Proof.Machine
end

