-- ==== Sys2Proof/Laws/Commands.lean ====
section
/-! SUPPORT. The shared operations: containers, the legality guard, the input bytes, and `exec` as one guarded effect per
command. -/

namespace Sys2Proof.Machine

/-! ### Containers -/

theorem State.container_setContainer (s : State) (c d : CIdx) (k : Container) :
    (s.setContainer c k).container d = if d = c then k else s.container d := by
  simp only [State.container, State.setContainer, Vector.getElem_set]
  by_cases h : c = d
  · subst h; simp
  · have h1 : c.val ≠ d.val := fun he => h (Fin.ext he)
    have h2 : d ≠ c := fun he => h he.symm
    simp [h1, h2]

@[simp] theorem State.container_setContainer_same (s : State) (c : CIdx) (k : Container) :
    (s.setContainer c k).container c = k := by simp [State.container_setContainer]

theorem State.container_setContainer_other (s : State) {c d : CIdx} (k : Container) (h : d ≠ c) :
    (s.setContainer c k).container d = s.container d := by simp [State.container_setContainer, h]

/-- Containers depend on BC_BITS and BC_POS alone. -/
theorem State.container_congr {s t : State} (h : t.bcs = s.bcs) (c : CIdx) : t.container c = s.container c := by
  simp [State.container, h]

/-! ### Counters and table -/

theorem State.freqAt_setFreq (s : State) (sym sym' : Byte) (d : Word) :
    (s.setFreq sym d).freqAt sym' = if sym' = sym then d.toNat % 2 ^ s.cfg.cntW else s.freqAt sym' := by
  simp only [State.freqAt, State.setFreq, Vector.getElem_set]
  by_cases h : sym = sym'
  · subst h; simp
  · have h1 : sym.toNat ≠ sym'.toNat := fun he => h (BitVec.eq_of_toNat_eq he)
    have h2 : sym' ≠ sym := fun he => h he.symm
    simp [h1, h2]

theorem CodeTable.entry_record (t : CodeTable) (sym sym' : Byte) (code : Bits) :
    (t.record sym code).entry sym' = if sym' = sym then some code else t.entry sym' := by
  simp only [CodeTable.entry, CodeTable.record, Vector.getElem_set]
  by_cases h : sym = sym'
  · subst h; simp
  · have h1 : sym.toNat ≠ sym'.toNat := fun he => h (BitVec.eq_of_toNat_eq he)
    have h2 : sym' ≠ sym := fun he => h he.symm
    simp [h1, h2]

@[simp] theorem CodeTable.entry_cleared (sym : Byte) : CodeTable.cleared.entry sym = none := by
  simp [CodeTable.entry, CodeTable.cleared]

/-! ### The legality guard -/

/-- All that the guard can do. -/
theorem ifLegal_cases (i : Instr) (s : State) (body : State → State) :
    (i.wellFormed s.cfg = true ∧ ifLegal i s body = body s) ∨
    (i.wellFormed s.cfg = false ∧ ifLegal i s body = s.raise .illegalCommand 0 0) := by
  unfold ifLegal; cases i.wellFormed s.cfg <;> simp

/-! ### The input bytes -/

@[simp] theorem inputBytes_length (m : Memory) (d i n : Nat) : (inputBytes m d i n).1.length = n := by
  induction n generalizing d i with
  | zero => rfl
  | succ n ih => unfold inputBytes; split <;> simp [ih]

@[simp] theorem State.input_length (s : State) : s.input.length = s.inCount := inputBytes_length _ _ _ _

/-- Each input byte is the written one or a draw of its own; the counter moves by the number of unwritten bytes. -/
theorem inputBytes_spec (m : Memory) (d i n : Nat) :
    (∀ j, j < n → (inputBytes m d i n).1[j]? = some ((m.read (i + j)).getD
      (Config.freeByte (d + (List.range j).countP fun k => (m.read (i + k)).isNone)))) ∧
    (inputBytes m d i n).2 = d + (List.range n).countP fun k => (m.read (i + k)).isNone := by
  induction n generalizing d i with
  | zero => simp [inputBytes]
  | succ n ih =>
    have hc : ∀ j, (List.range (j + 1)).countP (fun k => (m.read (i + k)).isNone) =
        (if (m.read i).isNone then 1 else 0) + (List.range j).countP fun k => (m.read (i + 1 + k)).isNone := by
      intro j
      rw [List.range_succ_eq_map, List.countP_cons, List.countP_map, Nat.add_comm]
      simp only [Function.comp_def, Nat.add_zero, Nat.succ_eq_add_one, Nat.add_comm 1, Nat.add_assoc]
    unfold inputBytes
    cases h : m.read i with
    | some v =>
      simp only
      refine ⟨fun j hj => ?_, ?_⟩
      · cases j with
        | zero => simp [h]
        | succ j =>
          rw [List.getElem?_cons_succ, (ih d (i + 1)).1 j (by omega), hc j, h]
          simp [Nat.add_assoc, Nat.add_comm 1]
      · rw [(ih d (i + 1)).2, hc n, h]; simp
    | none =>
      simp only
      refine ⟨fun j hj => ?_, ?_⟩
      · cases j with
        | zero => simp [h]
        | succ j =>
          rw [List.getElem?_cons_succ, (ih (d + 1) (i + 1)).1 j (by omega), hc j, h]
          simp [Nat.add_assoc, Nat.add_comm 1]
      · rw [(ih (d + 1) (i + 1)).2, hc n, h]; simp [Nat.add_assoc]

/-! ### `exec` as one guarded effect per command -/

/-- The effect of a command whose operands are legal. -/
def effect : Instr → State → State
  | .nop => State.complete
  | .bcClear c => clearContainer c
  | .bcPush c bit => pushBit c bit
  | .bcFromBits c => loadBits c
  | .bcFromBytes c => loadBytes c
  | .bcAppend c src => appendContainer c src
  | .bcIterReset c => restartIterator c
  | .bcIterNext c => yieldBit c
  | .bcAlign c => alignContainer c
  | .treeBuild => buildFromInput
  | .treeBuildFreq => buildFromFreq
  | .tableDerive => deriveTable
  | .tableLookup c sym => lookupCode c sym
  | .encode c => encodeInput c
  | .decode c => decodeContainer c

theorem exec_eq (i : Instr) (s : State) : exec i s = .next (ifLegal i s (effect i)) := by cases i <;> rfl

/-- All that one command can do: its effect, or ILLEGAL_COMMAND and nothing else. -/
theorem exec_cases {i : Instr} {s t : State} (h : exec i s = .next t) :
    (i.wellFormed s.cfg = true ∧ t = effect i s) ∨
    (i.wellFormed s.cfg = false ∧ t = s.raise .illegalCommand 0 0) := by
  rw [exec_eq] at h
  obtain ⟨rfl⟩ : ifLegal i s (effect i) = t := by injection h
  exact (ifLegal_cases i s (effect i)).imp id id

theorem exec_legal {i : Instr} {s : State} (h : i.wellFormed s.cfg = true) : exec i s = .next (effect i s) := by
  rw [exec_eq]; simp [ifLegal, h]

theorem exec_illegal {i : Instr} {s : State} (h : i.wellFormed s.cfg = false) :
    exec i s = .next (s.raise .illegalCommand 0 0) := by
  rw [exec_eq]; simp [ifLegal, h]

/-- All that an engine step on a word can do. -/
theorem runWord_cases {w : Word} {s t : State} (h : runWord w s = .next t) :
    (∃ i, decode w = .ok i ∧ exec i s = .next t) ∨
    ((∃ e, decode w = .error e) ∧ t = s.raise .illegalCommand 0 0) := by
  unfold runWord at h
  split at h
  · exact .inl ⟨_, ‹_›, h⟩
  · exact .inr ⟨⟨_, ‹_›⟩, by injection h with h; exact h.symm⟩

/-- All that one turn can do. -/
theorem step_cases {s t : State} (h : step s = .next t) :
    (∃ s', (s' = s ∨ ∃ rest, s.schedule = .engine :: rest ∧ s' = { s with schedule := rest }) ∧
      ((s'.pending = none ∧ t = s') ∨ ∃ w, s'.pending = some w ∧ runWord w s' = .next t)) ∨
    (∃ e rest, s.schedule = e :: rest ∧
      ((∃ a, e = .read a ∧ t = State.hostRead { s with schedule := rest } a) ∨
       (∃ a d, e = .write a d ∧ t = State.busWrite { s with schedule := rest } a d) ∨
       (e = .wait ∧ t = State.poll { s with schedule := rest }) ∨
       (e = .reset ∧ t = State.resetEvent { s with schedule := rest }))) := by
  have engine : ∀ s', engineStep s' = .next t →
      (s'.pending = none ∧ t = s') ∨ ∃ w, s'.pending = some w ∧ runWord w s' = .next t := by
    intro s' h
    unfold engineStep at h
    split at h
    · exact .inr ⟨_, ‹_›, h⟩
    · exact .inl ⟨‹_›, by injection h with h; exact h.symm⟩
  unfold step nextTurn at h
  split at h
  · exact .inl ⟨s, .inl rfl, engine s h⟩
  · rename_i e rest hs
    cases e with
    | engine => exact .inl ⟨_, .inr ⟨rest, hs, rfl⟩, engine _ h⟩
    | read a => exact .inr ⟨_, rest, hs, .inl ⟨a, rfl, by injection h with h; exact h.symm⟩⟩
    | write a d => exact .inr ⟨_, rest, hs, .inr (.inl ⟨a, d, rfl, by injection h with h; exact h.symm⟩)⟩
    | wait => exact .inr ⟨_, rest, hs, .inr (.inr (.inl ⟨rfl, by injection h with h; exact h.symm⟩))⟩
    | reset => exact .inr ⟨_, rest, hs, .inr (.inr (.inr ⟨rfl, by injection h with h; exact h.symm⟩))⟩

/-- The engine's turn, named by the schedule or not. -/
theorem step_engine {s : State} {rest : List Event} (h : EngineNext s rest) :
    step s = engineStep { s with schedule := rest } := by
  obtain h | ⟨h, rfl⟩ := h
  · simp only [step, nextTurn, h, turn]
  · have e : { s with schedule := [] } = s := by cases s; cases h; rfl
    simp only [step, nextTurn, h, e]

/-- A raised error is a completion with its report (R216). -/
theorem completedWith_raise (s : State) (e : ErrCode) (n : Nat) (sym : Byte) : CompletedWith e n sym (s.raise e n sym) :=
  ⟨rfl, rfl, rfl, rfl, rfl, rfl⟩

/-- A raised error changes no data (R215). -/
theorem sameData_raise (s : State) (e : ErrCode) (n : Nat) (sym : Byte) : SameData s (s.raise e n sym) :=
  ⟨⟨⟨rfl, rfl, rfl, rfl, rfl, rfl, rfl, rfl⟩, fun _ => rfl, ⟨rfl, fun _ => rfl⟩, rfl, fun _ => rfl,
    ⟨rfl, rfl, rfl, rfl⟩, fun _ => rfl, rfl⟩, fun _ _ => ⟨rfl, rfl⟩⟩

end Sys2Proof.Machine
end

