-- ==== Sys2Proof/Laws/TreeBuilder.lean ====
section
/-! SUPPORT. The tree builder: the key order, the candidate list, the leaves, and the invariant of the merge loop (R140), which gives
the greedy arena. -/

namespace Sys2Proof.Machine

/-- The key order, unfolded once. -/
theorem Cand.before_iff (x y : Cand) : x.before y = true ↔ x.count < y.count ∨ (x.count = y.count ∧ x.index < y.index) := by
  simp [Cand.before]

theorem Cand.before_trans {x y z : Cand} (h : x.before y = true) (h' : y.before z = true) : x.before z = true := by
  rw [Cand.before_iff] at *; omega

theorem Cand.before_irrefl (x : Cand) : x.before x = false := by
  simp [Cand.before]

theorem Cand.before_total {x y : Cand} (h : x.index ≠ y.index) (h' : x.before y = false) : y.before x = true := by
  have := mt (Cand.before_iff x y).2 (by simp [h'])
  rw [Cand.before_iff]; omega

/-- Q ∪ {x} holds x and the elements of Q. -/
theorem insertCand_perm (x : Cand) (q : List Cand) : (insertCand x q).Perm (x :: q) := by
  induction q with
  | nil => exact .refl _
  | cons y q ih =>
    simp only [insertCand]; split
    · exact .refl _
    · exact (ih.cons y).trans (.swap x y q)

/-- The candidate list stays in key order. -/
theorem insertCand_sorted {x : Cand} {q : List Cand} (hq : q.Pairwise fun a b => a.before b = true)
    (hx : ∀ y ∈ q, x.index ≠ y.index) : (insertCand x q).Pairwise fun a b => a.before b = true := by
  induction q with
  | nil => simp [insertCand]
  | cons y q ih =>
    rw [List.pairwise_cons] at hq
    simp only [insertCand]; split
    · rename_i h
      rw [List.pairwise_cons, List.pairwise_cons]
      refine ⟨?_, hq⟩
      intro z hz; rcases List.mem_cons.1 hz with rfl | hz
      · exact h
      · exact Cand.before_trans h (hq.1 z hz)
    · rename_i h
      rw [List.pairwise_cons]
      refine ⟨?_, ih hq.2 fun z hz => hx z (by simp [hz])⟩
      intro z hz
      rcases List.mem_cons.1 ((insertCand_perm x q).mem_iff.1 hz) with rfl | hz
      · exact Cand.before_total (hx y (by simp)) (by simpa using h)
      · exact hq.1 z hz

theorem insertCand_length (x : Cand) (q : List Cand) : (insertCand x q).length = q.length + 1 := by
  simpa using (insertCand_perm x q).length_eq

/-- The candidates before the merge are the keys of the given nodes. -/
theorem mem_candidates (c : Cand) (ns : List Node) (i : Nat) :
    c ∈ candidates i ns ↔ ∃ j, j < ns.length ∧ c.index = i + j ∧ c.count = (nodeOf ns j).count := by
  induction ns generalizing i with
  | nil => simp [candidates]
  | cons n ns ih =>
    rw [candidates, (insertCand_perm _ _).mem_iff, List.mem_cons, ih]
    constructor
    · rintro (rfl | ⟨j, hj, h1, h2⟩)
      · exact ⟨0, by simp, by simp, by simp [nodeOf]⟩
      · exact ⟨j + 1, by simpa using hj, by omega, by simpa [nodeOf] using h2⟩
    · rintro ⟨j, hj, h1, h2⟩
      cases j with
      | zero => left; cases c; simp_all [nodeOf]
      | succ j => right; exact ⟨j, by simpa using hj, by omega, by simpa [nodeOf] using h2⟩

theorem candidates_length (ns : List Node) (i : Nat) : (candidates i ns).length = ns.length := by
  induction ns generalizing i with
  | nil => rfl
  | cons n ns ih => simp [candidates, insertCand_length, ih]

theorem candidates_sorted (ns : List Node) (i : Nat) : (candidates i ns).Pairwise fun a b => a.before b = true := by
  induction ns generalizing i with
  | nil => simp [candidates]
  | cons n ns ih =>
    refine insertCand_sorted (ih _) ?_
    intro y hy
    obtain ⟨j, -, h, -⟩ := (mem_candidates _ _ _).1 hy
    simp only; omega

theorem nodeOf_append_lt {t : List Node} {n : Node} {i : Nat} (h : i < t.length) : nodeOf (t ++ [n]) i = nodeOf t i := by
  simp [nodeOf, List.getD, List.getElem?_append, h]

theorem nodeOf_append_eq (t : List Node) (n : Node) : nodeOf (t ++ [n]) t.length = n := by
  simp [nodeOf]

theorem nodeOf_ge {t : List Node} {i : Nat} (h : t.length ≤ i) : nodeOf t i = .empty := by
  simp [nodeOf, List.getD, h]

theorem IsChild.lt {t : List Node} {j i : Nat} (h : IsChild t j i) : j < t.length := by
  obtain ⟨n, a, b, h, -⟩ := h
  by_contra hc
  rw [nodeOf_ge (by omega)] at h; cases h

/-- What holds before every round of the merge loop, with candidate list `q` and arena `t`: `k` leaves, candidates in key
order, exactly the nodes without a parent, every merge so far greedy, and every node already merged before every
candidate in the key order. -/
structure MergeInv (k : Nat) (q : List Cand) (t : List Node) : Prop where
  len : t.length + q.length = 2 * k
  kle : k ≤ t.length
  qpos : 1 ≤ q.length
  sorted : q.Pairwise fun a b => a.before b = true
  mem : ∀ c, c ∈ q ↔ IsCand t t.length c.index ∧ c = keyOf t c.index
  leaf : ∀ i, i < k → ∃ sym n, nodeOf t i = .leaf sym n
  merges : ∀ m, k ≤ m → m < t.length → ∃ a b,
    nodeOf t m = .internal ((nodeOf t a).count + (nodeOf t b).count) a b ∧
    IsCand t m a ∧ IsCand t m b ∧ (keyOf t a).before (keyOf t b) = true ∧
    ∀ c, IsCand t m c → c ≠ a → c ≠ b → (keyOf t b).before (keyOf t c) = true
  early : ∀ i, i < t.length → ¬ IsCand t t.length i → ∀ c ∈ q, (keyOf t i).before c = true

theorem MergeInv.child_lt {k q t} (h : MergeInv k q t) {j i} (hc : IsChild t j i) : i < j := by
  have hj := hc.lt
  obtain ⟨n, a, b, hn, hi⟩ := hc
  by_cases hk : j < k
  · obtain ⟨s, c, h'⟩ := h.leaf j hk; rw [h'] at hn; cases hn
  · obtain ⟨a', b', h', ha, hb, -⟩ := h.merges j (by omega) hj
    rw [h'] at hn; cases hn
    rcases hi with rfl | rfl
    · exact ha.1
    · exact hb.1

theorem isChild_append {t : List Node} {N : Node} {j i : Nat} (h : j < t.length) : IsChild (t ++ [N]) j i ↔ IsChild t j i := by
  simp only [IsChild, nodeOf_append_lt h]

theorem isCand_append {t : List Node} {N : Node} {m i : Nat} (h : m ≤ t.length) : IsCand (t ++ [N]) m i ↔ IsCand t m i := by
  simp only [IsCand]
  refine and_congr_right fun _ => forall_congr' fun j => ?_
  refine imp_congr_right fun hj => ?_
  rw [isChild_append (by omega)]

theorem keyOf_append {t : List Node} {N : Node} {i : Nat} (h : i < t.length) : keyOf (t ++ [N]) i = keyOf t i := by
  simp only [keyOf, nodeOf_append_lt h]

/-- One round of the merge keeps the invariant. -/
theorem MergeInv.step {k a b q t} (h : MergeInv k (a :: b :: q) t) :
    MergeInv k (insertCand { count := a.count + b.count, index := t.length } q)
      (t ++ [.internal (a.count + b.count) a.index b.index]) := by
  have ha := (h.mem a).1 (by simp)
  have hb := (h.mem b).1 (by simp)
  have hs := h.sorted
  rw [List.pairwise_cons, List.pairwise_cons] at hs
  have hab := hs.1 b (by simp)
  have hane : a.index ≠ b.index := by
    intro he
    have : a = b := by rw [ha.2, hb.2, he]
    rw [this, Cand.before_irrefl] at hab; cases hab
  set N : Node := .internal (a.count + b.count) a.index b.index with hN
  set x : Cand := { count := a.count + b.count, index := t.length } with hx
  have hNn : nodeOf (t ++ [N]) t.length = N := nodeOf_append_eq _ _
  have hq : ∀ c, c ∈ q ↔ (IsCand t t.length c.index ∧ c = keyOf t c.index) ∧ c.index ≠ a.index ∧ c.index ≠ b.index := by
    intro c
    rw [← h.mem c]
    constructor
    · intro hc
      refine ⟨by simp [hc], ?_, ?_⟩
      · intro he
        have h1 := ((h.mem c).1 (by simp [hc])).2
        have : c = a := by rw [h1, he, ← ha.2]
        have h2 := hs.1 c (by simp [hc]); rw [this, Cand.before_irrefl] at h2; cases h2
      · intro he
        have h1 := ((h.mem c).1 (by simp [hc])).2
        have : c = b := by rw [h1, he, ← hb.2]
        have h2 := hs.2.1 c (by simp [hc]); rw [this, Cand.before_irrefl] at h2; cases h2
    · rintro ⟨hc, h1, h2⟩
      rcases List.mem_cons.1 hc with rfl | hc
      · exact absurd rfl h1
      · rcases List.mem_cons.1 hc with rfl | hc
        · exact absurd rfl h2
        · exact hc
  have hcand : ∀ i, IsCand (t ++ [N]) (t.length + 1) i ↔ i = t.length ∨ (IsCand t t.length i ∧ i ≠ a.index ∧ i ≠ b.index) := by
    intro i
    constructor
    · rintro ⟨h1, h2⟩
      by_cases he : i = t.length
      · exact .inl he
      · refine .inr ⟨⟨by omega, fun j hj hc => h2 j (by omega) ((isChild_append hj).2 hc)⟩, ?_⟩
        have h3 := h2 t.length (by omega)
        constructor <;> intro he <;> apply h3 <;> refine ⟨_, _, _, hNn, ?_⟩
        · exact .inl he
        · exact .inr he
    · rintro (rfl | ⟨h1, h2, h3⟩)
      · refine ⟨by omega, fun j hj hc => ?_⟩
        rcases Nat.lt_succ_iff_lt_or_eq.1 hj with hj | rfl
        · have := h.child_lt ((isChild_append hj).1 hc); omega
        · obtain ⟨n, c0, c1, hn, hi⟩ := hc
          rw [hNn, hN] at hn; cases hn
          rcases hi with hi | hi
          · have := ha.1.1; omega
          · have := hb.1.1; omega
      · refine ⟨by have := h1.1; omega, fun j hj hc => ?_⟩
        rcases Nat.lt_succ_iff_lt_or_eq.1 hj with hj | rfl
        · exact h1.2 j hj ((isChild_append hj).1 hc)
        · obtain ⟨n, c0, c1, hn, hi⟩ := hc
          rw [hNn, hN] at hn; cases hn
          rcases hi with hi | hi <;> contradiction
  have hkeyx : keyOf (t ++ [N]) t.length = x := by simp only [keyOf, hNn, hx]; rfl
  have hacount : a.count = (nodeOf t a.index).count := by have := congrArg Cand.count ha.2; simpa [keyOf] using this
  have hbcount : b.count = (nodeOf t b.index).count := by have := congrArg Cand.count hb.2; simpa [keyOf] using this
  have hmem : ∀ c, c ∈ insertCand x q ↔ c = x ∨ c ∈ q := by
    intro c; rw [(insertCand_perm _ _).mem_iff, List.mem_cons]
  have hbx : b.before x = true := by
    rw [Cand.before_iff]; have := hb.1.1; simp only [hx]; omega
  have hax : a.before x = true := Cand.before_trans hab hbx
  have hlen : (t ++ [N]).length = t.length + 1 := by simp
  refine ⟨?_, ?_, ?_, ?_, ?_, ?_, ?_, ?_⟩
  · have := h.len; rw [hlen, insertCand_length]; simp at this; omega
  · have := h.kle; rw [hlen]; omega
  · rw [insertCand_length]; omega
  · refine insertCand_sorted hs.2.2 fun y hy => ?_
    have := ((hq y).1 hy).1.1.1; simp only [hx]; omega
  · intro c
    rw [hmem, hlen, hcand]
    constructor
    · rintro (rfl | hc)
      · exact ⟨.inl rfl, hkeyx.symm⟩
      · have := (hq c).1 hc
        exact ⟨.inr ⟨this.1.1, this.2⟩, by rw [keyOf_append this.1.1.1]; exact this.1.2⟩
    · rintro ⟨hc | hc, he⟩
      · left; rw [he, hc, hkeyx]
      · right; rw [keyOf_append hc.1.1] at he; exact (hq c).2 ⟨⟨hc.1, he⟩, hc.2⟩
  · intro i hi
    obtain ⟨s, n, h'⟩ := h.leaf i hi
    exact ⟨s, n, by rw [nodeOf_append_lt (by have := h.kle; omega)]; exact h'⟩
  · intro m hm hml
    rw [hlen] at hml
    rcases Nat.lt_succ_iff_lt_or_eq.1 hml with hml | rfl
    · obtain ⟨a', b', h1, h2, h3, h4, h5⟩ := h.merges m hm hml
      have ha' := h2.1; have hb' := h3.1
      refine ⟨a', b', ?_, (isCand_append hml.le).2 h2, (isCand_append hml.le).2 h3, ?_, ?_⟩
      · rw [nodeOf_append_lt hml, nodeOf_append_lt (by omega), nodeOf_append_lt (by omega)]; exact h1
      · rw [keyOf_append (by omega), keyOf_append (by omega)]; exact h4
      · intro c hc hca hcb
        have hc' := (isCand_append hml.le).1 hc
        have := hc'.1
        rw [keyOf_append (by omega), keyOf_append (by omega)]; exact h5 c hc' hca hcb
    · refine ⟨a.index, b.index, ?_, (isCand_append le_rfl).2 ha.1, (isCand_append le_rfl).2 hb.1, ?_, ?_⟩
      · rw [hNn, nodeOf_append_lt ha.1.1, nodeOf_append_lt hb.1.1, ← hacount, ← hbcount]
      · rw [keyOf_append ha.1.1, keyOf_append hb.1.1, ← ha.2, ← hb.2]; exact hab
      · intro c hc hca hcb
        have hc' := (isCand_append le_rfl).1 hc
        rw [keyOf_append hb.1.1, keyOf_append hc'.1, ← hb.2]
        exact hs.2.1 _ ((hq (keyOf t c)).2 ⟨⟨hc', rfl⟩, hca, hcb⟩)
  · intro i hi hnc c hc
    rw [hlen] at hi hnc
    rw [hcand] at hnc
    push Not at hnc
    have hil : i < t.length := by omega
    rw [keyOf_append hil]
    have hkey : ∀ c ∈ a :: b :: q, i ≠ a.index → i ≠ b.index → (keyOf t i).before c = true := by
      intro c hc h1 h2
      refine h.early i hil (fun hcd => ?_) c hc
      exact h2 (hnc.2 hcd h1)
    rcases (hmem c).1 hc with rfl | hc
    · by_cases h1 : i = a.index
      · rw [h1, ← ha.2]; exact hax
      · by_cases h2 : i = b.index
        · rw [h2, ← hb.2]; exact hbx
        · exact Cand.before_trans (hkey b (by simp) h1 h2) hbx
    · by_cases h1 : i = a.index
      · rw [h1, ← ha.2]; exact hs.1 c (by simp [hc])
      · by_cases h2 : i = b.index
        · rw [h2, ← hb.2]; exact hs.2.1 c hc
        · exact hkey c (by simp [hc]) h1 h2

/-- The merge loop ends with one candidate and keeps the nodes it was given. -/
theorem mergeAll_inv {k : Nat} : ∀ (fuel : Nat) (q : List Cand) (t : List Node), MergeInv k q t → q.length ≤ fuel →
    ∃ c, MergeInv k [c] (mergeAll fuel q t) ∧ (mergeAll fuel q t).take t.length = t := by
  intro fuel
  induction fuel with
  | zero => intro q t h hf; have := h.qpos; omega
  | succ fuel ih =>
    intro q t h hf
    match q, h with
    | [], h => have := h.qpos; simp at this
    | [c], h => exact ⟨c, by simpa [mergeAll] using h, by simp [mergeAll]⟩
    | a :: b :: q, h =>
      obtain ⟨c, h1, h2⟩ := ih _ _ h.step (by rw [insertCand_length]; simp at hf; omega)
      refine ⟨c, h1, ?_⟩
      have := congrArg (List.take t.length) h2
      simp only [List.take_take] at this
      simpa [mergeAll] using this

/-- A symbol's count. -/
theorem countBytes_get (bytes : List Byte) (sym : Byte) :
    (countBytes bytes)[sym.toNat]'sym.isLt = bytes.count sym := by
  have h : (BitVec.ofNat 8 sym.toNat) = sym := by simp
  unfold countBytes
  rw [Vector.getElem_mk, List.getElem_toArray, List.getElem_map, List.getElem_range, h]

theorem mem_leavesFrom (n : Node) (ns : List Nat) (i : Nat) :
    n ∈ leavesFrom i ns ↔ ∃ j, ∃ h : j < ns.length, n = .leaf (BitVec.ofNat 8 (i + j)) ns[j] ∧ 0 < ns[j] := by
  induction ns generalizing i with
  | nil => simp [leavesFrom]
  | cons m ns ih =>
    have key : n ∈ leavesFrom i (m :: ns) ↔ (n = .leaf (BitVec.ofNat 8 i) m ∧ 0 < m) ∨ n ∈ leavesFrom (i + 1) ns := by
      show n ∈ (if 0 < m then .leaf (BitVec.ofNat 8 i) m :: leavesFrom (i + 1) ns else leavesFrom (i + 1) ns) ↔ _
      split
      · rename_i h; simp [h]
      · rename_i h; simp [h]
    rw [key, ih]
    constructor
    · rintro (h | ⟨j, hj, h⟩)
      · exact ⟨0, by simp, by simpa using h⟩
      · exact ⟨j + 1, by simp; omega, by simpa [Nat.add_assoc, Nat.add_comm 1] using h⟩
    · rintro ⟨j, hj, h⟩
      cases j with
      | zero => exact .inl (by simpa using h)
      | succ j => exact .inr ⟨j, by simpa using hj, by simpa [Nat.add_assoc, Nat.add_comm 1] using h⟩

/-- The leaves are those of the symbols with a positive count. -/
theorem mem_leavesOf (f : Counts) (n : Node) :
    n ∈ leavesOf f ↔ ∃ sym : Byte, n = .leaf sym (f[sym.toNat]'sym.isLt) ∧ 0 < f[sym.toNat]'sym.isLt := by
  rw [leavesOf, mem_leavesFrom]
  constructor
  · rintro ⟨j, hj, h⟩
    have hj' : j < 256 := by simpa using hj
    refine ⟨BitVec.ofNat 8 j, ?_⟩
    have : (BitVec.ofNat 8 j).toNat = j := by simp; omega
    simp only [this]
    simpa using h
  · rintro ⟨sym, h⟩
    exact ⟨sym.toNat, by simpa using sym.isLt, by simpa using h⟩

theorem leavesFrom_ascending (ns : List Nat) (i : Nat) (hi : i + ns.length ≤ 256) :
    (leavesFrom i ns).Pairwise fun a b =>
      ∀ sa na sb nb, a = .leaf sa na → b = .leaf sb nb → sa.toNat < sb.toNat := by
  induction ns generalizing i with
  | nil => simp [leavesFrom]
  | cons m ns ih =>
    have h := ih (i + 1) (by simp at hi; omega)
    show List.Pairwise _ (if 0 < m then .leaf (BitVec.ofNat 8 i) m :: leavesFrom (i + 1) ns else leavesFrom (i + 1) ns)
    split
    · rw [List.pairwise_cons]
      refine ⟨fun b hb sa na sb nb h1 h2 => ?_, h⟩
      obtain ⟨j, hj, h3, -⟩ := (mem_leavesFrom _ _ _).1 hb
      rw [h2] at h3; cases h1; cases h3
      simp only [List.length_cons] at hi
      simp only [BitVec.toNat_ofNat]
      omega
    · exact h

/-- The leaves stand in ascending symbol order. -/
theorem leavesOf_ascending (f : Counts) : (leavesOf f).Pairwise fun a b =>
    ∀ sa na sb nb, a = .leaf sa na → b = .leaf sb nb → sa.toNat < sb.toNat :=
  leavesFrom_ascending _ _ (by simp)

theorem leavesFrom_length_le (ns : List Nat) (i : Nat) : (leavesFrom i ns).length ≤ ns.length := by
  induction ns generalizing i with
  | nil => simp [leavesFrom]
  | cons m ns ih => unfold leavesFrom; split <;> have := ih (i + 1) <;> simp <;> omega

theorem leavesOf_length_le (f : Counts) : (leavesOf f).length ≤ 256 := by
  have := leavesFrom_length_le f.toList 0
  rw [Vector.length_toList] at this
  exact this

theorem nodeOf_mem {ns : List Node} {i : Nat} (h : i < ns.length) : nodeOf ns i ∈ ns := by
  simp only [nodeOf, List.getD, List.getElem?_eq_getElem h, Option.getD_some]
  exact List.getElem_mem h

/-- The invariant before the first round. -/
theorem leaves_mergeInv (f : Counts) (h : leavesOf f ≠ []) :
    MergeInv (leavesOf f).length (candidates 0 (leavesOf f)) (leavesOf f) := by
  have hleaf : ∀ i, i < (leavesOf f).length → ∃ sym n, nodeOf (leavesOf f) i = .leaf sym n := by
    intro i hi
    obtain ⟨sym, h1, -⟩ := (mem_leavesOf f _).1 (nodeOf_mem hi)
    exact ⟨_, _, h1⟩
  have hnoch : ∀ j i, ¬ IsChild (leavesOf f) j i := by
    intro j i hc
    obtain ⟨s, n, h1⟩ := hleaf j hc.lt
    obtain ⟨_, _, _, h2, -⟩ := hc
    rw [h1] at h2; cases h2
  have hcand : ∀ i, i < (leavesOf f).length → IsCand (leavesOf f) (leavesOf f).length i := fun i hi => ⟨hi, fun j _ => hnoch j i⟩
  refine ⟨?_, le_rfl, ?_, candidates_sorted _ _, ?_, hleaf, ?_, ?_⟩
  · rw [candidates_length]; omega
  · rw [candidates_length]; exact List.length_pos_iff.2 h
  · intro c
    rw [mem_candidates]
    constructor
    · rintro ⟨j, hj, h1, h2⟩
      rw [zero_add] at h1
      refine ⟨hcand _ (by omega), ?_⟩
      cases c; simp_all [keyOf]
    · rintro ⟨h1, h2⟩
      refine ⟨c.index, h1.1, by simp, ?_⟩
      have := congrArg Cand.count h2
      simpa [keyOf] using this
  · intro m h1 h2; omega
  · intro i hi hn; exact absurd (hcand i hi) hn

/-- All that BuildTree can do. -/
theorem buildTree_cases (f : Counts) : 
    (leavesOf f = [] ∧ buildTree f = none) ∨ 
    (∃ t c, buildTree f = some t ∧ MergeInv (leavesOf f).length [c] t ∧ t.take (leavesOf f).length = leavesOf f) := by
  by_cases h : leavesOf f = []
  · left; exact ⟨h, by simp [buildTree, h]⟩
  · right
    have hi := leaves_mergeInv f h
    obtain ⟨c, h1, h2⟩ := mergeAll_inv (leavesOf f).length _ _ hi (by rw [candidates_length])
    refine ⟨_, c, ?_, h1, h2⟩
    unfold buildTree
    generalize leavesOf f = L at h ⊢
    cases L with
    | nil => exact absurd rfl h
    | cons => rfl

theorem nodeOf_take {t : List Node} {i k : Nat} (h : i < k) : nodeOf (t.take k) i = nodeOf t i := by
  simp [nodeOf, List.getD, h]

/-- BuildTree leaves a greedy arena. -/
theorem buildTree_greedy {f : Counts} {t : List Node} (h : buildTree f = some t) :
    GreedyArena f t (leavesOf f).length := by
  rcases buildTree_cases f with ⟨-, h'⟩ | ⟨t', c, h', hi, htk⟩
  · rw [h'] at h; cases h
  rw [h'] at h; cases h
  have hlen := hi.len
  simp at hlen
  have hkle := hi.kle
  set k := (leavesOf f).length with hk
  have hn : ∀ i, i < k → nodeOf t i = nodeOf (leavesOf f) i := by
    intro i hi'; rw [← htk, nodeOf_take hi']
  have asc : ∀ i j si sj, i < j → j < k → IsLeafOf t i si → IsLeafOf t j sj → si.toNat < sj.toNat := by
    rintro i j si sj hij hj ⟨ni, h1⟩ ⟨nj, h2⟩
    rw [hn _ (by omega)] at h1; rw [hn _ hj] at h2
    have hp := List.pairwise_iff_getElem.1 (leavesOf_ascending f) i j (by omega) (by omega) hij
    refine hp si ni sj nj ?_ ?_
    · simpa [nodeOf, List.getD, List.getElem?_eq_getElem (show i < (leavesOf f).length by omega)] using h1
    · simpa [nodeOf, List.getD, List.getElem?_eq_getElem (show j < (leavesOf f).length by omega)] using h2
  refine ⟨by omega, ?_, ?_, asc, ?_⟩
  · intro i hi'
    rw [hn i hi']
    exact (mem_leavesOf f _).1 (nodeOf_mem (by omega))
  · intro sym hs
    have := (mem_leavesOf f (.leaf sym (f[sym.toNat]'sym.isLt))).2 ⟨sym, rfl, hs⟩
    obtain ⟨i, hil, he⟩ := List.getElem_of_mem this
    refine ⟨i, hil, f[sym.toNat]'sym.isLt, ?_⟩
    rw [hn i hil]; simp [nodeOf, List.getD, List.getElem?_eq_getElem hil, he]
  · intro m h1 h2
    exact hi.merges m h1 (by omega)

/-- A built arena has at most 511 nodes (R31). -/
theorem buildTree_length_le {f : Counts} {t : List Node} (h : buildTree f = some t) : t.length ≤ 511 := by
  have h1 := (buildTree_greedy h).size
  have h2 := leavesOf_length_le f
  omega

end Sys2Proof.Machine
end

