-- ==== Sys2Proof/Laws/Arena.lean ====
section
/-! SUPPORT. Arenas: paths, what a greedy arena (R140) implies for parents, keys and depths, and sums over the candidates at each merge. -/

namespace Sys2Proof.Machine

/-! ### Paths -/

/-- A path leads to one node. -/
theorem PathTo.functional {t : List Node} {p : Bits} {i j j' : Nat} (h : PathTo t i p j) (h' : PathTo t i p j') : j = j' := by
  induction p generalizing i with
  | nil => exact (show i = j from h).symm.trans h'
  | cons b p ih =>
    obtain ⟨n, c0, c1, h1, h2⟩ := h
    obtain ⟨n', c0', c1', h1', h2'⟩ := h'
    rw [h1] at h1'; cases h1'
    exact ih h2 h2'

theorem pathTo_append {t : List Node} {p q : Bits} {i j : Nat} : PathTo t i (p ++ q) j ↔ ∃ m, PathTo t i p m ∧ PathTo t m q j := by
  induction p generalizing i with
  | nil => simp [PathTo]
  | cons b p ih =>
    simp only [List.cons_append, PathTo, ih]
    constructor
    · rintro ⟨n, c0, c1, h, m, h1, h2⟩; exact ⟨m, ⟨n, c0, c1, h, h1⟩, h2⟩
    · rintro ⟨m, ⟨n, c0, c1, h, h1⟩, h2⟩; exact ⟨n, c0, c1, h, m, h1, h2⟩

theorem pathTo_snoc {t : List Node} {p : Bits} {b : Bool} {i j : Nat} : PathTo t i (p ++ [b]) j ↔
    ∃ m n c0 c1, PathTo t i p m ∧ nodeOf t m = .internal n c0 c1 ∧ j = if b then c1 else c0 := by
  rw [pathTo_append]
  simp only [PathTo]
  constructor
  · rintro ⟨m, h1, n, c0, c1, h2, h3⟩; exact ⟨m, n, c0, c1, h1, h2, h3.symm⟩
  · rintro ⟨m, n, c0, c1, h1, h2, h3⟩; exact ⟨m, h1, n, c0, c1, h2, h3.symm⟩

/-! ### Greedy arenas -/

variable {f : Counts} {t : List Node} {k : Nat}

/-- Parents are internal and stand above their children. -/
theorem GreedyArena.child_lt (h : GreedyArena f t k) {j i} (hc : IsChild t j i) : k ≤ j ∧ i < j := by
  have hj := hc.lt
  obtain ⟨n, a, b, hn, hi⟩ := hc
  by_cases hk : j < k
  · obtain ⟨s, h', -⟩ := h.leaves j hk; rw [h'] at hn; cases hn
  · obtain ⟨a', b', h', ha, hb, -⟩ := h.merges j (by omega) (by have := h.size; omega)
    rw [h'] at hn; cases hn
    rcases hi with rfl | rfl
    · exact ⟨by omega, ha.1⟩
    · exact ⟨by omega, hb.1⟩

/-- Internal counts do not decrease with the index, one step. -/
theorem GreedyArena.succ_mono (h : GreedyArena f t k) {m : Nat} (hm : k ≤ m) (hm' : m + 1 < 2 * k - 1) :
    (nodeOf t m).count ≤ (nodeOf t (m+1)).count := by
  obtain ⟨a, b, h1, h2, h3, h4, h5⟩ := h.merges m hm (by omega)
  obtain ⟨a', b', h1', h2', h3', h4', h5'⟩ := h.merges (m+1) (by omega) hm'
  have key : ∀ c, IsCand t (m+1) c → c = m ∨ (IsCand t m c ∧ c ≠ a ∧ c ≠ b) := by
    intro c hc
    by_cases hcm : c = m
    · exact .inl hcm
    · refine .inr ⟨⟨by have := hc.1; omega, fun j hj => hc.2 j (by omega)⟩, ?_, ?_⟩ <;> rintro rfl
      · exact hc.2 m (by omega) ⟨_, _, _, h1, .inl rfl⟩
      · exact hc.2 m (by omega) ⟨_, _, _, h1, .inr rfl⟩
  have hb : ∀ c, IsCand t (m+1) c → (nodeOf t b).count ≤ (nodeOf t c).count := by
    intro c hc
    rcases key c hc with rfl | ⟨hc, hca, hcb⟩
    · rw [h1]; simp [Node.count]
    · have := h5 c hc hca hcb
      rw [Cand.before_iff] at this; simp [keyOf] at this; omega
  have ha := hb a' h2'
  have hb' := hb b' h3'
  rw [Cand.before_iff] at h4; simp [keyOf] at h4
  have e1 : (nodeOf t m).count = (nodeOf t a).count + (nodeOf t b).count := by rw [h1]; simp [Node.count]
  have e2 : (nodeOf t (m+1)).count = (nodeOf t a').count + (nodeOf t b').count := by rw [h1']; simp [Node.count]
  omega

/-- Internal counts do not decrease with the index. -/
theorem GreedyArena.mono (h : GreedyArena f t k) {i j : Nat} (hi : k ≤ i) (hij : i ≤ j) (hj : j < 2 * k - 1) :
    (nodeOf t i).count ≤ (nodeOf t j).count := by
  induction j, hij using Nat.le_induction with
  | base => exact le_rfl
  | succ j hij ih => exact (ih (by omega)).trans (h.succ_mono (by omega) hj)

/-- The two children of an internal node. -/
theorem GreedyArena.child_iff (h : GreedyArena f t k) {m : Nat} (hm : k ≤ m) (hm' : m < 2 * k - 1) :
    ∃ a b, nodeOf t m = .internal ((nodeOf t a).count + (nodeOf t b).count) a b ∧ (keyOf t a).before (keyOf t b) = true ∧
    IsCand t m a ∧ IsCand t m b ∧ ∀ i, IsChild t m i ↔ i = a ∨ i = b := by
  obtain ⟨a, b, h1, h2, h3, h4, h5⟩ := h.merges m hm hm'
  refine ⟨a, b, h1, h4, h2, h3, fun i => ⟨?_, fun hi => ⟨_, _, _, h1, hi⟩⟩⟩
  rintro ⟨n, c0, c1, hn, hi⟩
  rw [h1] at hn; cases hn; exact hi

/-- No node has two parents. -/
theorem GreedyArena.parent_unique (h : GreedyArena f t k) {j j' i : Nat} (h1 : IsChild t j i) (h2 : IsChild t j' i) : j = j' := by
  wlog hlt : j < j' generalizing j j'
  · rcases Nat.lt_trichotomy j j' with hc | hc | hc
    · exact absurd hc hlt
    · exact hc
    · exact (this h2 h1 hc).symm
  exfalso
  have hk := h.child_lt h2
  have hl := h2.lt
  obtain ⟨a, b, h3, -, h4, h5, h6⟩ := h.child_iff hk.1 (by have := h.size; omega)
  rcases (h6 i).1 h2 with rfl | rfl
  · exact h4.2 j hlt h1
  · exact h5.2 j hlt h1

/-- The candidates when node `m` is about to be created, as a finite set. -/
noncomputable def candSet (t : List Node) (m : Nat) : Finset Nat := by
  classical exact (Finset.range m).filter fun i => IsCand t m i

theorem mem_candSet {m i : Nat} : i ∈ candSet t m ↔ IsCand t m i := by
  simp [candSet]; intro h; exact h.1

/-- Each merge leaves one candidate fewer. -/
theorem GreedyArena.card_cand (h : GreedyArena f t k) {m : Nat} (hm : k ≤ m) (hm' : m ≤ 2 * k - 1) : (candSet t m).card + m = 2 * k := by
  induction m, hm using Nat.le_induction with
  | base =>
    have : candSet t k = Finset.range k := by
      ext i; rw [mem_candSet]; simp only [Finset.mem_range]
      refine ⟨fun hc => hc.1, fun hi => ⟨hi, fun j hj hc => ?_⟩⟩
      have := h.child_lt hc; omega
    rw [this]; simp; omega
  | succ m hm ih =>
    have ih := ih (by omega)
    obtain ⟨a, b, h1, h4, h2, h3, h6⟩ := h.child_iff hm (by omega)
    have hab : a ≠ b := by rintro rfl; rw [Cand.before_irrefl] at h4; cases h4
    have : candSet t (m+1) = insert m (((candSet t m).erase a).erase b) := by
      ext i
      rw [mem_candSet, Finset.mem_insert, Finset.mem_erase, Finset.mem_erase, mem_candSet]
      constructor
      · intro hc
        by_cases him : i = m
        · exact .inl him
        · refine .inr ⟨?_, ?_, ⟨by have := hc.1; omega, fun j hj => hc.2 j (by omega)⟩⟩ <;> rintro rfl
          · exact hc.2 m (by omega) ((h6 _).2 (.inr rfl))
          · exact hc.2 m (by omega) ((h6 _).2 (.inl rfl))
      · rintro (rfl | ⟨h7, h8, h9⟩)
        · exact ⟨by omega, fun j hj hc => by have := h.child_lt hc; omega⟩
        · refine ⟨by have := h9.1; omega, fun j hj hc => ?_⟩
          rcases Nat.lt_succ_iff_lt_or_eq.1 hj with hj | rfl
          · exact h9.2 j hj hc
          · rcases (h6 i).1 hc with rfl | rfl <;> contradiction
    rw [this, Finset.card_insert_of_notMem, Finset.card_erase_of_mem, Finset.card_erase_of_mem]
    · have hge : 2 ≤ (candSet t m).card := by omega
      omega
    · exact mem_candSet.2 h2
    · rw [Finset.mem_erase]; exact ⟨hab.symm, mem_candSet.2 h3⟩
    · simp only [Finset.mem_erase, mem_candSet]; intro hc; have := hc.2.2.1; omega

/-- Every node but the root has a parent. -/
theorem GreedyArena.has_parent (h : GreedyArena f t k) {i : Nat} (hi : i < 2 * k - 2) : ∃ j, IsChild t j i := by
  have hk := h.size
  have hc := h.card_cand (m := 2 * k - 1) (by omega) le_rfl
  have hone : (candSet t (2*k-1)).card = 1 := by omega
  by_contra hn
  push Not at hn
  have h1 : i ∈ candSet t (2*k-1) := mem_candSet.2 ⟨by omega, fun j _ => hn j⟩
  have h2 : 2*k-2 ∈ candSet t (2*k-1) := mem_candSet.2 ⟨by omega, fun j hj hc => by have := h.child_lt hc; omega⟩
  have := Finset.card_le_one.1 hone.le _ h1 _ h2
  omega

theorem GreedyArena.children_ne (h : GreedyArena f t k) {m n a b} (hm : nodeOf t m = .internal n a b) : a ≠ b ∧ n = (nodeOf t a).count + (nodeOf t b).count ∧ (keyOf t a).before (keyOf t b) = true := by
  have hc : IsChild t m a := ⟨n, a, b, hm, .inl rfl⟩
  have hk := (h.child_lt hc).1
  have hl := hc.lt
  obtain ⟨a', b', h3, h4, -⟩ := h.child_iff hk (by have := h.size; omega)
  rw [hm] at h3; cases h3
  refine ⟨?_, rfl, h4⟩
  rintro rfl; rw [Cand.before_irrefl] at h4; cases h4

/-- A path leads downwards, and through as many internal nodes as it has bits. -/
theorem GreedyArena.path_le (h : GreedyArena f t k) {p i j} (hp : PathTo t i p j) : j ≤ i ∧ (p ≠ [] → k ≤ i ∧ p.length ≤ i + 1 - k) := by
  induction p generalizing i with
  | nil => exact ⟨(show i = j from hp).ge, fun h => absurd rfl h⟩
  | cons b p ih =>
    obtain ⟨n, c0, c1, h1, h2⟩ := hp
    have hc : IsChild t i (if b then c1 else c0) := ⟨n, c0, c1, h1, by cases b <;> simp⟩
    have h3 := h.child_lt hc
    obtain ⟨h4, h5⟩ := ih h2
    refine ⟨by omega, fun _ => ⟨h3.1, ?_⟩⟩
    by_cases hp : p = []
    · subst hp; simp; omega
    · have := h5 hp; simp; omega

/-- A node has one path from the root. -/
theorem GreedyArena.path_unique (h : GreedyArena f t k) {p p' i} (hp : PathTo t (2*k-2) p i) (hp' : PathTo t (2*k-2) p' i) : p = p' := by
  induction p using List.reverseRecOn generalizing p' i with
  | nil =>
    have hi : 2*k-2 = i := hp
    rcases List.eq_nil_or_concat p' with rfl | ⟨q, b, rfl⟩
    · rfl
    · exfalso
      rw [List.concat_eq_append] at hp'
      obtain ⟨m, n, c0, c1, h1, h2, h3⟩ := pathTo_snoc.1 hp'
      have h4 := h.child_lt (j := m) (i := i) ⟨n, c0, c1, h2, by cases b <;> simp_all⟩
      have := (h.path_le h1).1; omega
  | append_singleton p b ih =>
    obtain ⟨m, n, c0, c1, h1, h2, h3⟩ := pathTo_snoc.1 hp
    have hc : IsChild t m i := ⟨n, c0, c1, h2, by cases b <;> simp_all⟩
    rcases List.eq_nil_or_concat p' with rfl | ⟨q, b', rfl⟩
    · exfalso
      have hi : 2*k-2 = i := hp'
      have h4 := h.child_lt hc
      have := (h.path_le h1).1; omega
    · rw [List.concat_eq_append] at hp' ⊢
      obtain ⟨m', n', c0', c1', h1', h2', h3'⟩ := pathTo_snoc.1 hp'
      have hc' : IsChild t m' i := ⟨n', c0', c1', h2', by cases b' <;> simp_all⟩
      have := h.parent_unique hc hc'
      subst this
      rw [h2] at h2'; cases h2'
      rw [ih h1 h1']
      have hne := (h.children_ne h2).1
      have : b = b' := by
        cases b <;> cases b' <;> simp_all
      rw [this]

/-- Every node has a path from the root. -/
theorem GreedyArena.path_exists (h : GreedyArena f t k) {i} (hi : i ≤ 2*k-2) : ∃ p, PathTo t (2*k-2) p i := by
  induction hd : 2*k-2-i using Nat.strong_induction_on generalizing i with
  | _ d ih =>
    by_cases he : i = 2*k-2
    · exact ⟨[], he.symm⟩
    · obtain ⟨j, hj⟩ := h.has_parent (i := i) (by omega)
      have h1 := h.child_lt hj
      have h2 := hj.lt
      have := h.size
      obtain ⟨p, hp⟩ := ih (2*k-2-j) (by omega) (i := j) (by omega) rfl
      obtain ⟨n, c0, c1, h3, h4⟩ := hj
      rcases h4 with rfl | rfl
      · exact ⟨p ++ [false], pathTo_snoc.2 ⟨j, n, _, c1, hp, h3, by simp⟩⟩
      · exact ⟨p ++ [true], pathTo_snoc.2 ⟨j, n, c0, _, hp, h3, by simp⟩⟩

theorem GreedyArena.leaf_lt (h : GreedyArena f t k) {i sym n} (hl : nodeOf t i = .leaf sym n) : i < k := by
  by_contra hk
  by_cases hi : i < 2*k-1
  · obtain ⟨a, b, h1, -⟩ := h.merges i (by omega) hi
    rw [hl] at h1; cases h1
  · rw [nodeOf_ge (by have := h.size; omega)] at hl; cases hl

/-- A symbol has one leaf. -/
theorem GreedyArena.leaf_unique (h : GreedyArena f t k) {i j sym} (hi : IsLeafOf t i sym) (hj : IsLeafOf t j sym) : i = j := by
  obtain ⟨ni, h1⟩ := hi
  obtain ⟨nj, h2⟩ := hj
  have h3 := h.leaf_lt h1
  have h4 := h.leaf_lt h2
  rcases Nat.lt_trichotomy i j with hc | hc | hc
  · exact absurd (h.ascending i j sym sym hc h4 ⟨_, h1⟩ ⟨_, h2⟩) (lt_irrefl _)
  · exact hc
  · exact absurd (h.ascending j i sym sym hc h3 ⟨_, h2⟩ ⟨_, h1⟩) (lt_irrefl _)

theorem GreedyArena.leaf_count (h : GreedyArena f t k) {i sym n} (hl : nodeOf t i = .leaf sym n) : n = f[sym.toNat]'sym.isLt ∧ 0 < n := by
  obtain ⟨s, h1, h2⟩ := h.leaves i (h.leaf_lt hl)
  rw [hl] at h1; cases h1; exact ⟨rfl, h2⟩

/-! ### Keys and depths -/
theorem GreedyArena.child_key (h : GreedyArena f t k) {j i} (hc : IsChild t j i) : (keyOf t i).before (keyOf t j) = true := by
  have h1 := h.child_lt hc
  obtain ⟨n, a, b, h2, hi⟩ := hc
  have h3 := h.children_ne h2
  have e : (nodeOf t j).count = n := by rw [h2]; rfl
  rw [Cand.before_iff] at h3 ⊢
  simp only [keyOf, e] at h3 ⊢
  rcases hi with rfl | rfl <;> omega

theorem GreedyArena.key_root (h : GreedyArena f t k) {i} (hi : i < 2*k-2) : (keyOf t i).before (keyOf t (2*k-2)) = true := by
  obtain ⟨j, hj⟩ := h.has_parent hi
  have h1 := h.child_key hj
  have h2 := h.child_lt hj
  have h3 := hj.lt
  have hs := h.size
  have h4 := h.mono (j := 2*k-2) h2.1 (by omega) (by omega)
  rw [Cand.before_iff] at *; simp only [keyOf] at *; omega

/-- Nodes are merged in the order of their keys. -/
theorem GreedyArena.parent_mono (h : GreedyArena f t k) {x y jx jy} (hx : IsChild t jx x) (hy : IsChild t jy y)
    (hxy : (keyOf t x).before (keyOf t y) = true) : jx ≤ jy := by
  by_contra hlt
  push Not at hlt
  have hyk := h.child_lt hy
  have hyl := hy.lt
  have hs := h.size
  obtain ⟨a, b, h1, h2, h3, h4, h5⟩ := h.merges jy hyk.1 (by omega)
  have hyab : y = a ∨ y = b := by
    obtain ⟨n, c0, c1, h6, h7⟩ := hy
    rw [h1] at h6; cases h6; exact h7
  have hab : (keyOf t a).before (keyOf t b) = true := h4
  by_cases hxj : x < jy
  · have hcand : IsCand t jy x := ⟨hxj, fun j hj hc => by have := h.parent_unique hc hx; omega⟩
    have hxa : x ≠ a := by
      rintro rfl
      have := h.parent_unique hx ⟨_, _, _, h1, .inl rfl⟩; omega
    have hxb : x ≠ b := by
      rintro rfl
      have := h.parent_unique hx ⟨_, _, _, h1, .inr rfl⟩; omega
    have := h5 x hcand hxa hxb
    rw [Cand.before_iff] at *; simp only [keyOf] at *
    rcases hyab with rfl | rfl <;> omega
  · have h6 := h.child_key hy
    have hxl : x < 2*k-1 := by have := (h.child_lt hx).2; have := hx.lt; omega
    have := h.mono (i := jy) (j := x) hyk.1 (by omega) hxl
    rw [Cand.before_iff] at *; simp only [keyOf] at *; omega

/-- A node of lesser key lies no higher. -/
theorem GreedyArena.depth_anti (h : GreedyArena f t k) {x y p q} (hx : PathTo t (2*k-2) p x) (hy : PathTo t (2*k-2) q y)
    (hxy : x = y ∨ (keyOf t x).before (keyOf t y) = true) : q.length ≤ p.length := by
  induction q using List.reverseRecOn generalizing x y p with
  | nil => simp
  | append_singleton q b ih =>
    rcases hxy with rfl | hxy
    · rw [h.path_unique hx hy]
    · have hy' := hy
      obtain ⟨m, n, c0, c1, h1, h2, h3⟩ := pathTo_snoc.1 hy
      have hcy : IsChild t m y := ⟨n, c0, c1, h2, by cases b <;> simp_all⟩
      rcases List.eq_nil_or_concat p with rfl | ⟨p', b', rfl⟩
      · exfalso
        have hxr : 2*k-2 = x := hx
        subst hxr
        have h4 := (h.child_lt hcy).2
        have h5 := (h.path_le h1).1
        have := h.key_root (i := y) (by omega)
        rw [Cand.before_iff] at *; omega
      · rw [List.concat_eq_append] at hx ⊢
        obtain ⟨m', n', c0', c1', h1', h2', h3'⟩ := pathTo_snoc.1 hx
        have hcx : IsChild t m' x := ⟨n', c0', c1', h2', by cases b' <;> simp_all⟩
        have hle := h.parent_mono hcx hcy hxy
        have := ih h1' h1 (by
          rcases Nat.lt_or_eq_of_le hle with hlt | he
          · right
            have h6 := (h.child_lt hcx).1
            have h7 := hcy.lt
            have := h.mono h6 hle (by have := h.size; omega)
            rw [Cand.before_iff]; simp only [keyOf]; omega
          · exact .inl he)
        simp; omega

/-! ### Sums over the candidates -/
/-- Creating node `m` trades its two children for itself in any sum over the candidates. -/
theorem GreedyArena.frontier (h : GreedyArena f t k) {M} [AddCommMonoid M] (g : Nat → M) {m} (hm : k ≤ m) (hm' : m < 2*k-1) :
    ∃ a b n, nodeOf t m = .internal n a b ∧ ((candSet t m).sum g + g m = (candSet t (m+1)).sum g + (g a + g b)) := by
  obtain ⟨a, b, h1, h4, h2, h3, h6⟩ := h.child_iff hm hm'
  have hab : a ≠ b := by rintro rfl; rw [Cand.before_irrefl] at h4; cases h4
  have hset : candSet t (m+1) = insert m (((candSet t m).erase a).erase b) := by
    ext i
    rw [mem_candSet, Finset.mem_insert, Finset.mem_erase, Finset.mem_erase, mem_candSet]
    constructor
    · intro hc
      by_cases him : i = m
      · exact .inl him
      · refine .inr ⟨?_, ?_, ⟨by have := hc.1; omega, fun j hj => hc.2 j (by omega)⟩⟩ <;> rintro rfl
        · exact hc.2 m (by omega) ((h6 _).2 (.inr rfl))
        · exact hc.2 m (by omega) ((h6 _).2 (.inl rfl))
    · rintro (rfl | ⟨h7, h8, h9⟩)
      · exact ⟨by omega, fun j hj hc => by have := h.child_lt hc; omega⟩
      · refine ⟨by have := h9.1; omega, fun j hj hc => ?_⟩
        rcases Nat.lt_succ_iff_lt_or_eq.1 hj with hj | rfl
        · exact h9.2 j hj hc
        · rcases (h6 i).1 hc with rfl | rfl <;> contradiction
  refine ⟨a, b, _, h1, ?_⟩
  rw [hset, Finset.sum_insert (by simp only [Finset.mem_erase, mem_candSet]; intro hc; have := hc.2.2.1; omega)]
  rw [← Finset.sum_erase_add _ _ (mem_candSet.2 h2), ← Finset.sum_erase_add _ _ (Finset.mem_erase.2 ⟨hab.symm, mem_candSet.2 h3⟩)]
  abel

theorem GreedyArena.candSet_top (h : GreedyArena f t k) : candSet t (2*k-1) = {2*k-2} := by
  have hs := h.size
  have hc := h.card_cand (m := 2 * k - 1) (by omega) le_rfl
  have hone : (candSet t (2*k-1)).card = 1 := by omega
  obtain ⟨x, hx⟩ := Finset.card_eq_one.1 hone
  have h2 : 2*k-2 ∈ candSet t (2*k-1) := mem_candSet.2 ⟨by omega, fun j hj hc => by have := h.child_lt hc; omega⟩
  rw [hx] at h2 ⊢; simp at h2; rw [h2]

theorem GreedyArena.candSet_bot (h : GreedyArena f t k) : candSet t k = Finset.range k := by
  ext i; rw [mem_candSet]; simp only [Finset.mem_range]
  refine ⟨fun hc => hc.1, fun hi => ⟨hi, fun j hj hc => ?_⟩⟩
  have := h.child_lt hc; omega

theorem GreedyArena.sum_count (h : GreedyArena f t k) : ((Finset.range k).sum fun i => (nodeOf t i).count) = (nodeOf t (2*k-2)).count := by
  have key : ∀ m, k ≤ m → m ≤ 2*k-1 → ((candSet t m).sum fun i => (nodeOf t i).count) = ((candSet t k).sum fun i => (nodeOf t i).count) := by
    intro m hm
    induction m, hm using Nat.le_induction with
    | base => intro _; rfl
    | succ m hm ih =>
      intro hm'
      rw [← ih (by omega)]
      obtain ⟨a, b, n, h1, h2⟩ := h.frontier (fun i => (nodeOf t i).count) hm (by omega)
      have h3 := (h.children_ne h1).2.1
      simp only [h1, Node.count] at h2 h3 ⊢
      omega
  have hs := h.size
  have := key (2*k-1) (by omega) le_rfl
  rw [h.candSet_top, h.candSet_bot] at this
  simpa using this.symm

/-- The length of the path from `r` to `i`; 0 where there is none. -/
noncomputable def depthOf (t : List Node) (r i : Nat) : Nat := by
  classical exact if h : ∃ p, PathTo t r p i then (Classical.choose h).length else 0

theorem GreedyArena.depthOf_eq (h : GreedyArena f t k) {p i} (hp : PathTo t (2*k-2) p i) : depthOf t (2*k-2) i = p.length := by
  have hex : ∃ p, PathTo t (2*k-2) p i := ⟨p, hp⟩
  unfold depthOf
  rw [dif_pos hex, h.path_unique (Classical.choose_spec hex) hp]

theorem GreedyArena.depth_child (h : GreedyArena f t k) {m n a b} (hm : nodeOf t m = .internal n a b) (hm' : m ≤ 2*k-2) :
    depthOf t (2*k-2) a = depthOf t (2*k-2) m + 1 ∧ depthOf t (2*k-2) b = depthOf t (2*k-2) m + 1 := by
  obtain ⟨p, hp⟩ := h.path_exists hm'
  rw [h.depthOf_eq hp]
  rw [h.depthOf_eq (pathTo_snoc.2 ⟨m, n, a, b, hp, hm, show a = if false then b else a by simp⟩),
    h.depthOf_eq (pathTo_snoc.2 ⟨m, n, a, b, hp, hm, show b = if true then b else a by simp⟩)]
  simp

theorem GreedyArena.depth_lt (h : GreedyArena f t k) {i} (hi : i ≤ 2*k-2) : depthOf t (2*k-2) i ≤ k - 1 := by
  obtain ⟨p, hp⟩ := h.path_exists hi
  rw [h.depthOf_eq hp]
  have hs := h.size
  by_cases hn : p = []
  · subst hn; simp
  · have := (h.path_le hp).2 hn; omega

theorem GreedyArena.kraft (h : GreedyArena f t k) {N : Nat} (hN : k - 1 ≤ N) :
    ((Finset.range k).sum fun i => 2 ^ (N - depthOf t (2*k-2) i)) = 2 ^ N := by
  have hs := h.size
  have key : ∀ m, k ≤ m → m ≤ 2*k-1 → ((candSet t m).sum fun i => 2 ^ (N - depthOf t (2*k-2) i)) = ((candSet t k).sum fun i => 2 ^ (N - depthOf t (2*k-2) i)) := by
    intro m hm
    induction m, hm using Nat.le_induction with
    | base => intro _; rfl
    | succ m hm ih =>
      intro hm'
      rw [← ih (by omega)]
      obtain ⟨a, b, n, h1, h2⟩ := h.frontier (fun i => 2 ^ (N - depthOf t (2*k-2) i)) hm (by omega)
      obtain ⟨h3, h4⟩ := h.depth_child h1 (by omega)
      have hca := (h.child_lt (j := m) (i := a) ⟨_, _, _, h1, .inl rfl⟩).2
      have h5 := h.depth_lt (i := a) (by omega)
      simp only [h3, h4] at h2 h5
      have : 2 ^ (N - depthOf t (2*k-2) m) = 2 ^ (N - (depthOf t (2*k-2) m + 1)) + 2 ^ (N - (depthOf t (2*k-2) m + 1)) := by
        rw [← two_mul, ← pow_succ']; congr 1; omega
      omega
  have := key (2*k-1) (by omega) le_rfl
  rw [h.candSet_top, h.candSet_bot] at this
  rw [← this]; simp
  rw [h.depthOf_eq (p := []) rfl]; simp

theorem GreedyArena.weighted (h : GreedyArena f t k) :
    ((Finset.range k).sum fun i => (nodeOf t i).count * depthOf t (2*k-2) i) = (Finset.Ico k (2*k-1)).sum fun i => (nodeOf t i).count := by
  have hs := h.size
  have key : ∀ m, k ≤ m → m ≤ 2*k-1 → ((candSet t k).sum fun i => (nodeOf t i).count * depthOf t (2*k-2) i) = 
     ((candSet t m).sum fun i => (nodeOf t i).count * depthOf t (2*k-2) i) + (Finset.Ico k m).sum fun i => (nodeOf t i).count := by
    intro m hm
    induction m, hm using Nat.le_induction with
    | base => intro _; simp
    | succ m hm ih =>
      intro hm'
      rw [ih (by omega), Finset.sum_Ico_succ_top hm]
      obtain ⟨a, b, n, h1, h2⟩ := h.frontier (fun i => (nodeOf t i).count * depthOf t (2*k-2) i) hm (by omega)
      obtain ⟨h3, h4⟩ := h.depth_child h1 (by omega)
      have h5 := (h.children_ne h1).2.1
      simp only [h3, h4, h1, Node.count] at h2 h5 ⊢
      rw [h5] at h2 ⊢
      nlinarith
  have := key (2*k-1) (by omega) le_rfl
  rw [h.candSet_top, h.candSet_bot] at this
  rw [this]; simp
  rw [h.depthOf_eq (p := []) rfl]; simp

end Sys2Proof.Machine
end

