-- ==== Sys2Proof/Laws/Bus.lean ====
section
/-! SUPPORT. The host bus: all that one read and one write can do, and the single registers' addresses. -/

namespace Sys2Proof.Machine

@[simp] theorem locate_ctrl (p : Params) : locate p 0x000000#21 = .ctrl := rfl
@[simp] theorem locate_status (p : Params) : locate p 0x000001#21 = .status := rfl
@[simp] theorem locate_cmd (p : Params) : locate p 0x000002#21 = .cmd := rfl
@[simp] theorem locate_inLen (p : Params) : locate p 0x000003#21 = .inLen := rfl
@[simp] theorem locate_decCount (p : Params) : locate p 0x000004#21 = .decCount := rfl
@[simp] theorem locate_outLen (p : Params) : locate p 0x000005#21 = .outLen := rfl
@[simp] theorem locate_result (p : Params) : locate p 0x000006#21 = .result := rfl
@[simp] theorem locate_errIndex (p : Params) : locate p 0x000007#21 = .errIndex := rfl
@[simp] theorem locate_errSymbol (p : Params) : locate p 0x000008#21 = .errSymbol := rfl
@[simp] theorem locate_nodeCount (p : Params) : locate p 0x000009#21 = .nodeCount := rfl
@[simp] theorem locate_root (p : Params) : locate p 0x00000A#21 = .root := rfl
@[simp] theorem locate_capIn (p : Params) : locate p 0x00000B#21 = .capIn := rfl
@[simp] theorem locate_capOut (p : Params) : locate p 0x00000C#21 = .capOut := rfl
@[simp] theorem locate_capBc (p : Params) : locate p 0x00000D#21 = .capBc := rfl
@[simp] theorem locate_capMisc (p : Params) : locate p 0x00000E#21 = .capMisc := rfl

/-- A number of 21 bits as an address. -/
theorem addr_toNat {n : Nat} (h : n < 2 ^ 21) : (BitVec.ofNat 21 n).toNat = n := by
  rw [BitVec.toNat_ofNat, Nat.mod_eq_of_lt h]

/-! Each indexed row at its address (R62). -/

theorem locate_bcLen {p : Params} {c : CIdx} (hc : containerExists p c = true) :
    locate p (BitVec.ofNat 21 (0x000010 + c.val)) = .bcLen c := by
  have := c.isLt
  simp only [containerExists, decide_eq_true_eq] at hc
  simp only [locate, addr_toNat (show 0x000010 + c.val < 2 ^ 21 by omega)]
  rw [if_neg (by omega), if_pos (by omega), if_pos (by omega)]
  simp [cidxOf, Nat.mod_eq_of_lt this]

theorem locate_bcPos {p : Params} {c : CIdx} (hc : containerExists p c = true) :
    locate p (BitVec.ofNat 21 (0x000020 + c.val)) = .bcPos c := by
  have := c.isLt
  simp only [containerExists, decide_eq_true_eq] at hc
  simp only [locate, addr_toNat (show 0x000020 + c.val < 2 ^ 21 by omega)]
  rw [if_neg (by omega), if_neg (by omega), if_pos (by omega), if_pos (by omega)]
  simp [cidxOf, Nat.mod_eq_of_lt this]

theorem locate_freq (p : Params) (sym : Byte) : locate p (BitVec.ofNat 21 (0x000100 + sym.toNat)) = .freq sym := by
  have := sym.isLt
  simp only [locate, addr_toNat (show 0x000100 + sym.toNat < 2 ^ 21 by omega)]
  repeat rw [if_neg (by omega)]
  rw [if_pos (by omega)]
  simp

theorem locate_ctInfo (p : Params) (sym : Byte) :
    locate p (BitVec.ofNat 21 (0x000200 + sym.toNat)) = .ctInfo sym := by
  have := sym.isLt
  simp only [locate, addr_toNat (show 0x000200 + sym.toNat < 2 ^ 21 by omega)]
  repeat rw [if_neg (by omega)]
  rw [if_pos (by omega)]
  simp

theorem locate_nodeA (p : Params) {i : Nat} (h : i < 512) : locate p (BitVec.ofNat 21 (0x000400 + i)) = .nodeA i := by
  simp only [locate, addr_toNat (show 0x000400 + i < 2 ^ 21 by omega)]
  repeat rw [if_neg (by omega)]
  rw [if_pos (by omega)]
  simp

theorem locate_nodeB (p : Params) {i : Nat} (h : i < 512) : locate p (BitVec.ofNat 21 (0x000600 + i)) = .nodeB i := by
  simp only [locate, addr_toNat (show 0x000600 + i < 2 ^ 21 by omega)]
  repeat rw [if_neg (by omega)]
  rw [if_pos (by omega)]
  simp

theorem locate_inByte {p : Params} (hp : p.legal = true) {i : Nat} (h : i < p.inCap) :
    locate p (BitVec.ofNat 21 (0x010000 + i)) = .inByte i := by
  simp only [Params.legal, decide_eq_true_eq] at hp
  simp only [locate, addr_toNat (show 0x010000 + i < 2 ^ 21 by omega)]
  repeat rw [if_neg (by omega)]
  rw [if_pos (by omega), if_pos (by omega)]
  simp

theorem locate_outByte {p : Params} (hp : p.legal = true) {i : Nat} (h : i < p.outCap) :
    locate p (BitVec.ofNat 21 (0x020000 + i)) = .outByte i := by
  simp only [Params.legal, decide_eq_true_eq] at hp
  simp only [locate, addr_toNat (show 0x020000 + i < 2 ^ 21 by omega)]
  repeat rw [if_neg (by omega)]
  rw [if_pos (by omega), if_pos (by omega)]
  simp

theorem locate_bcData {p : Params} (hp : p.legal = true) {c : CIdx} {j : Nat} (hc : containerExists p c = true)
    (hj : j < p.bcCap / 8) : locate p (BitVec.ofNat 21 (0x100000 + 0x10000 * c.val + j)) = .bcData c j := by
  have := c.isLt
  simp only [Params.legal, containerExists, decide_eq_true_eq] at hp hc
  have hj' : j < 0x10000 := by omega
  simp only [locate, addr_toNat (show 0x100000 + 0x10000 * c.val + j < 2 ^ 21 by omega)]
  rw [show (0x100000 + 0x10000 * c.val + j - 0x100000) / 0x10000 = c.val by omega,
    show (0x100000 + 0x10000 * c.val + j - 0x100000) % 0x10000 = j by omega]
  repeat rw [if_neg (by omega)]
  rw [if_pos (by omega)]
  simp [cidxOf, Nat.mod_eq_of_lt this]

/-! What a read gives. -/

/-- While idle every read gives its row's value (R65). -/
theorem busRead_idle {s : State} (h : s.busy = false) (a : Addr) : s.busRead a = s.readTarget (locate s.cfg a) := by
  simp [State.busRead, h]

/-- A read that R68 defines gives its row's value at any time. -/
theorem busRead_defined (s : State) {a : Addr} (h : (locate s.cfg a).definedWhileBusy = true) :
    s.busRead a = s.readTarget (locate s.cfg a) := by
  simp [State.busRead, h]

/-- A byte in a bus word is the same number. -/
theorem byteWord_toNat (v : Byte) : (v.setWidth 32).toNat = v.toNat := by
  have := v.isLt
  rw [BitVec.toNat_setWidth, Nat.mod_eq_of_lt (by omega)]

/-- A byte of IN that the host has written (R41). -/
theorem readIn_written {s : State} {i : Nat} {v : Byte} (h : s.inMem.read i = some v) :
    s.readIn i = (v.setWidth 32, s) := by
  simp only [State.readIn, h]

/-- A byte of IN that the host has not written (R41, U1). -/
theorem readIn_unwritten {s : State} {i : Nat} (h : s.inMem.read i = none) :
    s.readIn i = ((Config.freeByte s.draws).setWidth 32, { s with draws := s.draws + 1 }) := by
  simp only [State.readIn, h, State.drawByte]

/-- A byte of OUT below OUT_LEN (R42). -/
theorem readOut_below {s : State} {i : Nat} {v : Byte} (hi : i < s.outLen.toNat) (h : s.outMem.read i = some v) :
    s.readOut i = (v.setWidth 32, s) := by
  simp only [State.readOut, if_pos hi, h]

/-- A byte of OUT at OUT_LEN and beyond (R42, U2). -/
theorem readOut_beyond {s : State} {i : Nat} (hi : s.outLen.toNat ≤ i) :
    s.readOut i = ((Config.freeByte s.draws).setWidth 32, { s with draws := s.draws + 1 }) := by
  simp only [State.readOut, if_neg (Nat.not_lt.mpr hi), State.drawByte]

/-- All that a read can do: the row's value and no draw, one fresh byte, or one fresh word. -/
theorem busRead_cases (s : State) (a : Addr) :
    s.busRead a = ((s.busRead a).1, s) ∨
    s.busRead a = ((Config.freeByte s.draws).setWidth 32, { s with draws := s.draws + 1 }) ∨
    s.busRead a = (Config.freeWord s.draws, { s with draws := s.draws + 1 }) := by
  unfold State.busRead
  split
  · exact .inr (.inr rfl)
  · cases locate s.cfg a with
    | inByte i =>
      simp only [State.readTarget, State.readIn]
      split
      · exact .inl rfl
      · exact .inr (.inl rfl)
    | outByte i =>
      simp only [State.readTarget, State.readOut]
      split
      · exact .inl rfl
      · exact .inr (.inl rfl)
    | _ => exact .inl rfl

/-- All that a write can do. -/
theorem busWrite_cases (s : State) (a : Addr) (d : Word) :
    (locate s.cfg a = .ctrl ∧ s.busWrite a d = { s with irqEn := d.getLsbD 0 }) ∨
    (locate s.cfg a = .status ∧ s.busWrite a d = s.writeStatus d) ∨
    (locate s.cfg a = .cmd ∧ s.busy = true ∧ s.busWrite a d = { s with overrun := true }) ∨
    (locate s.cfg a = .cmd ∧ s.busy = false ∧ s.busWrite a d = s.accept d) ∨
    (locate s.cfg a = .inLen ∧ s.busy = false ∧ s.busWrite a d = { s with inLen := d }) ∨
    (locate s.cfg a = .decCount ∧ s.busy = false ∧ s.busWrite a d = { s with decCount := d }) ∨
    (∃ sym, locate s.cfg a = .freq sym ∧ s.busy = false ∧ s.busWrite a d = s.setFreq sym d) ∨
    (∃ i, locate s.cfg a = .inByte i ∧ s.busy = false ∧
      s.busWrite a d = { s with inMem := s.inMem.write i (d.setWidth 8) }) ∨
    s.busWrite a d = s := by
  unfold State.busWrite State.writeCmd
  cases hl : locate s.cfg a <;> cases hb : s.busy <;> simp

end Sys2Proof.Machine
end

