-- ==== Sys2Proof/Laws/CodeTable.lean ====
section
/-! SUPPORT. The code table: what a walk records, and the derived table as the paths to the leaves (R160). -/

namespace Sys2Proof.Machine

variable {f : Counts} {t : List Node}

/-- A walk leaves the entry of a symbol with no leaf below it. -/
theorem walk_none {t : List Node} {fuel i : Nat} {p : Bits} {T : CodeTable} {sym : Byte}
    (hn : ∀ q j, PathTo t i q j → ¬ IsLeafOf t j sym) : (walkCodes t fuel i p T).entry sym = T.entry sym := by
  induction fuel generalizing i p T with
  | zero => rfl
  | succ fuel ih =>
    unfold walkCodes
    split
    · rename_i s n h
      rw [CodeTable.entry_record]
      split
      · rename_i he; subst he; exact absurd ⟨n, h⟩ (hn [] i rfl)
      · rfl
    · rename_i n c0 c1 h
      rw [ih, ih]
      · intro q j hq hl; exact hn (false :: q) j ⟨n, c0, c1, h, by simpa using hq⟩ hl
      · intro q j hq hl; exact hn (true :: q) j ⟨n, c0, c1, h, by simpa using hq⟩ hl
    · rfl

/-- A walk records the one path to a leaf below it. -/
theorem walk_some {t : List Node} {fuel i : Nat} {p q : Bits} {j : Nat} {T : CodeTable} {sym : Byte}
    (hlt : ∀ j i, IsChild t j i → i < j) (hf : i < fuel)
    (hq : PathTo t i q j) (hl : IsLeafOf t j sym)
    (hu : ∀ q' j', PathTo t i q' j' → IsLeafOf t j' sym → q' = q) : (walkCodes t fuel i p T).entry sym = some (p ++ q) := by
  induction fuel generalizing i p q T with
  | zero => omega
  | succ fuel ih =>
    unfold walkCodes
    cases q with
    | nil =>
      have : i = j := hq
      subst this
      obtain ⟨n, h⟩ := hl
      rw [h]; simp [CodeTable.entry_record]
    | cons b q =>
      obtain ⟨n, c0, c1, h, hq⟩ := hq
      rw [h]
      have hc0 := hlt i c0 ⟨n, c0, c1, h, .inl rfl⟩
      have hc1 := hlt i c1 ⟨n, c0, c1, h, .inr rfl⟩
      cases b with
      | true =>
        simp only at hq ⊢
        rw [ih (by omega) (by simpa using hq)]
        · simp
        · intro q' j' h1 h2
          have := hu (true :: q') j' ⟨n, c0, c1, h, by simpa using h1⟩ h2
          simpa using this
      | false =>
        simp only at hq ⊢
        rw [walk_none, ih (by omega) (by simpa using hq)]
        · simp
        · intro q' j' h1 h2
          have := hu (false :: q') j' ⟨n, c0, c1, h, by simpa using h1⟩ h2
          simpa using this
        · intro q' j' h1 h2
          have := hu (true :: q') j' ⟨n, c0, c1, h, by simpa using h1⟩ h2
          simp at this

/-- The derived table holds the path to each leaf and nothing else. -/
theorem deriveCodes_entry (h : buildTree f = some t) (sym : Byte) (p : Bits) :
    (deriveCodes t (t.length - 1)).entry sym = some p ↔ ∃ j, PathTo t (t.length - 1) p j ∧ IsLeafOf t j sym := by
  have hg := buildTree_greedy h
  have hk := leavesOf_length_le f
  set k := (leavesOf f).length
  have hs := hg.size
  have hr : t.length - 1 = 2*k-2 := by omega
  rw [hr]
  have hb : ∀ q j, PathTo t (2*k-2) q j → IsLeafOf t j sym → (deriveCodes t (2*k-2)).entry sym = some q := by
    intro q j h1 h2
    unfold deriveCodes
    rw [walk_some (fun j i hc => (hg.child_lt hc).2) (by omega) h1 h2]
    · simp
    · intro q' j' h1' h2'
      have := hg.leaf_unique h2' h2
      subst this
      exact hg.path_unique h1' h1
  constructor
  · intro he
    by_contra hn
    push Not at hn
    by_cases hex : ∃ q j, PathTo t (2*k-2) q j ∧ IsLeafOf t j sym
    · obtain ⟨q, j, h1, h2⟩ := hex
      rw [hb q j h1 h2] at he; cases he
      exact hn j h1 h2
    · push Not at hex
      unfold deriveCodes at he
      rw [walk_none hex, CodeTable.entry_cleared] at he
      cases he
  · rintro ⟨j, h1, h2⟩; exact hb p j h1 h2

/-- A code has fewer bits than the tree has leaves. -/
theorem deriveCodes_len (h : buildTree f = some t) {sym : Byte} {p : Bits} (he : (deriveCodes t (t.length - 1)).entry sym = some p) : p.length + 1 ≤ (leavesOf f).length := by
  obtain ⟨j, h1, h2⟩ := (deriveCodes_entry h sym p).1 he
  have hg := buildTree_greedy h
  have hs := hg.size
  by_cases hp : p = []
  · subst hp; simp; omega
  · have := (hg.path_le h1).2 hp
    omega

end Sys2Proof.Machine
end

