-- ==== Sys2Proof/Laws/Coder.lean ====
section
/-! SUPPORT. The encoder's loop (R180) and the decoder's walk (R181): what they do on a beginning they get through, and all
that they can answer. -/

namespace Sys2Proof.Machine

/-! ### The encoder's loop -/

/-- A symbol's code in a table; the empty sequence where it has none. -/
def codeIn (t : CodeTable) (v : Byte) : Bits := (t.entry v).getD []

/-- The loop gets through bytes that have codes and fit, and goes on with the rest. -/
theorem encodeFrom_append (t : CodeTable) (cap i : Nat) (acc : Bits) (us vs : List Byte)
    (hv : ∀ u ∈ us, (t.entry u).isSome = true) (hl : acc.length + (us.map fun u => (codeIn t u).length).sum ≤ cap) :
    encodeFrom t cap i acc (us ++ vs) = encodeFrom t cap (i + us.length) (acc ++ us.flatMap (codeIn t)) vs := by
  induction us generalizing i acc with
  | nil => simp
  | cons u us ih =>
    obtain ⟨code, hc⟩ := Option.isSome_iff_exists.1 (hv u (by simp))
    have hcode : codeIn t u = code := by simp [codeIn, hc]
    simp only [List.map_cons, List.sum_cons, hcode] at hl
    have hfit : ¬ cap < acc.length + code.length := by omega
    rw [List.cons_append, encodeFrom, hc]
    simp only [hfit, if_false]
    rw [ih (i + 1) (acc ++ code) (fun v h => hv v (by simp [h])) (by simp only [List.length_append]; omega)]
    simp [hcode, Nat.add_comm 1, Nat.add_assoc]

/-- All that the loop can answer: the codes of all bytes, within the capacity, or the first failing byte's error. -/
theorem encodeFrom_cases (t : CodeTable) (cap i : Nat) (acc : Bits) (vs : List Byte) (ha : acc.length ≤ cap) :
    (encodeFrom t cap i acc vs = .ok (acc ++ vs.flatMap (codeIn t)) ∧ (∀ v ∈ vs, (t.entry v).isSome = true) ∧
      (acc ++ vs.flatMap (codeIn t)).length ≤ cap) ∨
    (∃ us v rest, vs = us ++ v :: rest ∧ (∀ u ∈ us, (t.entry u).isSome = true) ∧
      acc.length + (us.map fun u => (codeIn t u).length).sum ≤ cap ∧
      ((t.entry v = none ∧
          encodeFrom t cap i acc vs = .error { code := .symbolNotFound, index := i + us.length, symbol := v }) ∨
       ((t.entry v).isSome = true ∧
          cap < acc.length + (us.map fun u => (codeIn t u).length).sum + (codeIn t v).length ∧
          encodeFrom t cap i acc vs = .error { code := .overflow, index := i + us.length, symbol := 0 }))) := by
  induction vs generalizing i acc with
  | nil => left; simp [encodeFrom, ha]
  | cons v vs ih =>
    cases hc : t.entry v with
    | none => exact .inr ⟨[], v, vs, rfl, by simp, by simpa using ha, .inl ⟨hc, by simp [encodeFrom, hc]⟩⟩
    | some code =>
      have hcode : codeIn t v = code := by simp [codeIn, hc]
      by_cases hfit : cap < acc.length + code.length
      · exact .inr ⟨[], v, vs, rfl, by simp, by simpa using ha, .inr ⟨by simp [hc],
          by simpa [hcode] using hfit, by simp [encodeFrom, hc, hfit]⟩⟩
      · have he : encodeFrom t cap i acc (v :: vs) = encodeFrom t cap (i + 1) (acc ++ code) vs := by
          simp [encodeFrom, hc, hfit]
        rcases ih (i + 1) (acc ++ code) (by simp only [List.length_append]; omega) with
          ⟨h1, h2, h3⟩ | ⟨us, u, rest, h1, h2, h3, h4⟩
        · left
          rw [he, h1]
          refine ⟨by simp [hcode], ?_, by simpa [hcode] using h3⟩
          intro u hu
          rcases List.mem_cons.1 hu with rfl | hu
          · simp [hc]
          · exact h2 u hu
        · right
          refine ⟨v :: us, u, rest, by simp [h1], ?_, ?_, ?_⟩
          · intro w hw
            rcases List.mem_cons.1 hw with rfl | hw
            · simp [hc]
            · exact h2 w hw
          · simp only [List.map_cons, List.sum_cons, hcode, List.length_append] at h3 ⊢; omega
          · rw [he]
            simp only [List.map_cons, List.sum_cons, hcode, List.length_append, List.length_cons] at h4 ⊢
            rcases h4 with ⟨h5, h6⟩ | ⟨h5, h6, h7⟩
            · exact .inl ⟨h5, by rw [h6]; congr 2; omega⟩
            · exact .inr ⟨h5, by omega, by rw [h7]; congr 2; omega⟩

/-! ### The decoder's walk -/

/-- One bit on from an internal node. -/
theorem childOf_internal {nodes : List Node} {p n c0 c1 : Nat} (h : nodeOf nodes p = .internal n c0 c1) (b : Bool) :
    childOf nodes p b = if b then c1 else c0 := by
  unfold childOf; rw [h]

/-- A non-empty path to a leaf emits its symbol and restarts at the root, or overflows at the path's last bit. -/
theorem decodeFrom_leafPath {nodes : List Node} {root cap i p m j : Nat} {sym : Byte} {q rest : Bits}
    (hq : q ≠ []) (hp : PathTo nodes p q j) (hl : IsLeafOf nodes j sym) :
    decodeFrom nodes root cap i p m (q ++ rest) =
      if m = cap then .error { code := .overflow, index := i + q.length - 1, symbol := 0 }
      else (decodeFrom nodes root cap (i + q.length) root (m + 1) rest).map (sym :: ·) := by
  induction q generalizing i p with
  | nil => exact absurd rfl hq
  | cons b q ih =>
    obtain ⟨n, c0, c1, h1, h2⟩ := hp
    rw [List.cons_append, decodeFrom, childOf_internal h1]
    cases q with
    | nil =>
      obtain ⟨n', h3⟩ := hl
      have : (if b = true then c1 else c0) = j := h2
      rw [this, h3]; simp
    | cons b' q =>
      have h3 := h2
      obtain ⟨n', c0', c1', h4, -⟩ := h3
      rw [h4]
      simp only
      rw [ih (by simp) h2]
      simp only [List.length_cons, Nat.add_assoc, Nat.add_comm 1]

/-- A path that ends on no leaf consumes all its bits and is judged by where it ends. -/
theorem decodeFrom_openPath {nodes : List Node} {root cap i p m j : Nat} {q : Bits}
    (hp : PathTo nodes p q j) (hl : ∀ sym, ¬ IsLeafOf nodes j sym) :
    decodeFrom nodes root cap i p m q =
      if j = root then .ok [] else .error { code := .invalidData, index := i + q.length, symbol := 0 } := by
  induction q generalizing i p with
  | nil =>
    have : p = j := hp
    subst this; simp [decodeFrom]
  | cons b q ih =>
    obtain ⟨n, c0, c1, h1, h2⟩ := hp
    rw [decodeFrom, childOf_internal h1]
    have key : ∀ sym k, nodeOf nodes (if b = true then c1 else c0) ≠ .leaf sym k := by
      intro sym k hk
      cases q with
      | nil =>
        have : (if b = true then c1 else c0) = j := h2
        exact hl sym ⟨k, by rw [← this]; exact hk⟩
      | cons b' q =>
        obtain ⟨n', c0', c1', h4, -⟩ := h2
        rw [h4] at hk; cases hk
    split
    · rename_i sym k hk; exact absurd hk (key sym k)
    · rw [ih h2]; simp [Nat.add_assoc, Nat.add_comm 1]

/-- Several leaf paths one after the other, with room for their symbols. -/
theorem decodeFrom_leafPaths {nodes : List Node} {root cap i m : Nat} (segs : List (Bits × Byte)) {rest : Bits}
    (hs : ∀ g ∈ segs, g.1 ≠ [] ∧ ∃ j, PathTo nodes root g.1 j ∧ IsLeafOf nodes j g.2) (hm : m + segs.length ≤ cap) :
    decodeFrom nodes root cap i root m (segs.flatMap (·.1) ++ rest) =
      (decodeFrom nodes root cap (i + (segs.flatMap (·.1)).length) root (m + segs.length) rest).map
        (segs.map (·.2) ++ ·) := by
  induction segs generalizing i m with
  | nil =>
    simp only [List.flatMap_nil, List.nil_append, List.length_nil, Nat.add_zero, List.map_nil]
    cases decodeFrom nodes root cap i root m rest <;> rfl
  | cons g segs ih =>
    obtain ⟨hne, j, hp, hl⟩ := hs g (by simp)
    simp only [List.length_cons] at hm
    rw [List.flatMap_cons, List.append_assoc, decodeFrom_leafPath hne hp hl, if_neg (by omega),
      ih (fun g' hg => hs g' (by simp [hg])) (by omega)]
    simp only [List.length_append, List.length_cons, Nat.add_assoc, Nat.add_comm 1, List.map_cons]
    cases decodeFrom nodes root cap _ root _ rest <;> rfl

/-- All that the walk can answer: at most as many bytes as there is room for, or one of R181's two errors. -/
theorem decodeFrom_cases (nodes : List Node) (root cap i p m : Nat) (b : Bits) (hm : m ≤ cap) :
    (∃ bytes, decodeFrom nodes root cap i p m b = .ok bytes ∧ m + bytes.length ≤ cap) ∨
    (∃ e, decodeFrom nodes root cap i p m b = .error e ∧ (e.code = .invalidData ∨ e.code = .overflow) ∧
      e.symbol = 0) := by
  induction b generalizing i p m with
  | nil =>
    unfold decodeFrom
    split
    · exact .inl ⟨[], rfl, by simpa using hm⟩
    · exact .inr ⟨_, rfl, .inl rfl, rfl⟩
  | cons b bs ih =>
    unfold decodeFrom
    split
    · split
      · exact .inr ⟨_, rfl, .inr rfl, rfl⟩
      · rcases ih (i + 1) root (m + 1) (by omega) with ⟨bytes, h1, h2⟩ | ⟨e, h1, h2⟩
        · exact .inl ⟨_ :: bytes, by rw [h1]; rfl, by simp only [List.length_cons]; omega⟩
        · exact .inr ⟨e, by rw [h1]; rfl, h2⟩
    · exact ih (i + 1) _ m hm

end Sys2Proof.Machine
end

