-- ==== Sys2Proof/Laws/Decode.lean ====
section
/-! SUPPORT. The bits of a packed word, its fields, a word as its packed fields, and container fields. -/

namespace Sys2Proof
section
variable (op imm : Byte) (a b : BitVec 4)

/-- Each bit of a packed word is a bit of the field it lies in (R90). -/
theorem getLsbD_packWord (i : Nat) : (packWord op a b imm).getLsbD i =
    if i < 8 then op.getLsbD i else if i < 12 then a.getLsbD (i - 8) else if i < 16 then b.getLsbD (i - 12)
    else if i < 24 then imm.getLsbD (i - 16) else false := by
  have out : ∀ {w} (v : BitVec w) (j : Nat), w ≤ j → v.getLsbD j = false := fun v j h => BitVec.getLsbD_of_ge v j h
  simp only [packWord, BitVec.getLsbD_or, BitVec.getLsbD_shiftLeft, BitVec.getLsbD_setWidth]
  split
  · simp [show i < 8 by omega, show i < 12 by omega, show i < 16 by omega, show i < 32 by omega]
  · split
    · simp [show ¬ i < 8 by omega, show i < 12 by omega, show i < 16 by omega, show i < 32 by omega,
        show i - 8 < 32 by omega, out op i (by omega)]
    · split
      · simp [show ¬ i < 8 by omega, show ¬ i < 12 by omega, show i < 16 by omega, show i < 32 by omega,
          show i - 12 < 32 by omega, out op i (by omega), out a (i - 8) (by omega)]
      · split
        · simp [show ¬ i < 16 by omega, show i < 32 by omega,
            show i - 16 < 32 by omega, out op i (by omega), out a (i - 8) (by omega), out b (i - 12) (by omega)]
        · simp [out op i (by omega), out a (i - 8) (by omega), out b (i - 12) (by omega), out imm (i - 16) (by omega)]

@[simp] theorem fieldOp_packWord : fieldOp (packWord op a b imm) = op := by
  ext i hi; simp [fieldOp, getLsbD_packWord, hi]

@[simp] theorem fieldA_packWord : fieldA (packWord op a b imm) = a := by
  ext i hi
  simp [fieldA, getLsbD_packWord, hi, show 8 + i < 12 by omega]

@[simp] theorem fieldB_packWord : fieldB (packWord op a b imm) = b := by
  ext i hi
  simp [fieldB, getLsbD_packWord, hi, show ¬ 12 + i < 8 by omega, show ¬ 12 + i < 12 by omega, show 12 + i < 16 by omega]

@[simp] theorem fieldImm_packWord : fieldImm (packWord op a b imm) = imm := by
  ext i hi
  simp [fieldImm, getLsbD_packWord, hi, show ¬ 16 + i < 8 by omega, show ¬ 16 + i < 12 by omega,
    show ¬ 16 + i < 16 by omega, show 16 + i < 24 by omega]

@[simp] theorem fieldRsv_packWord : fieldRsv (packWord op a b imm) = 0 := by
  ext i hi
  simp [fieldRsv, getLsbD_packWord, show ¬ 24 + i < 8 by omega, show ¬ 24 + i < 12 by omega,
    show ¬ 24 + i < 16 by omega, show ¬ 24 + i < 24 by omega]

end

/-- A word with RSV = 0 is its fields. -/
theorem packWord_fields (w : Word) (h : fieldRsv w = 0) :
    packWord (fieldOp w) (fieldA w) (fieldB w) (fieldImm w) = w := by
  have hr : ∀ i, i < 8 → w.getLsbD (24 + i) = false := by
    intro i hi
    have := congrArg (fun v : Byte => v.getLsbD i) h
    simpa [fieldRsv, hi] using this
  apply BitVec.eq_of_getLsbD_eq
  intro i hi
  rw [getLsbD_packWord]
  simp only [fieldOp, fieldA, fieldB, fieldImm, BitVec.getLsbD_extractLsb']
  split
  · simp [*]
  · split
    · simp [show i - 8 < 4 by omega, show 8 + (i - 8) = i by omega]
    · split
      · simp [show i - 12 < 4 by omega, show 12 + (i - 12) = i by omega]
      · split
        · simp [show i - 16 < 8 by omega, show 16 + (i - 16) = i by omega]
        · have := hr (i - 24) (by omega)
          rw [show 24 + (i - 24) = i by omega] at this
          exact this.symm

@[simp] theorem containerOf_fieldOf (c : CIdx) : containerOf (fieldOf c) = c := by
  apply Fin.ext
  simp [containerOf, fieldOf]

@[simp] theorem fieldOf_containerOf (f : BitVec 4) : fieldOf (containerOf f) = f := by
  simp [containerOf, fieldOf]

@[simp] theorem containerOf_val (f : BitVec 4) : (containerOf f).val = f.toNat := rfl


/-! ### What the decoder's forms can give -/

theorem takeNone_ok {w i j} (h : takeNone w i = .ok j) : fieldA w = 0 ∧ fieldB w = 0 ∧ fieldImm w = 0 ∧ j = i := by
  unfold takeNone at h; split at h
  · cases h; simp_all
  · cases h
theorem takeA_ok {w f j} (h : takeA w f = .ok j) : fieldB w = 0 ∧ fieldImm w = 0 ∧ j = f (containerOf (fieldA w)) := by
  unfold takeA at h; split at h
  · cases h; simp_all
  · cases h
theorem takePush_ok {w j} (h : takePush w = .ok j) : fieldB w = 0 ∧ (fieldImm w).toNat ≤ 1 ∧ j = .bcPush (containerOf (fieldA w)) ((fieldImm w).getLsbD 0) := by
  unfold takePush at h; split at h
  · split at h
    · cases h; simp_all
    · cases h
  · cases h
theorem takeAppend_ok {w j} (h : takeAppend w = .ok j) : fieldImm w = 0 ∧ j = .bcAppend (containerOf (fieldA w)) (containerOf (fieldB w)) := by
  unfold takeAppend at h; split at h
  · cases h; simp_all
  · cases h
theorem takeLookup_ok {w j} (h : takeLookup w = .ok j) : fieldB w = 0 ∧ j = .tableLookup (containerOf (fieldA w)) (fieldImm w) := by
  unfold takeLookup at h; split at h
  · cases h; simp_all
  · cases h

/-- All that decoding can give, row by row. -/
theorem decode_cases {w i} (h : decode w = .ok i) : fieldRsv w = 0 ∧ fieldOp w = i.opcode ∧
    ((i ∈ [Instr.nop, .treeBuild, .treeBuildFreq, .tableDerive] ∧ fieldA w = 0 ∧ fieldB w = 0 ∧ fieldImm w = 0) ∨
     (∃ f ∈ [Instr.bcClear, .bcFromBits, .bcFromBytes, .bcIterReset, .bcIterNext, .bcAlign, .encode, .decode],
        fieldB w = 0 ∧ fieldImm w = 0 ∧ i = f (containerOf (fieldA w))) ∨
     (fieldB w = 0 ∧ (fieldImm w).toNat ≤ 1 ∧ i = .bcPush (containerOf (fieldA w)) ((fieldImm w).getLsbD 0)) ∨
     (fieldImm w = 0 ∧ i = .bcAppend (containerOf (fieldA w)) (containerOf (fieldB w))) ∨
     (fieldB w = 0 ∧ i = .tableLookup (containerOf (fieldA w)) (fieldImm w))) := by
  unfold decode at h
  split at h
  · refine ⟨‹_›, ?_⟩
    split at h
    case h_16 => cases h
    case h_1 => obtain ⟨h1, h2, h3, rfl⟩ := takeNone_ok h; exact ⟨‹_›, .inl ⟨by simp, h1, h2, h3⟩⟩
    case h_2 => obtain ⟨h1, h2, rfl⟩ := takeA_ok h; exact ⟨‹_›, .inr (.inl ⟨_, by simp, h1, h2, rfl⟩)⟩
    case h_3 => obtain ⟨h1, h2, rfl⟩ := takePush_ok h; exact ⟨‹_›, .inr (.inr (.inl ⟨h1, h2, rfl⟩))⟩
    case h_4 => obtain ⟨h1, h2, rfl⟩ := takeA_ok h; exact ⟨‹_›, .inr (.inl ⟨_, by simp, h1, h2, rfl⟩)⟩
    case h_5 => obtain ⟨h1, h2, rfl⟩ := takeA_ok h; exact ⟨‹_›, .inr (.inl ⟨_, by simp, h1, h2, rfl⟩)⟩
    case h_6 => obtain ⟨h1, rfl⟩ := takeAppend_ok h; exact ⟨‹_›, .inr (.inr (.inr (.inl ⟨h1, rfl⟩)))⟩
    case h_7 => obtain ⟨h1, h2, rfl⟩ := takeA_ok h; exact ⟨‹_›, .inr (.inl ⟨_, by simp, h1, h2, rfl⟩)⟩
    case h_8 => obtain ⟨h1, h2, rfl⟩ := takeA_ok h; exact ⟨‹_›, .inr (.inl ⟨_, by simp, h1, h2, rfl⟩)⟩
    case h_9 => obtain ⟨h1, h2, rfl⟩ := takeA_ok h; exact ⟨‹_›, .inr (.inl ⟨_, by simp, h1, h2, rfl⟩)⟩
    case h_10 => obtain ⟨h1, h2, h3, rfl⟩ := takeNone_ok h; exact ⟨‹_›, .inl ⟨by simp, h1, h2, h3⟩⟩
    case h_11 => obtain ⟨h1, h2, h3, rfl⟩ := takeNone_ok h; exact ⟨‹_›, .inl ⟨by simp, h1, h2, h3⟩⟩
    case h_12 => obtain ⟨h1, h2, h3, rfl⟩ := takeNone_ok h; exact ⟨‹_›, .inl ⟨by simp, h1, h2, h3⟩⟩
    case h_13 => obtain ⟨h1, rfl⟩ := takeLookup_ok h; exact ⟨‹_›, .inr (.inr (.inr (.inr ⟨h1, rfl⟩)))⟩
    case h_14 => obtain ⟨h1, h2, rfl⟩ := takeA_ok h; exact ⟨‹_›, .inr (.inl ⟨_, by simp, h1, h2, rfl⟩)⟩
    case h_15 => obtain ⟨h1, h2, rfl⟩ := takeA_ok h; exact ⟨‹_›, .inr (.inl ⟨_, by simp, h1, h2, rfl⟩)⟩
  · cases h

/-- A word under a row agrees with the row's pattern field by field, within the mask. -/
theorem hits_fields {r : OpcodeRow} {w : Word} (h : r.hits w = true) :
    fieldOp w &&& fieldOp r.mask = fieldOp r.pattern ∧ fieldA w &&& fieldA r.mask = fieldA r.pattern ∧
    fieldB w &&& fieldB r.mask = fieldB r.pattern ∧ fieldImm w &&& fieldImm r.mask = fieldImm r.pattern ∧
    fieldRsv w &&& fieldRsv r.mask = fieldRsv r.pattern := by
  simp only [OpcodeRow.hits, beq_iff_eq] at h
  rw [← h]
  refine ⟨?_, ?_, ?_, ?_, ?_⟩ <;> (ext i hi; simp [fieldOp, fieldA, fieldB, fieldImm, fieldRsv])


/-- A word that R93 calls legal is a command of R92. -/
theorem legal_decodes {p : Params} {w : Word} (h : legalWord p w = true) : ∃ i, decode w = .ok i := by
  unfold legalWord at h
  simp only [ne_eq, ite_not] at h
  have z4 : ∀ v : BitVec 4, v.toNat = 0 → v = 0 := by decide
  have z8 : ∀ v : Byte, v.toNat = 0 → v = 0 := fun v h => BitVec.eq_of_toNat_eq h
  have op : ∀ n, n < 256 → (fieldOp w).toNat = n → fieldOp w = BitVec.ofNat 8 n := fun n hn h =>
    BitVec.eq_of_toNat_eq (by simp [h]; omega)
  split at h
  · rename_i hr
    split at h
    · rename_i ho
      simp only [decide_eq_true_eq] at h
      have ha := z4 _ h.1; have hb := z4 _ h.2.1; have hi := z8 _ h.2.2
      obtain ho | ho | ho | ho := ho <;> exact ⟨_, by simp [decode, hr, op _ (by omega) ho, takeNone, ha, hb, hi]; rfl⟩
    · split at h
      · rename_i ho
        simp only [decide_eq_true_eq] at h
        have hb := z4 _ h.2.1; have hi := z8 _ h.2.2
        obtain ho | ho | ho | ho | ho | ho | ho | ho := ho <;> exact ⟨_, by simp [decode, hr, op _ (by omega) ho, takeA, hb, hi]; rfl⟩
      · split at h
        · rename_i ho
          simp only [decide_eq_true_eq] at h
          have hb := z4 _ h.2.1
          exact ⟨_, by simp [decode, hr, op _ (by omega) ho, takePush, hb, h.2.2]; rfl⟩
        · split at h
          · rename_i ho
            simp only [decide_eq_true_eq] at h
            have hi := z8 _ h.2.2.2
            exact ⟨_, by simp [decode, hr, op _ (by omega) ho, takeAppend, hi]; rfl⟩
          · split at h
            · rename_i ho
              simp only [decide_eq_true_eq] at h
              have hb := z4 _ h.2
              exact ⟨_, by simp [decode, hr, op _ (by omega) ho, takeLookup, hb]; rfl⟩
            · cases h
  · cases h

theorem containerExists_iff {p : Params} {c : CIdx} : containerExists p c = true ↔ c.val < p.nbc := decide_eq_true_iff

/-- A word that decodes is legal exactly when its command's container indices pass (R93). -/
theorem legalWord_eq {p : Params} {w : Word} {i : Instr} (h : decode w = .ok i) : legalWord p w = i.wellFormed p := by
  obtain ⟨hr, ho, h⟩ := decode_cases h
  rw [Bool.eq_iff_iff]
  unfold legalWord
  simp only [hr, ho, ne_eq, not_true_eq_false, if_false]
  obtain ⟨hm, ha, hb, hi⟩ | ⟨f, hm, hb, hi, rfl⟩ | ⟨hb, hi, rfl⟩ | ⟨hi, rfl⟩ | ⟨hb, rfl⟩ := h
  · simp only [List.mem_cons, List.not_mem_nil, or_false] at hm
    obtain rfl | rfl | rfl | rfl := hm <;> simp [Instr.opcode, Instr.wellFormed, ha, hb, hi]
  · simp only [List.mem_cons, List.not_mem_nil, or_false] at hm
    obtain rfl | rfl | rfl | rfl | rfl | rfl | rfl | rfl := hm <;>
      simp [Instr.opcode, Instr.wellFormed, containerExists_iff, containerOf, hb, hi]
  · simp [Instr.opcode, Instr.wellFormed, containerExists_iff, containerOf, hb, hi]
  · simp [Instr.opcode, Instr.wellFormed, containerExists_iff, containerOf, hi, Fin.ext_iff, and_assoc]
  · simp [Instr.opcode, Instr.wellFormed, containerExists_iff, containerOf, hb]

end Sys2Proof
end

