-- ==== Sys2Proof/Laws/Memory.lean ====
section
/-! SUPPORT. The byte buffers: a read after a write gives the byte written, a write leaves every other byte alone, and
every operation keeps the canonical form. -/

namespace Sys2Proof.Machine

@[simp] theorem Memory.read_nil (i : Nat) : Memory.read [] i = none := rfl
@[simp] theorem Memory.wf_nil : Memory.wf [] = true := rfl
@[simp] theorem Memory.below_nil (n : Nat) : Memory.below [] n = true := rfl

/-- Read after write, the written byte and every other one. -/
theorem Memory.read_write (m : Memory) (i j : Nat) (v : Byte) :
    (m.write i v).read j = if j = i then some v else m.read j := by
  induction m with
  | nil => by_cases h : i = j <;> simp [Memory.write, Memory.read, h, eq_comm]
  | cons cell rest ih =>
    obtain ⟨k, u⟩ := cell
    simp only [Memory.write]
    split
    · by_cases h : i = j
      · subst h; simp [Memory.read]
      · have h' : j ≠ i := fun he => h he.symm
        simp [Memory.read, h, h']
    · split
      · rename_i h2
        subst h2
        by_cases h : i = j
        · subst h; simp [Memory.read]
        · have h' : j ≠ i := fun he => h he.symm
          simp [Memory.read, h, h']
      · rename_i h2
        by_cases h3 : k = j
        · subst h3
          have h4 : k ≠ i := fun h => h2 h.symm
          simp [Memory.read, h4]
        · simp [Memory.read, h3, ih]

@[simp] theorem Memory.read_write_same (m : Memory) (i : Nat) (v : Byte) : (m.write i v).read i = some v := by
  simp [Memory.read_write]

theorem Memory.read_write_other (m : Memory) {i j : Nat} (v : Byte) (h : j ≠ i) : (m.write i v).read j = m.read j := by
  simp [Memory.read_write, h]

/-- The canonical form of a buffer with a first cell, unfolded once. -/
theorem Memory.wf_cons (i : Nat) (v : Byte) (m : Memory) :
    Memory.wf ((i, v) :: m) = true ↔ (∀ j u rest, m = (j, u) :: rest → i < j) ∧ m.wf = true := by
  cases m with
  | nil => simp [Memory.wf]
  | cons cell rest =>
    obtain ⟨k, u⟩ := cell
    simp only [Memory.wf, Bool.and_eq_true, decide_eq_true_eq, List.cons.injEq, Prod.mk.injEq]
    refine and_congr_left fun _ => ⟨fun h j u' rest' he => by omega, fun h => h k u rest ⟨⟨rfl, rfl⟩, rfl⟩⟩

/-- The first cell a write leaves: the written one or the old first one. -/
theorem Memory.write_head (m : Memory) (i : Nat) (v : Byte) {j u rest} (h : m.write i v = (j, u) :: rest) :
    j = i ∨ ∃ u' rest', m = (j, u') :: rest' := by
  cases m with
  | nil => simp only [Memory.write, List.cons.injEq, Prod.mk.injEq] at h; exact .inl h.1.1.symm
  | cons cell tail =>
    obtain ⟨k, w⟩ := cell
    simp only [Memory.write] at h
    split at h
    · simp only [List.cons.injEq, Prod.mk.injEq] at h; exact .inl h.1.1.symm
    · split at h
      · simp only [List.cons.injEq, Prod.mk.injEq] at h; exact .inl h.1.1.symm
      · simp only [List.cons.injEq, Prod.mk.injEq] at h; exact .inr ⟨w, tail, by rw [h.1.1]⟩

/-- A write keeps the canonical form. -/
theorem Memory.wf_write (m : Memory) (i : Nat) (v : Byte) (h : m.wf = true) : (m.write i v).wf = true := by
  induction m with
  | nil => rfl
  | cons cell rest ih =>
    obtain ⟨k, u⟩ := cell
    rw [Memory.wf_cons] at h
    simp only [Memory.write]
    split
    · rename_i hlt
      rw [Memory.wf_cons, Memory.wf_cons]
      exact ⟨fun j u' rest' he => by simp only [List.cons.injEq, Prod.mk.injEq] at he; omega, h⟩
    · split
      · rename_i heq; subst heq
        rw [Memory.wf_cons]; exact h
      · rw [Memory.wf_cons]
        refine ⟨fun j u' rest' he => ?_, ih h.2⟩
        rcases Memory.write_head rest i v he with rfl | ⟨u'', rest'', hr⟩
        · omega
        · exact h.1 _ _ _ hr

/-- A write inside the buffer stays inside it. -/
theorem Memory.below_write (m : Memory) {i n : Nat} (v : Byte) (hi : i < n) (h : m.below n = true) :
    (m.write i v).below n = true := by
  induction m with
  | nil => simp [Memory.write, Memory.below, hi]
  | cons cell rest ih =>
    obtain ⟨k, u⟩ := cell
    simp only [Memory.below, List.all_cons, Bool.and_eq_true, decide_eq_true_eq] at h
    simp only [Memory.write]
    split
    · simp [Memory.below, hi, h.1]; simpa [Memory.below] using h.2
    · split
      · simp [Memory.below, hi]; simpa [Memory.below] using h.2
      · simp only [Memory.below, List.all_cons, Bool.and_eq_true, decide_eq_true_eq]
        exact ⟨h.1, ih h.2⟩

/-- Consecutive writes: the written bytes and every other one. -/
theorem Memory.read_writeBytes (vs : List Byte) (m : Memory) (i j : Nat) :
    (Memory.writeBytes m i vs).read j = if i ≤ j ∧ j < i + vs.length then vs[j - i]? else m.read j := by
  induction vs generalizing m i with
  | nil => rw [if_neg (by rw [List.length_nil]; omega)]; rfl
  | cons v vs ih =>
    rw [Memory.writeBytes, ih, Memory.read_write]
    by_cases h1 : j = i
    · subst h1
      have h2 : ¬ j + 1 ≤ j := by omega
      simp [h2]
    · by_cases h2 : i + 1 ≤ j ∧ j < i + 1 + vs.length
      · have h3 : i ≤ j ∧ j < i + (vs.length + 1) := by omega
        have h4 : j - i = (j - (i + 1)) + 1 := by omega
        simp [h2, h3, h4]
      · have h3 : ¬ (i ≤ j ∧ j < i + (vs.length + 1)) := by omega
        simp only [h2, if_false, h1, List.length_cons, h3]

/-- OUT after a DECODE: its bytes from index 0 on, nothing else. -/
theorem Memory.read_writeBytes_nil (vs : List Byte) (j : Nat) : (Memory.writeBytes [] 0 vs).read j = vs[j]? := by
  rw [Memory.read_writeBytes]
  by_cases h : j < vs.length
  · simp [h]
  · simp [h]

theorem Memory.wf_writeBytes (vs : List Byte) (m : Memory) (i : Nat) (h : m.wf = true) :
    (Memory.writeBytes m i vs).wf = true := by
  induction vs generalizing m i with
  | nil => exact h
  | cons v vs ih => exact ih _ _ (Memory.wf_write m i v h)

/-- In canonical form nothing is listed at or below an index that stands before the list. -/
theorem Memory.read_before (i : Nat) (v : Byte) (m : Memory) (h : Memory.wf ((i, v) :: m) = true) {j : Nat} (hj : j ≤ i) :
    m.read j = none := by
  induction m generalizing i v with
  | nil => rfl
  | cons cell rest ih =>
    obtain ⟨k, u⟩ := cell
    rw [Memory.wf_cons] at h
    have hk := h.1 k u rest rfl
    have hne : k ≠ j := by omega
    simp only [Memory.read, hne, if_false]
    exact ih k u h.2 (by omega)

/-- Equal memories are equal data: in canonical form the bytes read determine the list. -/
theorem Memory.ext_read {m m' : Memory} (h : m.wf = true) (h' : m'.wf = true) (he : ∀ i, m.read i = m'.read i) :
    m = m' := by
  induction m generalizing m' with
  | nil =>
    cases m' with
    | nil => rfl
    | cons cell rest =>
      obtain ⟨k, u⟩ := cell
      have := he k
      simp [Memory.read] at this
  | cons cell rest ih =>
    obtain ⟨k, u⟩ := cell
    cases m' with
    | nil => have := he k; simp [Memory.read] at this
    | cons cell' rest' =>
      obtain ⟨k', u'⟩ := cell'
      have hk : k = k' := by
        rcases Nat.lt_trichotomy k k' with hlt | heq | hlt
        · have h1 := he k
          have hne : k' ≠ k := by omega
          have h2 := Memory.read_before k' u' rest' h' (Nat.le_of_lt hlt)
          simp [Memory.read, hne, h2] at h1
        · exact heq
        · have h1 := he k'
          have hne : k ≠ k' := by omega
          have h2 := Memory.read_before k u rest h (Nat.le_of_lt hlt)
          simp [Memory.read, hne, h2] at h1
      subst hk
      have hu : u = u' := by simpa [Memory.read] using he k
      subst hu
      have hr : ∀ i, Memory.read rest i = Memory.read rest' i := by
        intro i
        by_cases hi : k = i
        · subst hi
          rw [Memory.read_before k u rest h (Nat.le_refl _), Memory.read_before k u rest' h' (Nat.le_refl _)]
        · simpa [Memory.read, hi] using he i
      rw [ih ((Memory.wf_cons _ _ _).1 h).2 ((Memory.wf_cons _ _ _).1 h').2 hr]

end Sys2Proof.Machine
end

