-- ==== Sys2Proof/Laws/PerInstr.lean ====
section
/-! SUPPORT. Per-instruction lemmas. Family RowMatch: a command's word falls under its own row of the opcode table (R92,
R95). -/

namespace Sys2Proof.Laws.RowMatch

/-- The word of `i` falls under the row of `i`, and that row is in the table. -/
abbrev Statement (i : Instr) : Prop := i.row.hits (Sys2Proof.encode i) = true ∧ i.row ∈ opcodeRows

theorem nop : Statement .nop := by decide
theorem bcClear (c : CIdx) : Statement (.bcClear c) := by revert c; decide
theorem bcPush (c : CIdx) (bit : Bool) : Statement (.bcPush c bit) := by revert c bit; decide
theorem bcFromBits (c : CIdx) : Statement (.bcFromBits c) := by revert c; decide
theorem bcFromBytes (c : CIdx) : Statement (.bcFromBytes c) := by revert c; decide
theorem bcAppend (c src : CIdx) : Statement (.bcAppend c src) := by revert c src; decide +kernel
theorem bcIterReset (c : CIdx) : Statement (.bcIterReset c) := by revert c; decide
theorem bcIterNext (c : CIdx) : Statement (.bcIterNext c) := by revert c; decide
theorem bcAlign (c : CIdx) : Statement (.bcAlign c) := by revert c; decide
theorem treeBuild : Statement .treeBuild := by decide
theorem treeBuildFreq : Statement .treeBuildFreq := by decide
theorem tableDerive : Statement .tableDerive := by decide
theorem tableLookup (c : CIdx) (sym : Byte) : Statement (.tableLookup c sym) := by
  refine ⟨?_, by simp [Instr.row, opcodeRows]⟩
  revert c sym; decide +kernel
theorem encode (c : CIdx) : Statement (.encode c) := by revert c; decide
theorem decode (c : CIdx) : Statement (.decode c) := by revert c; decide

end Sys2Proof.Laws.RowMatch
end

