-- ==== Sys2Proof/Machine/Assembler.lean ====
section
/-! DEFINITION. Command syntax (R96): a command as text, and the reader of such text. Mnemonics are written in capitals; a
symbol is a decimal or 0x hexadecimal number 0 to 255; blanks around an operand are not part of it (log entry 13). -/

namespace Sys2Proof.Machine

/-- The mnemonic of R92. -/
def mnemonicOf : Instr → String
  | .nop => "NOP"
  | .bcClear _ => "BC_CLEAR"
  | .bcPush _ _ => "BC_PUSH"
  | .bcFromBits _ => "BC_FROM_BITS"
  | .bcFromBytes _ => "BC_FROM_BYTES"
  | .bcAppend _ _ => "BC_APPEND"
  | .bcIterReset _ => "BC_ITER_RESET"
  | .bcIterNext _ => "BC_ITER_NEXT"
  | .bcAlign _ => "BC_ALIGN"
  | .treeBuild => "TREE_BUILD"
  | .treeBuildFreq => "TREE_BUILD_FREQ"
  | .tableDerive => "TABLE_DERIVE"
  | .tableLookup _ _ => "TABLE_LOOKUP"
  | .encode _ => "ENCODE"
  | .decode _ => "DECODE"

/-- A container operand: `c0` to `c15`. -/
def containerText (c : CIdx) : List Char := 'c' :: Nat.toDigits 10 c.val

/-- A bit operand: `0` or `1`. -/
def bitText (b : Bool) : List Char := if b then ['1'] else ['0']

/-- The operands of a command, in the order R96 writes them. -/
def operandTexts : Instr → List (List Char)
  | .nop => []
  | .bcClear c => [containerText c]
  | .bcPush c bit => [containerText c, bitText bit]
  | .bcFromBits c => [containerText c]
  | .bcFromBytes c => [containerText c]
  | .bcAppend c src => [containerText c, containerText src]
  | .bcIterReset c => [containerText c]
  | .bcIterNext c => [containerText c]
  | .bcAlign c => [containerText c]
  | .treeBuild => []
  | .treeBuildFreq => []
  | .tableDerive => []
  | .tableLookup c sym => [containerText c, Nat.toDigits 10 sym.toNat]
  | .encode c => [containerText c]
  | .decode c => [containerText c]

/-- A command as R96 writes it. -/
def commandText (i : Instr) : String :=
  match operandTexts i with
  | [] => mnemonicOf i
  | ops => String.ofList ((mnemonicOf i).toList ++ ' ' :: List.intercalate [',', ' '] ops)

/-! ### Reading -/

/-- The pieces between the separators. -/
def splitAtChar (sep : Char) : List Char → List (List Char)
  | [] => [[]]
  | ch :: rest =>
    if ch = sep then [] :: splitAtChar sep rest
    else
      match splitAtChar sep rest with
      | [] => [[ch]]
      | p :: ps => (ch :: p) :: ps

/-- A piece without the blanks at its two ends. -/
def trimBlanks (t : List Char) : List Char :=
  (((t.dropWhile (· = ' ')).reverse).dropWhile (· = ' ')).reverse

/-- The value of a digit. -/
def digitValue (ch : Char) : Option Nat :=
  if '0' ≤ ch ∧ ch ≤ '9' then some (ch.toNat - '0'.toNat)
  else if 'a' ≤ ch ∧ ch ≤ 'f' then some (ch.toNat - 'a'.toNat + 10)
  else if 'A' ≤ ch ∧ ch ≤ 'F' then some (ch.toNat - 'A'.toNat + 10)
  else none

/-- The number that digits in a base write after the value `acc`. -/
def readDigits (base acc : Nat) : List Char → Option Nat
  | [] => some acc
  | ch :: rest =>
    match digitValue ch with
    | some d => if d < base then readDigits base (acc * base + d) rest else none
    | none => none

/-- A decimal or 0x hexadecimal number. -/
def readNumber : List Char → Option Nat
  | [] => none
  | '0' :: 'x' :: ch :: rest => readDigits 16 0 (ch :: rest)
  | t => readDigits 10 0 t

/-- A container: exactly one of the sixteen names. -/
def readContainer (t : List Char) : Option CIdx := (List.finRange 16).find? fun c => containerText c = t

/-- A bit. -/
def readBit : List Char → Option Bool
  | ['0'] => some false
  | ['1'] => some true
  | _ => none

/-- A symbol, 0 to 255. -/
def readSymbol (t : List Char) : Option Byte :=
  match readNumber t with
  | some n => if n < 256 then some (BitVec.ofNat 8 n) else none
  | none => none

/-- A command's mnemonic and operands, separated; no operand at all where nothing follows the mnemonic. -/
def splitCommand (t : String) : List Char × List (List Char) :=
  let body := trimBlanks t.toList
  let tail := trimBlanks (body.dropWhile (· ≠ ' '))
  (body.takeWhile (· ≠ ' '), if tail = [] then [] else (splitAtChar ',' tail).map trimBlanks)

/-- The form of one container. -/
def readOne (ops : List (List Char)) (f : CIdx → Instr) : Option Instr :=
  match ops with
  | [a] => (readContainer a).map f
  | _ => none

/-- The form of no operand. -/
def readNone (ops : List (List Char)) (i : Instr) : Option Instr := if ops = [] then some i else none

/-- The form of a container and a second operand. -/
def readTwo {α : Type} (ops : List (List Char)) (second : List Char → Option α) (f : CIdx → α → Instr) : Option Instr :=
  match ops with
  | [a, b] => (readContainer a).bind fun c => (second b).map (f c)
  | _ => none

/-- The command a text writes, if it is one of R96's forms. -/
def readCommand (t : String) : Option Instr :=
  let ops := (splitCommand t).2
  match String.ofList (splitCommand t).1 with
  | "NOP" => readNone ops .nop
  | "BC_CLEAR" => readOne ops .bcClear
  | "BC_PUSH" => readTwo ops readBit .bcPush
  | "BC_FROM_BITS" => readOne ops .bcFromBits
  | "BC_FROM_BYTES" => readOne ops .bcFromBytes
  | "BC_APPEND" => readTwo ops readContainer .bcAppend
  | "BC_ITER_RESET" => readOne ops .bcIterReset
  | "BC_ITER_NEXT" => readOne ops .bcIterNext
  | "BC_ALIGN" => readOne ops .bcAlign
  | "TREE_BUILD" => readNone ops .treeBuild
  | "TREE_BUILD_FREQ" => readNone ops .treeBuildFreq
  | "TABLE_DERIVE" => readNone ops .tableDerive
  | "TABLE_LOOKUP" => readTwo ops readSymbol .tableLookup
  | "ENCODE" => readOne ops .encode
  | "DECODE" => readOne ops .decode
  | _ => none

/-- The command word a text assembles to (R96). -/
def assemble (t : String) : Option Word := (readCommand t).map encode

end Sys2Proof.Machine
end

