-- ==== Sys2Proof/Tests/Slice0.lean ====
section
/-! SUPPORT. Tests: decoding of written-out words, ill-formed commands refused, one-step vectors of 95_test_vectors.md (the
reference configuration, from reset), and for every statement with hypotheses a concrete state that meets them. Every
expected value is the spec's own. -/

namespace Sys2Proof.Tests

open Sys2Proof.Machine

-- One theorem at a time: each waits for the kernel, and side by side they would need more memory than the check grants.
set_option Elab.async false

/-! ### Small states -/

/-- `s` with IN = `bytes` and IN_LEN their number (LOAD_IN of R97, as data). -/
def load (bytes : List Byte) (s : State) : State :=
  { s with inMem := Memory.writeBytes [] 0 bytes, inLen := BitVec.ofNat 32 bytes.length }

/-- `s` with container `c` set. -/
def withBits (c : CIdx) (bits : Bits) (pos : Nat) (s : State) : State := s.setContainer c { bits := bits, pos := pos }

/-- `s` with the counts of `bytes` in FREQ. -/
def withCounts (bytes : List Byte) (s : State) : State := { s with freq := countBytes bytes }

/-- `s` with a valid code table. -/
def withTable (codes : CodeTable) (s : State) : State := { s with codes := codes, tableValid := true }

/-- The state after one command. -/
def after (i : Instr) (s : State) : State := Answer.state s (exec i s)

/-- V-T1's input. -/
def nine : List Byte := [0, 0, 0, 1, 1, 2, 2, 3, 255]

/-- V-T1's arena. -/
def nineNodes : List Node :=
  [.leaf 0 3, .leaf 1 2, .leaf 2 2, .leaf 3 1, .leaf 255 1] ++
  [.internal 2 3 4, .internal 4 1 2, .internal 5 5 0, .internal 9 6 7]

/-- V-T1's end state, its arena written out. -/
def nineTree : State := withCounts nine ((load nine State.reset).commitTree nineNodes)

/-- V-C1's end state. -/
def nineTable : State := withTable (deriveCodes nineNodes 8) nineTree

/-- V-E1's bits. -/
def nineBits : Bits :=
  [true, true, true, true, true, true, false, false, false, false] ++
  [false, true, false, true, true, false, false, true, false, true]

/-- V-T4's tree and V-C8's table: one leaf. -/
def oneTable : State :=
  withTable (deriveCodes [.leaf 7 3] 0) (withCounts [7, 7, 7] ((load [7, 7, 7] State.reset).commitTree [.leaf 7 3]))

/-- A command pending, as acceptance leaves it. -/
def pendingBuild : State := (load nine State.reset).accept 0x00000010

/-! ### WellFormed and the decoder refuse ill-formed terms (R93) -/

theorem test_wf_container_ge_nbc :
    [Instr.bcClear 4, .bcPush 4 true, .bcFromBits 4, .bcFromBytes 4, .bcAppend 4 0, .bcAppend 0 4, .bcIterReset 4,
      .bcIterNext 4, .bcAlign 4, .tableLookup 4 0, .encode 4, .decode 15].all (fun i => !i.wellFormed Params.reference) = true := by
  decide
theorem test_wf_append_same : Instr.wellFormed Params.reference (.bcAppend 1 1) = false := by decide
theorem test_wf_last_container : Instr.wellFormed Params.reference (.bcAppend 3 2) = true := by decide

theorem test_decode_reserved_field : decode 0x01000000 = .error .reservedField := rfl
theorem test_decode_reserved_opcode : decode 0x00000009 = .error (.reservedOpcode 0x09) := rfl
theorem test_decode_unused_field : decode 0x00000110 = .error .unusedField := rfl
theorem test_decode_unused_b : decode 0x00001101 = .error .unusedField := rfl
theorem test_decode_push_bit : decode 0x00020002 = .error .pushBit := rfl

/-! ### Decoding: each command's word as files 40 to 44 write it -/

theorem test_decode_nop : decode 0b00000000000000000000000000000000#32 = .ok .nop := rfl
theorem test_decode_bcClear : decode 0x00000101 = .ok (.bcClear 1) := rfl
theorem test_decode_bcPush : decode 0x00010002 = .ok (.bcPush 0 true) := rfl
theorem test_decode_bcPush_zero : decode 0x00000102 = .ok (.bcPush 1 false) := rfl
theorem test_decode_bcFromBits : decode 0x00000203 = .ok (.bcFromBits 2) := rfl
theorem test_decode_bcFromBytes : decode 0x00000204 = .ok (.bcFromBytes 2) := rfl
theorem test_decode_bcAppend : decode 0b00000000000000000010000100000101#32 = .ok (.bcAppend 1 2) := rfl
theorem test_decode_bcIterReset : decode 0x00000206 = .ok (.bcIterReset 2) := rfl
theorem test_decode_bcIterNext : decode 0x00000207 = .ok (.bcIterNext 2) := rfl
theorem test_decode_bcAlign : decode 0x00000108 = .ok (.bcAlign 1) := rfl
theorem test_decode_treeBuild : decode 0x00000010 = .ok .treeBuild := rfl
theorem test_decode_treeBuildFreq : decode 0x00000011 = .ok .treeBuildFreq := rfl
theorem test_decode_tableDerive : decode 0x00000020 = .ok .tableDerive := rfl
theorem test_decode_tableLookup : decode 0b00000000111111110000001000100001#32 = .ok (.tableLookup 2 255) := rfl
theorem test_decode_encode : decode 0x00000130 = .ok (.encode 1) := rfl
theorem test_decode_decode : decode 0x00000031 = .ok (.decode 0) := rfl

/-- The host's numbering: one 32-bit word, bit 0 the least significant. -/
theorem test_decodeTableWord : decodeTableWord 32 0x00040021 = some (.tableLookup 0 4) := by decide

/-! ### Command text (R96) -/

theorem test_text_append : assemble "BC_APPEND c1, c2" = some 0x00002105 := by decide +kernel
theorem test_text_lookup : assemble "TABLE_LOOKUP c0, 4" = some 0x00040021 := by decide +kernel
theorem test_text_hex : assemble "TABLE_LOOKUP c2, 0xFF" = some 0x00FF0221 := by decide +kernel
theorem test_text_no_operand : assemble "TREE_BUILD_FREQ" = some 0x00000011 := by decide +kernel
theorem test_text_bit : assemble "BC_PUSH c0, 2" = none := by decide +kernel
theorem test_text_container : assemble "DECODE c16" = none := by decide +kernel
theorem test_text_write : commandText (.bcAppend 1 2) = "BC_APPEND c1, c2" := by decide +kernel

/-! ### One-step vectors -/

/-- V-X2. -/
theorem test_nop : (after .nop (State.reset.accept 0)).statusWord = 0x002 := by decide +kernel

/-- V-B1. -/
theorem test_clear : (after (.bcClear 1) (withBits 1 [true, false, true, true] 2 State.reset)).container 1 =
    { bits := [], pos := 0 } := by decide +kernel

/-- V-B3. -/
theorem test_push : (after (.bcPush 0 true) (withBits 0 [true, false] 0 State.reset)).bits 0 = [true, false, true] := by
  decide +kernel

/-- V-B6. -/
theorem test_from_bits : (after (.bcFromBits 0) (load [0x80, 0x00, 0xFF] State.reset)).bits 0 = [true, false, true] := by
  decide +kernel

/-- V-B11. -/
theorem test_from_bits_overflow :
    (after (.bcFromBits 0) { State.reset with inLen := 4097 }).statusWord = 0x062 := by decide +kernel

/-- V-B20. -/
theorem test_from_bytes :
    (after (.bcFromBytes 2) (load [0xF0] (withBits 2 [true, false, true, true] 3 State.reset))).container 2 =
      { bits := [true, true, true, true, false, false, false, false], pos := 0 } := by decide +kernel

/-- V-B12: the destination and the packed view. -/
theorem test_append :
    let t := after (.bcAppend 1 2)
      (withBits 2 [true, false, true, false, false, true, false, true] 0 (withBits 1 [true, false, true] 0 State.reset))
    t.bits 1 = [true, false, true, true, false, true, false, false, true, false, true] ∧ t.bits 2 = [] ∧
      packedByte (t.bits 1) 0 = 0xB4 ∧ packedByte (t.bits 1) 1 = 0xA0 := by decide +kernel

/-- V-B13: the destination keeps its iterator. -/
theorem test_append_keeps_pos :
    (after (.bcAppend 1 2) (withBits 1 [true, false, true] 3 State.reset)).container 1 =
      { bits := [true, false, true], pos := 3 } := by decide +kernel

/-- V-B16. -/
theorem test_iter_reset : (after (.bcIterReset 2) (withBits 2 [true, false, true, true] 4 State.reset)).container 2 =
    { bits := [true, false, true, true], pos := 0 } := by decide +kernel

/-- V-B17, second read. -/
theorem test_iter_next :
    let t := after (.bcIterNext 2) (withBits 2 [true, false] 1 State.reset)
    t.resultWord = 0x2 ∧ t.pos 2 = 2 := by decide +kernel

/-- V-B17, third read: the end. -/
theorem test_iter_next_end :
    let t := after (.bcIterNext 2) (withBits 2 [true, false] 2 State.reset)
    t.resultWord = 0x0 ∧ t.pos 2 = 2 ∧ t.statusWord = 0x002 := by decide +kernel

/-- V-B21. -/
theorem test_align :
    (after (.bcAlign 1)
      (withBits 1 [true, false, true, true, false, true, false, false, true, false, true] 0 State.reset)).bits 1 =
      [true, false, true, true, false, true, false, false, true, false, true, false, false, false, false, false] := by
  decide +kernel

/-- V-T1. -/
theorem test_tree_build :
    let t := after .treeBuild (load nine State.reset)
    t.nodes = nineNodes ∧ t.root = 8 ∧ t.nodeCount = 9 ∧ t.freqAt 255 = 1 ∧ t.statusWord = 0x102 := by decide +kernel

/-- L1-3. -/
theorem test_tree_build_empty : (after .treeBuild State.reset).statusWord = 0x012 := by decide +kernel

/-- V-T3. -/
theorem test_tree_build_freq :
    (after .treeBuildFreq (withCounts [10, 20, 30, 40] State.reset)).nodes =
      [.leaf 10 1, .leaf 20 1, .leaf 30 1, .leaf 40 1, .internal 2 0 1, .internal 2 2 3, .internal 4 4 5] := by
  decide +kernel

/-- V-T9. -/
theorem test_tree_build_freq_empty : (after .treeBuildFreq State.reset).statusWord = 0x012 := by decide +kernel

/-- V-C1. -/
theorem test_table_derive :
    let t := after .tableDerive nineTree
    t.statusWord = 0x302 ∧ t.code 0 = some [true, true] ∧ t.code 1 = some [false, false] ∧
      t.code 3 = some [true, false, false] ∧ t.ctInfoWord 255 = 0x80000003 ∧ t.ctInfoWord 4 = 0 := by decide +kernel

/-- V-C6. -/
theorem test_table_derive_no_tree : (after .tableDerive State.reset).statusWord = 0x042 := by decide +kernel

/-- V-C5. -/
theorem test_table_lookup : (after (.tableLookup 2 255) nineTable).bits 2 = [true, false, true] := by decide +kernel

/-- V-C3. -/
theorem test_table_lookup_missing :
    let t := after (.tableLookup 0 4) nineTable
    t.statusWord = 0x322 ∧ t.errSymbol = 4 ∧ t.errIndex = 0 := by decide +kernel

/-- V-E1. -/
theorem test_encode : (after (.encode 0) nineTable).bits 0 = nineBits := by decide +kernel

/-- V-E11. -/
theorem test_encode_missing :
    let t := after (.encode 0) (load [255, 3, 8] nineTable)
    t.statusWord = 0x322 ∧ t.errIndex = 2 ∧ t.errSymbol = 8 ∧ t.bits 0 = [] := by decide +kernel

/-- V-D1. -/
theorem test_decode_bits :
    let t := after (.decode 0) (withBits 0 nineBits 0 nineTable)
    t.outLen = 9 ∧ t.outMem = Memory.writeBytes [] 0 nine := by decide +kernel

/-- V-D2: one bit short. -/
theorem test_decode_truncated :
    let t := after (.decode 0) (withBits 0 nineBits.dropLast 0 nineTable)
    t.statusWord = 0x332 ∧ t.errIndex = 19 ∧ t.outLen = 0 := by decide +kernel

/-! ### Lifecycle, bus and reset vectors -/

/-- V-X4 through a step: a nonzero RSV field. -/
theorem test_step_illegal : (Answer.state State.reset (step (State.reset.accept 0x01000000))).statusWord = 0x072 := by
  decide +kernel

/-- V-X7: the second word is dropped. -/
theorem test_overrun : (pendingBuild.busWrite 0x000002 0).statusWord = 0x005 ∧
    (pendingBuild.busWrite 0x000002 0).cmd = 0x00000010 := by decide +kernel

/-- V-X10. -/
theorem test_status_w1c :
    ({ State.reset with done := true, overrun := true }.busWrite 0x000001 0xFFFFFFFF).statusWord = 0 := by decide +kernel

/-- V-X14. -/
theorem test_ctrl_reserved : ((State.reset.busWrite 0x000000 0xFFFFFFFF).busRead 0x000000).1 = 1 := by decide +kernel

/-- V-M1, V-M2, V-M6. -/
theorem test_unmapped_reads : (State.reset.busRead 0x00000F).1 = 0 ∧ (State.reset.busRead 0x000014).1 = 0 ∧
    (State.reset.busRead 0x011000).1 = 0 := by decide +kernel

/-- V-M3. -/
theorem test_in_byte : ((State.reset.busWrite 0x010000 0x000001FF).busRead 0x010000).1 = 0xFF := by decide +kernel

/-- V-M4. -/
theorem test_capacities : (State.reset.busRead 0x00000B).1 = 0x00001000 ∧ (State.reset.busRead 0x00000C).1 = 0x00001000 ∧
    (State.reset.busRead 0x00000D).1 = 0x00010000 ∧ (State.reset.busRead 0x00000E).1 = 0x00001804 := by decide +kernel

/-- V-T12. -/
theorem test_freq_truncation : ((State.reset.busWrite 0x000100 0x01000005).busRead 0x000100).1 = 5 := by decide +kernel

/-- The views of V-T1's table. -/
theorem test_node_views : (nineTree.busRead 0x000407).1 = 0x80000005 ∧ (nineTree.busRead 0x000607).1 = 5 ∧
    (nineTree.busRead 0x000404).1 = 0x000000FF ∧ (nineTree.busRead 0x0005FF).1 = 0 := by decide +kernel

/-- The expansion of R97. -/
theorem test_expand : HostOp.expand (.loadIn [7, 9]) =
    [.write 0x010000 7, .write 0x010001 9, .write 0x000003 2] ∧
    HostOp.expand (.run (.decode 0)) = [.write 0x000002 0x00000031, .wait] := by decide +kernel

/-! ### States that meet the statements' hypotheses -/

/-- Counts of a short input have CNT_W bits. -/
theorem count_lt (bytes : List Byte) (h : bytes.length < 2 ^ 24) (sym : Byte) :
    (countBytes bytes)[sym.toNat]'sym.isLt < 2 ^ Params.reference.cntW := by
  rw [countBytes_get]; exact Nat.lt_of_le_of_lt List.count_le_length h

/-- What an idle state of the reference configuration has, with a tree built and nothing in OUT. -/
structure Built (s : State) (bytes : List Byte) : Prop where
  cfg : s.cfg = Params.reference
  busy : s.busy = false
  pending : s.pending = none
  index : s.errIndex = 0
  symbol : s.errSymbol = 0
  result : s.result.bit = false
  outLen : s.outLen = 0
  outMem : s.outMem = []
  freq : s.freq = countBytes bytes
  treeValid : s.treeValid = true
  nodeCount : s.nodeCount = s.nodes.length
  root : s.root = s.nodes.length - 1

/-- Its invariant. -/
theorem built_inv {s : State} {bytes : List Byte} (hb : bytes.length < 2 ^ 24) (hs : Built s bytes)
    (h1 : ∀ c, (s.bits c).length ≤ 65536 ∧ s.pos c ≤ (s.bits c).length)
    (h2 : ∀ c : CIdx, 4 ≤ c.val → s.container c = Container.empty)
    (h3 : s.inMem.wf = true ∧ s.inMem.below 4096 = true)
    (h4 : buildTree (countBytes bytes) = some s.nodes) (h5 : s.tableValid = false → s.codes = CodeTable.cleared)
    (h6 : s.tableValid = true → s.codes = deriveCodes s.nodes s.root) : MachineInv s where
  legal := by rw [hs.cfg]; decide
  busyPending := by rw [hs.busy, hs.pending]; rfl
  accepted := by rw [hs.pending]; intro w h; cases h
  report := fun _ => ⟨hs.index, hs.symbol⟩
  resultBit := fun _ => hs.result
  bitLen := fun c => by rw [hs.cfg]; exact (h1 c).1
  bitPos := fun c => (h1 c).2
  absent := fun c hc => h2 c (by
    rw [hs.cfg] at hc; exact Nat.le_of_not_lt (of_decide_eq_false hc))
  inForm := by rw [hs.cfg]; exact h3
  outForm := by rw [hs.outLen, hs.outMem]; exact ⟨rfl, fun i => by simp [Memory.read]⟩
  outLen := by rw [hs.outLen]; simp
  freq := fun sym => by simp only [State.freqAt, hs.freq, hs.cfg]; exact count_lt bytes hb sym
  noTree := by rw [hs.treeValid]; intro h; cases h
  tree := fun _ => ⟨hs.nodeCount, hs.root, countBytes bytes, by rw [hs.cfg]; exact count_lt bytes hb, h4⟩
  noTable := fun h sym => by rw [State.code, h5 h]; simp [CodeTable.entry, CodeTable.cleared]
  table := fun h => ⟨hs.treeValid, h6 h⟩

theorem nineTree_built : Built nineTree nine := by constructor <;> rfl
theorem nineTable_built : Built nineTable nine := by constructor <;> rfl
theorem oneTable_built : Built oneTable [7, 7, 7] := by constructor <;> rfl

theorem nineTree_inv : MachineInv nineTree :=
  built_inv (by decide) nineTree_built (by decide +kernel) (by decide +kernel) (by decide +kernel) (by decide +kernel)
    (fun _ => rfl) (by intro h; cases h)

theorem nineTable_inv : MachineInv nineTable :=
  built_inv (by decide) nineTable_built (by decide +kernel) (by decide +kernel) (by decide +kernel) (by decide +kernel)
    (by intro h; cases h) (fun _ => rfl)

theorem oneTable_inv : MachineInv oneTable :=
  built_inv (by decide) oneTable_built (by decide +kernel) (by decide +kernel) (by decide +kernel) (by decide +kernel)
    (by intro h; cases h) (fun _ => rfl)

theorem nineBits_inv : MachineInv (withBits 0 nineBits.dropLast 0 nineTable) :=
  built_inv (bytes := nine) (by decide) (by constructor <;> rfl) (by decide +kernel) (by decide +kernel) (by decide +kernel)
    (by decide +kernel) (by intro h; cases h) (fun _ => rfl)

/-- V-T5's tree and V-C11's table, with the encoding of [5, 9] cut by its last bit in c0. -/
def twoTable : State :=
  withBits 0 [false] 0 (withTable (deriveCodes [.leaf 5 1, .leaf 9 2, .internal 3 0 1] 2)
    (withCounts [5, 9, 9] ((load [5, 9, 9] State.reset).commitTree [.leaf 5 1, .leaf 9 2, .internal 3 0 1])))

theorem twoTable_inv : MachineInv twoTable :=
  built_inv (bytes := [5, 9, 9]) (by decide) (by constructor <;> rfl) (by decide +kernel) (by decide +kernel)
    (by decide +kernel) (by decide +kernel) (by intro h; cases h) (fun _ => rfl)

/-- V-C1's table in a block whose OUT holds one byte. -/
def tightTable : State := { nineTable with cfg := { Params.reference with outCap := 1 } }

theorem tightTable_inv : MachineInv tightTable :=
  { nineTable_inv with
    legal := by decide
    bitLen := nineTable_inv.bitLen
    absent := nineTable_inv.absent
    inForm := nineTable_inv.inForm
    outLen := by decide
    freq := nineTable_inv.freq
    tree := nineTable_inv.tree }

/-- A state without a tree, with input loaded. -/
def ready : State := load nine State.reset

/-- The invariant of a state that differs from reset only in the operands. -/
theorem operands_inv (m : Memory) (n : Word) (h : m.wf = true ∧ m.below 4096 = true) :
    MachineInv { State.reset with inMem := m, inLen := n } where
  legal := by show Params.reference.legal = true; decide
  busyPending := rfl
  accepted := by intro w h; cases h
  report := fun _ => ⟨rfl, rfl⟩
  resultBit := fun _ => rfl
  bitLen := fun c => by simp [State.bits, State.container, State.reset, State.resetWith, Container.empty]
  bitPos := fun c => by simp [State.bits, State.pos, State.container, State.reset, State.resetWith, Container.empty]
  absent := fun c _ => by simp [State.container, State.reset, State.resetWith]
  inForm := h
  outForm := ⟨rfl, fun i => by show (none : Option Byte).isSome = true ↔ i < 0; simp⟩
  outLen := by simp [State.reset, State.resetWith]
  freq := fun sym => by simp [State.freqAt, State.reset, State.resetWith, Params.reference]
  noTree := fun _ => ⟨rfl, rfl, rfl⟩
  tree := by intro h; cases h
  noTable := fun _ sym => by simp [State.code, State.reset, State.resetWith, CodeTable.entry]
  table := by intro h; cases h

theorem ready_inv : MachineInv ready := operands_inv _ _ (by decide)

/-- A state without a tree and without operands. -/
def idleState : State := { State.reset with inMem := [], inLen := 1 }

theorem idleState_inv : MachineInv idleState := operands_inv _ _ (by decide)

/-- A NOP pending, as acceptance leaves it. -/
def pendingNop : State := idleState.accept 0

theorem pendingNop_inv : MachineInv pendingNop :=
  { idleState_inv with
    busyPending := rfl
    accepted := fun w h => by cases h; exact ⟨rfl, rfl, rfl, rfl, rfl⟩
    report := fun _ => ⟨rfl, rfl⟩ }

/-- A word whose decoding succeeds; and its row. -/
theorem witness_EncodeAfterDecode : decode 0x00FF0221 = .ok (.tableLookup 2 255) := rfl

/-- A word under a row, a row of the table, and a configuration's state. -/
theorem witness_DecodingIsTotalAndUnambiguous :
    (Instr.bcPush 3 true).row ∈ opcodeRows ∧ (Instr.bcPush 3 true).row.hits 0x00010302 = true ∧
    State.reset.cfg = Params.reference := by decide

/-- The ends of R94's four ranges. -/
theorem witness_ReservedOpcodesAreIllegal :
    [0x09#32, 0x0F, 0x12, 0x1F, 0x22, 0x2F, 0x32, 0xFF].all (fun w =>
      let op := (fieldOp w).toNat
      decide (0x09 ≤ op ∧ op ≤ 0x0F ∨ 0x12 ≤ op ∧ op ≤ 0x1F ∨ 0x22 ≤ op ∧ op ≤ 0x2F ∨ 0x32 ≤ op)) = true := by decide

/-- An empty schedule and one that names the engine's turn; the second word is DECODE's opcode with a bad field. -/
theorem witness_IllegalWordChangesOnlyTheReport :
    EngineNext (State.reset.accept 0x00000401) [] ∧
    EngineNext { State.reset.accept 0x00001031 with schedule := [.engine, .wait] } [.wait] ∧
    (State.reset.accept 0x00001031).pending = some 0x00001031 ∧ legalWord State.reset.cfg 0x00001031 = false ∧ (State.reset.accept 0x00000401).pending = some 0x00000401 ∧
    legalWord State.reset.cfg 0x00000401 = false :=
  ⟨.inr ⟨rfl, rfl⟩, .inl rfl, by decide⟩

theorem witness_StepRunsThePendingCommand :
    pendingBuild.pending = some 0x00000010 ∧ decode 0x00000010 = .ok .treeBuild ∧ pendingBuild.schedule = [] ∧
    { pendingBuild with schedule := [.engine] }.schedule = .engine :: [] := ⟨rfl, rfl, rfl, rfl⟩

/-- One schedule for each clause. -/
theorem witness_HostTurnsComeInOrder :
    { State.reset with schedule := [.read 6] }.schedule = .read 6 :: [] ∧
    { State.reset with schedule := [.write 3 9] }.schedule = .write 3 9 :: [] ∧
    { State.reset with schedule := [.reset] }.schedule = .reset :: [] ∧
    ({ State.reset with schedule := [.wait] }.schedule = .wait :: [] ∧ State.reset.busy = false) ∧
    ({ pendingBuild with schedule := [.wait] }.schedule = .wait :: [] ∧ pendingBuild.busy = true) :=
  ⟨rfl, rfl, rfl, ⟨rfl, rfl⟩, rfl, rfl⟩

theorem witness_StepsNeverStopAndCompleteTheCommand :
    (EngineNext pendingBuild [] ∧ EngineNext { pendingBuild with schedule := [.engine] } [] ∧
      pendingBuild.pending = some 0x00000010) ∧
    (EngineNext State.reset [] ∧ EngineNext { State.reset with schedule := [.engine] } [] ∧
      State.reset.pending = none) :=
  ⟨⟨.inr ⟨rfl, rfl⟩, .inl rfl, rfl⟩, .inr ⟨rfl, rfl⟩, .inl rfl, rfl⟩

theorem witness_AcceptanceTakesTheWord : State.reset.busy = false ∧
    legalWord State.reset.cfg 0x00000009 = false ∧ EngineNext State.reset [] ∧
    EngineNext { State.reset with schedule := [.engine] } [] := ⟨rfl, by decide, .inr ⟨rfl, rfl⟩, .inl rfl⟩

theorem witness_OverrunDropsTheWord : pendingBuild.busy = true ∧
    ∃ t, (pendingBuild.busWrite 0x000002 0).overrun = true ∧ step (pendingBuild.busWrite 0x000002 0) = .next t :=
  ⟨rfl, _, rfl, rfl⟩

/-- One address for each clause, the last byte of IN and a read-only row among them. -/
theorem witness_IdleWriteEffects : State.reset.busy = false ∧
    locate State.reset.cfg 0x000000 = .ctrl ∧ locate State.reset.cfg 0x000001 = .status ∧
    locate State.reset.cfg 0x000002 = .cmd ∧ locate State.reset.cfg 0x000003 = .inLen ∧
    locate State.reset.cfg 0x000004 = .decCount ∧ locate State.reset.cfg 0x0001FF = .freq 255 ∧
    locate State.reset.cfg 0x010FFF = .inByte 4095 ∧ locate State.reset.cfg 0x000005 = .outLen := by decide +kernel

theorem witness_BusyWriteEffects : pendingBuild.busy = true ∧ locate pendingBuild.cfg 0x000000 = .ctrl ∧
    locate pendingBuild.cfg 0x000001 = .status ∧ locate pendingBuild.cfg 0x000002 = .cmd ∧
    locate pendingBuild.cfg 0x000003 ∉ [Target.ctrl, .status, .cmd] := by decide

theorem witness_PendingCommandIgnoresHostWrites : pendingBuild.busy = true ∧
    ∃ t, runWord 0x00000010 pendingBuild = .next t := ⟨rfl, _, rfl⟩

theorem witness_BusyReadsAreDefinedOrFree : pendingBuild.busy = true ∧
    (locate pendingBuild.cfg 0x000002).definedWhileBusy = true ∧
    (locate pendingBuild.cfg 0x000005).definedWhileBusy = false := by decide

/-- The first and the last address of a window, and the largest legal parameters. -/
theorem witness_AddressMapHasNoOverlap :
    Params.legal { inCap := 65536, outCap := 65536, bcCap := 524288, nbc := 16, cntW := 24 } = true ∧
    Target.mapped Params.reference (.bcData 3 8191) = true ∧ locate Params.reference 0x131FFF = .bcData 3 8191 ∧
    locate Params.reference 0x132000 = .unmapped := by decide +kernel

theorem witness_UnmappedReadsZeroAndIgnoresWrites :
    locate State.reset.cfg 0x000024 = .unmapped ∧ State.reset.busy = false := by decide

/-- A decoded byte in OUT. -/
def oneOut : State := { idleState with outLen := 1, outMem := [(0, 0x41)] }

theorem oneOut_inv : MachineInv oneOut :=
  { idleState_inv with
    outForm := ⟨rfl, fun i => by
      cases i with
      | zero => exact ⟨fun _ => by decide, fun _ => rfl⟩
      | succ n => exact ⟨fun h => by simp [oneOut, Memory.read] at h, fun h => absurd h (by simp [oneOut])⟩⟩
    outLen := by decide }

/-- OUT at OUT_LEN - 1 and at OUT_LEN; IN written and not yet written, the last byte among them. -/
theorem witness_ReadsHaveNoSideEffect :
    (MachineInv oneOut ∧ oneOut.busy = false ∧ 0 < oneOut.outLen.toNat ∧ oneOut.outMem.read 0 = some 0x41 ∧
      oneOut.outLen.toNat ≤ 1 ∧ 1 < oneOut.cfg.outCap) ∧
    (MachineInv ready ∧ ready.busy = false ∧ ready.inMem.read 8 = some 255 ∧
      ready.inMem.read 9 = none ∧ 4095 < ready.cfg.inCap ∧ ready.inMem.read 4095 = none) :=
  ⟨⟨oneOut_inv, by decide +kernel⟩, ready_inv, by decide +kernel⟩

/-- The bus gives the byte below OUT_LEN, and a free byte with one draw at OUT_LEN (R42). -/
theorem test_read_out : (oneOut.busRead 0x020000).1 = 0x41 ∧ (oneOut.busRead 0x020000).2 = oneOut ∧
    oneOut.busRead 0x020001 = ((Config.freeByte 0).setWidth 32, { oneOut with draws := 1 }) :=
  ⟨by decide, rfl, by
    rw [busRead_idle rfl, show locate oneOut.cfg 0x020001 = .outByte 1 by decide +kernel]
    exact readOut_beyond (s := oneOut) (i := 1) (by decide)⟩

/-- A busy and an idle state, with a tree, the last container that exists, and the last counter. -/
theorem witness_RegisterWordsHaveTheirFields :
    pendingBuild.busy = true ∧ MachineInv nineTable ∧ nineTable.busy = false ∧ nineTable.nodeCount = 9 ∧
    containerExists nineTable.cfg 3 = true ∧ nineTable.freqAt 255 = 1 := ⟨rfl, nineTable_inv, by decide +kernel⟩

/-- The first and the last index of a byte; the last word of the last container. -/
theorem witness_PackedViewIsMostSignificantFirst : 0 < 8 ∧ 7 < 8 ∧ State.reset.cfg.legal = true ∧
    State.reset.busy = false ∧ containerExists State.reset.cfg 3 = true ∧ 8191 < State.reset.cfg.bcCap / 8 := by decide

/-- A leaf, an internal node, an index at NODE_COUNT, a valid and an invalid entry. -/
theorem witness_TableAndNodeViewsHaveTheirFields : MachineInv nineTable ∧
    nineTable.nodeCount ≤ 9 ∧ nineTable.node 4 = .leaf 255 1 ∧ nineTable.node 8 = .internal 9 6 7 ∧
    nineTable.code 4 = none ∧ nineTable.code 3 = some [true, false, false] ∧ nineTable.busy = false ∧ 511 < 512 :=
  ⟨nineTable_inv, by decide +kernel⟩

theorem witness_ParametersNeverChange : State.reset.cfg.legal = true ∧ ∃ t, step pendingBuild = .next t :=
  ⟨by decide, _, rfl⟩

theorem witness_IdleWriteThenReadBack : State.reset.busy = false ∧ State.reset.cfg.legal = true ∧
    locate State.reset.cfg 0x000003 = .inLen ∧ locate State.reset.cfg 0x000100 = .freq 0 ∧
    locate State.reset.cfg 0x010000 = .inByte 0 := by decide +kernel

theorem witness_InterruptFollowsDoneAndEnable : State.reset.busy = false ∧ pendingBuild.busy = true ∧
    (0x2#32).getLsbD 1 = true ∧ (0x1#32).getLsbD 0 = true ∧ (0x2#32).getLsbD 0 = false := by decide

/-- A written and an unwritten byte. -/
theorem witness_InputBytesAreWrittenOrFresh :
    let s := { load [7] State.reset with inLen := 2 }
    0 < s.inCount ∧ s.inMem.read 0 = some 7 ∧ 1 < s.inCount ∧ s.inMem.read 1 = none := by decide

/-- The last container that exists, for every statement about one container. -/
theorem witness_container : containerExists State.reset.cfg 3 = true ∧ containerExists State.reset.cfg 4 = false := by
  decide

/-- A configuration of the smallest capacities. -/
def smallest : State := State.resetWith { inCap := 1, outCap := 1, bcCap := 256, nbc := 2, cntW := 1 }

/-- A container one bit below BC_CAP, and one at it. -/
theorem witness_PushAppendsOneBit : containerExists smallest.cfg 1 = true ∧
    ((withBits 1 (List.replicate 255 true) 0 smallest).bits 1).length ≠ smallest.cfg.bcCap ∧
    ((withBits 1 (List.replicate 256 true) 0 smallest).bits 1).length = smallest.cfg.bcCap := by decide +kernel

/-- IN_LEN at IN_CAP, and one above it. -/
theorem witness_FromBitsTakesOneBitPerByte : containerExists smallest.cfg 0 = true ∧
    { smallest with inLen := 1 }.inCount ≤ smallest.cfg.inCap ∧
    { smallest with inLen := 1 }.inCount ≤ smallest.cfg.bcCap ∧
    smallest.cfg.inCap < { smallest with inLen := 2 }.inCount ∧
    State.reset.cfg.bcCap < { State.reset with inLen := 65537 }.inCount := by decide

theorem witness_FromBytesUnpacksMostSignificantFirst : containerExists smallest.cfg 0 = true ∧
    { smallest with inLen := 1 }.inCount ≤ smallest.cfg.inCap ∧
    8 * { smallest with inLen := 1 }.inCount ≤ smallest.cfg.bcCap ∧
    smallest.cfg.inCap < { smallest with inLen := 2 }.inCount ∧
    State.reset.cfg.bcCap < 8 * { State.reset with inLen := 8193 }.inCount := by decide

/-- A sum at BC_CAP, and one above it. -/
theorem witness_AppendMovesTheSource : containerExists smallest.cfg 0 = true ∧ containerExists smallest.cfg 1 = true ∧
    (0 : CIdx) ≠ 1 ∧
    (let s := withBits 1 [true] 1 (withBits 0 (List.replicate 255 true) 0 smallest);
      (s.bits 0).length + (s.bits 1).length ≤ s.cfg.bcCap) ∧
    (let s := withBits 1 [true, false] 1 (withBits 0 (List.replicate 255 true) 0 smallest);
      s.cfg.bcCap < (s.bits 0).length + (s.bits 1).length) := by decide +kernel

/-- A position inside the container, and one at its end. -/
theorem witness_IterNextYieldsTheNextBit : containerExists State.reset.cfg 2 = true ∧
    (withBits 2 [true, false] 1 State.reset).pos 2 < ((withBits 2 [true, false] 1 State.reset).bits 2).length ∧
    ((withBits 2 [true, false] 2 State.reset).bits 2).length ≤ (withBits 2 [true, false] 2 State.reset).pos 2 := by
  decide +kernel

theorem witness_AlignPadsToAMultipleOfEight : containerExists smallest.cfg 0 = true ∧ smallest.cfg.legal = true ∧
    ((withBits 0 (List.replicate 249 true) 0 smallest).bits 0).length ≤ smallest.cfg.bcCap := by decide +kernel

theorem witness_PushingEqualsConstructing :
    let s := load [1, 1, 0, 1] State.reset
    containerExists s.cfg 1 = true ∧ s.inCount = 4 ∧ s.input = [true, true, false, true].map (fun x => if x then 1 else 0) := by
  decide +kernel

theorem witness_TreeBuildCountsAndBuilds :
    (0 < (load nine State.reset).inCount ∧ (load nine State.reset).inCount ≤ (load nine State.reset).cfg.inCap) ∧
    State.reset.cfg.inCap < { State.reset with inLen := 4097 }.inCount ∧ State.reset.inCount = 0 := by decide

theorem witness_TreeBuildFreqBuildsFromTheCounters :
    (∃ sym, 0 < (withCounts nine State.reset).freqAt sym) ∧ ∀ sym, State.reset.freqAt sym = 0 :=
  ⟨⟨255, by decide +kernel⟩, fun sym => by simp [State.freqAt, State.reset, State.resetWith]⟩

/-- Each clause's executions, with ERR = OK. -/
theorem witness_BuildingIsDeterministic :
    (load [5, 9, 9] State.reset).input.Perm (load [9, 5, 9] State.reset).input ∧
    (∃ t, exec .treeBuild (load [5, 9, 9] State.reset) = .next t ∧ t.err = .ok) ∧
    (∃ t, exec .treeBuild (load [9, 5, 9] State.reset) = .next t ∧ t.err = .ok) ∧
    (∃ t, exec .treeBuildFreq nineTree = .next t ∧ t.err = .ok) ∧
    (∃ t, exec .tableDerive nineTree = .next t ∧ t.err = .ok) ∧
    SameFreq nineTree nineTree ∧ SameTree nineTree nineTree :=
  ⟨by decide, ⟨_, rfl, by decide +kernel⟩, ⟨_, rfl, by decide +kernel⟩, ⟨_, rfl, by decide +kernel⟩,
    ⟨_, rfl, by decide +kernel⟩, fun _ => rfl, rfl, rfl, rfl, rfl⟩

theorem witness_CountsAreExactSums : MachineInv nineTree ∧ nineTree.node 4 = .leaf 255 1 ∧
    nineTree.node 7 = .internal 5 5 0 ∧ (∃ t, exec .treeBuild (load nine State.reset) = .next t ∧ t.err = .ok) ∧
    ∃ t, exec .treeBuildFreq nineTree = .next t ∧ t.err = .ok :=
  ⟨nineTree_inv, by decide +kernel, by decide +kernel, ⟨_, rfl, by decide +kernel⟩, _, rfl, by decide +kernel⟩

/-- A tree of two leaves or more, and a leaf of it. -/
theorem witness_BuiltTreesHaveTheShapeFacts :
    (∃ t, exec .treeBuild (load nine State.reset) = .next t ∧ t.err = .ok ∧ t.node 8 = .internal 9 6 7 ∧
      IsLeafOf t.nodes 4 255) :=
  ⟨_, rfl, by decide +kernel, by decide +kernel, 1, by decide +kernel⟩

/-- With a tree and without one. -/
theorem witness_ArenaIsATreeWhileValid : (MachineInv nineTree ∧ nineTree.treeValid = true) ∧
    (MachineInv idleState ∧ idleState.treeValid = false) := ⟨⟨nineTree_inv, rfl⟩, idleState_inv, rfl⟩

theorem witness_LookupCopiesTheCode : containerExists nineTable.cfg 0 = true ∧
    (nineTable.tableValid = true ∧ nineTable.code 3 = some [true, false, false]) ∧
    (nineTable.tableValid = true ∧ nineTable.code 4 = none) ∧ nineTree.tableValid = false := by decide +kernel

theorem witness_CodesArePathsAndPrefixFree : MachineInv nineTable ∧ nineTable.tableValid = true ∧ (0 : Byte) ≠ 255 ∧
    nineTable.code 0 = some [true, true] ∧ nineTable.code 255 = some [true, false, true] :=
  ⟨nineTable_inv, rfl, by decide, by decide +kernel, by decide +kernel⟩

theorem witness_CodeIsComplete : MachineInv nineTable ∧ nineTable.tableValid = true ∧ nineTable.nodeCount ≠ 1 :=
  ⟨nineTable_inv, rfl, by decide +kernel⟩

theorem witness_FrequentSymbolsHaveShortCodes : MachineInv nineTable ∧ nineTable.tableValid = true ∧
    nineTable.node 0 = .leaf 0 3 ∧ nineTable.node 4 = .leaf 255 1 ∧ 1 < 3 :=
  ⟨nineTable_inv, rfl, by decide +kernel, by decide +kernel, by decide⟩

/-- One state for each clause: all codes present and fitting; no table; IN_LEN above IN_CAP; a byte without a code. -/
theorem witness_EncodeConcatenatesTheCodes : containerExists nineTable.cfg 0 = true ∧
    (nineTable.tableValid = true ∧ nineTable.inCount ≤ nineTable.cfg.inCap ∧
      (∀ v ∈ nineTable.input, nineTable.ctValid v = true) ∧ (nineTable.input.map nineTable.ctLen).sum ≤ nineTable.cfg.bcCap) ∧
    nineTree.tableValid = false ∧
    nineTable.cfg.inCap < { nineTable with inLen := 4097 }.inCount ∧
    (let s := load [255, 3, 8] nineTable;
      s.input[2]? = some 8 ∧ (∀ u ∈ s.input.take 2, s.ctValid u = true) ∧ s.ctValid 8 = false ∧
        ((s.input.take 2).map s.ctLen).sum ≤ s.cfg.bcCap) := by decide +kernel

/-- The overflow clause, in a block of the least BC_CAP: 129 codes of two bits. -/
theorem witness_EncodeOverflow :
    let s := { load (List.replicate 129 0) nineTable with cfg := { Params.reference with bcCap := 256 } }
    s.cfg.legal = true ∧ s.tableValid = true ∧ s.inCount ≤ s.cfg.inCap ∧ s.input[128]? = some 0 ∧
      (∀ u ∈ s.input.take 128, s.ctValid u = true) ∧ ((s.input.take 128).map s.ctLen).sum ≤ s.cfg.bcCap ∧
      s.ctValid 0 = true ∧ s.cfg.bcCap < ((s.input.take 128).map s.ctLen).sum + s.ctLen 0 := by decide +kernel

/-- The paths of V-T1's tree that the decoding statements use. -/
theorem nineTable_paths : PathTo nineTable.nodes nineTable.root [true, true] 0 ∧ IsLeafOf nineTable.nodes 0 0 ∧
    PathTo nineTable.nodes nineTable.root [true] 7 ∧ ∀ sym, ¬ IsLeafOf nineTable.nodes 7 sym := by
  refine ⟨⟨9, 6, 7, rfl, 5, 5, 0, rfl, rfl⟩, ⟨3, rfl⟩, ⟨9, 6, 7, rfl, rfl⟩, ?_⟩
  rintro sym ⟨n, h⟩
  cases (show Node.internal 5 5 0 = .leaf sym n from h)

/-- Each clause: no tree; one leaf with and without bits, DEC_COUNT at and above OUT_CAP; whole codes, and a rest that ends
off the root. -/
theorem witness_DecodeWalksTheTree :
    (MachineInv idleState ∧ idleState.treeValid = false) ∧
    (MachineInv oneTable ∧ oneTable.treeValid = true ∧ oneTable.nodeCount = 1 ∧ oneTable.node oneTable.root = .leaf 7 3 ∧
      (withBits 0 [true] 0 oneTable).bits 0 ≠ [] ∧ oneTable.bits 0 = [] ∧
      oneTable.cfg.outCap < { oneTable with decCount := 4097 }.decCount.toNat ∧
      { oneTable with decCount := 4096 }.decCount.toNat ≤ oneTable.cfg.outCap) ∧
    (MachineInv nineTable ∧ nineTable.treeValid = true ∧ nineTable.nodeCount ≠ 1 ∧
      LeafPaths nineTable [([true, true], 0)] ∧
      (withBits 0 [true, true, true] 0 nineTable).bits 0 = [([true, true], (0 : Byte))].flatMap (·.1) ++ [true] ∧
      PathTo nineTable.nodes nineTable.root [true] 7 ∧ ∀ sym, ¬ IsLeafOf nineTable.nodes 7 sym) := by
  refine ⟨⟨idleState_inv, rfl⟩, ⟨oneTable_inv, by decide +kernel⟩, nineTable_inv, rfl, by decide +kernel, ?_, by decide +kernel,
    nineTable_paths.2.2.1, nineTable_paths.2.2.2⟩
  intro g hg
  cases List.mem_singleton.1 hg
  exact ⟨0, nineTable_paths.1, nineTable_paths.2.1⟩

/-- The overflow clause: OUT_CAP = 1 and two codes. -/
theorem witness_DecodeOverflow : MachineInv tightTable ∧
    [([true, true], (0 : Byte)), ([true, true], 0)].length = tightTable.cfg.outCap + 1 ∧
    (withBits 0 [true, true, true, true] 0 tightTable).bits 0 =
      [([true, true], (0 : Byte)), ([true, true], 0)].flatMap (·.1) ++ [] :=
  ⟨tightTable_inv, by decide +kernel⟩

theorem witness_RoundTrip : MachineInv ready ∧ containerExists ready.cfg 0 = true ∧ 0 < ready.inCount ∧
    ready.inCount ≤ ready.cfg.inCap ∧ ready.inCount ≤ ready.cfg.outCap ∧
    (∀ i, i < ready.inCount → (ready.inMem.read i).isSome = true) ∧
    ∃ s1 s2 s3 s4, exec .treeBuild ready = .next s1 ∧ exec .tableDerive s1 = .next s2 ∧
      exec (.encode 0) s2 = .next s3 ∧ s3.err = .ok ∧ (s1.nodeCount = 1 → ready.decCount.toNat = ready.inCount) ∧
      exec (.decode 0) s3 = .next s4 :=
  ⟨ready_inv, by decide, by decide, by decide, by decide, by decide, _, _, _, _, rfl, rfl, rfl, by decide +kernel,
    by decide +kernel, rfl⟩

/-- A last code of three bits; and V-D4's case in small, a last code of one bit. -/
theorem witness_TruncatedEncodingFails :
    (MachineInv (withBits 0 nineBits.dropLast 0 nineTable) ∧ nineTable.tableValid = true ∧ nineTable.nodeCount ≠ 1 ∧
      (∀ u ∈ nine, nineTable.ctValid u = true) ∧ nine.length ≤ nineTable.cfg.outCap ∧
      (withBits 0 nineBits.dropLast 0 nineTable).bits 0 = (nine.flatMap nineTable.ctCode).dropLast ∧
      2 ≤ nineTable.ctLen 255) ∧
    (MachineInv twoTable ∧ twoTable.tableValid = true ∧ twoTable.nodeCount ≠ 1 ∧
      (∀ u ∈ [5, 9], twoTable.ctValid u = true) ∧
      twoTable.bits 0 = ([5, 9].flatMap twoTable.ctCode).dropLast ∧ twoTable.ctLen 9 = 1) :=
  ⟨⟨nineBits_inv, by decide +kernel⟩, twoTable_inv, by decide +kernel⟩

theorem witness_EncodedLengthIsTheWeightedSum : containerExists ready.cfg 0 = true ∧
    (∀ i, i < ready.inCount → (ready.inMem.read i).isSome = true) ∧
    ∃ s1 s2 s3, exec .treeBuild ready = .next s1 ∧ s1.err = .ok ∧ exec .tableDerive s1 = .next s2 ∧
      exec (.encode 0) s2 = .next s3 ∧ s3.err = .ok :=
  ⟨by decide, by decide, _, _, _, rfl, by decide +kernel, rfl, rfl, by decide +kernel⟩

/-- A legal and an illegal command. -/
theorem witness_ErrorsComeFromTheirCommands : (∃ t, exec .nop State.reset = .next t) ∧
    Instr.wellFormed State.reset.cfg .nop = true ∧ Instr.wellFormed State.reset.cfg (.decode 4) = false := by
  exact ⟨⟨_, rfl⟩, rfl, by decide⟩

/-- A failing DECODE, and a failing command of another kind. -/
theorem witness_FailingCommandsChangeNothingElse :
    (∃ t, exec (.decode 0) State.reset = .next t ∧ t.err ≠ .ok) ∧
    ∃ t, exec .treeBuild State.reset = .next t ∧ t.err ≠ .ok :=
  ⟨⟨_, rfl, by decide +kernel⟩, _, rfl, by decide +kernel⟩

theorem witness_ValidityFlagsFollowBuildsAndDerives :
    (∃ t, exec .treeBuild ready = .next t ∧ t.err = .ok) ∧ (∃ t, exec .tableDerive nineTree = .next t ∧ t.err = .ok) ∧
    (∃ t, step nineTree = .next t ∧ nineTree.treeValid = true) ∧ MachineInv nineTable ∧ nineTable.tableValid = true :=
  ⟨⟨_, rfl, by decide +kernel⟩, ⟨_, rfl, by decide +kernel⟩, ⟨_, rfl, rfl⟩, nineTable_inv, rfl⟩

theorem witness_ResetPutsEveryStateAtItsValue :
    { pendingBuild with schedule := [.reset] }.schedule = .reset :: [] := rfl

theorem witness_InvariantHoldsAtReset : Params.legal smallest.cfg = true := by decide

/-- A step that executes a command, from a state with the invariant. -/
theorem witness_StepKeepsTheInvariant : MachineInv pendingNop ∧ ∃ t, step pendingNop = .next t :=
  ⟨pendingNop_inv, _, rfl⟩

end Sys2Proof.Tests
end

section
/-! PROOFS. Every step keeps the machine's invariant: one rule per operation on the state, one lemma per command's
effect, one per turn. -/

namespace Sys2Proof.Machine

/-! ### The rules of the state's operations -/

section Operations
variable {s : State}

/-- The ranges of R8 that the capacity arguments rest on. -/
theorem MachineInv.ranges (h : MachineInv s) :
    s.cfg.inCap ≤ 2 ^ s.cfg.cntW - 1 ∧ s.cfg.bcCap % 8 = 0 ∧ 256 ≤ s.cfg.bcCap ∧ s.cfg.outCap ≤ 65536 := by
  have hl := h.legal
  simp only [Params.legal, decide_eq_true_eq] at hl
  omega

/-- The invariant says nothing about CTRL, OVERRUN, IN_LEN, DEC_COUNT, the draws and the host's side. -/
theorem MachineInv.withControls (h : MachineInv s) {irqEn overrun : Bool} {inLen decCount readData : Word}
    {draws : Nat} {schedule : List Event} : MachineInv { s with
      irqEn := irqEn, overrun := overrun, inLen := inLen, decCount := decCount, draws := draws
      schedule := schedule, readData := readData } :=
  { h with }

theorem MachineInv.afterInput (h : MachineInv s) : MachineInv s.afterInput := h.withControls

/-- An acceptance leaves CMD and the report as R210 asks, whatever they were. -/
theorem MachineInv.accept (h : MachineInv s) (w : Word) : MachineInv (s.accept w) :=
  { h with
    busyPending := rfl
    accepted := fun _ hw => ⟨Option.some.inj hw, rfl, rfl, rfl, rfl⟩
    report := fun _ => ⟨rfl, rfl⟩ }

/-- A completion keeps the report, so it needs the report of ERR = OK (R213, R216). -/
theorem MachineInv.complete (h : MachineInv s) (hok : s.err = .ok) : MachineInv s.complete :=
  { h with
    busyPending := rfl
    accepted := fun _ hw => nomatch hw
    report := fun _ => h.report hok }

theorem MachineInv.raise (h : MachineInv s) {e : ErrCode} (index : Nat) (symbol : Byte)
    (he : e ≠ .ok := by decide) : MachineInv (s.raise e index symbol) :=
  { h with
    busyPending := rfl
    accepted := fun _ hw => nomatch hw
    report := fun hok => absurd hok he }

/-- DONE is already 0 while a command is pending, so clearing it changes nothing the invariant asks (R22). -/
theorem MachineInv.writeStatus (h : MachineInv s) (d : Word) : MachineInv (s.writeStatus d) :=
  { h with
    accepted := fun w hw => by
      obtain ⟨hcmd, hdone, hreport⟩ := h.accepted w hw
      exact ⟨hcmd, by simp [hdone], hreport⟩ }

/-- An existing container may be given any contents within BC_CAP and any position within them (R33, R34). -/
theorem MachineInv.setContainer (h : MachineInv s) {c : CIdx} {b : Bits} {p : Nat}
    (hc : containerExists s.cfg c = true) (hlen : b.length ≤ s.cfg.bcCap) (hpos : p ≤ b.length) :
    MachineInv (s.setContainer c { bits := b, pos := p }) :=
  { h with
    bitLen := fun d => by
      rw [State.bits, State.container_setContainer]
      split
      · exact hlen
      · exact h.bitLen d
    bitPos := fun d => by
      rw [State.bits, State.pos, State.container_setContainer]
      split
      · exact hpos
      · exact h.bitPos d
    absent := fun d hd => by
      rw [State.container_setContainer_other]
      · exact h.absent d hd
      · rintro rfl
        exact Bool.noConfusion (hc.symm.trans hd) }

theorem MachineInv.setResult (h : MachineInv s) (valid bit : Bool) (hr : valid = false → bit = false) :
    MachineInv { s with result := { valid := valid, bit := bit } } :=
  { h with resultBit := hr }

theorem MachineInv.withFreq (h : MachineInv s) {f : Counts}
    (hf : ∀ sym : Byte, f[sym.toNat]'sym.isLt < 2 ^ s.cfg.cntW) : MachineInv { s with freq := f } :=
  { h with freq := hf }

theorem MachineInv.setFreq (h : MachineInv s) (sym : Byte) (d : Word) : MachineInv (s.setFreq sym d) :=
  { h with
    freq := fun sym' => by
      rw [State.freqAt_setFreq]
      split
      · exact Nat.mod_lt _ (Nat.two_pow_pos _)
      · exact h.freq sym' }

theorem MachineInv.writeIn (h : MachineInv s) {i : Nat} (hi : i < s.cfg.inCap) (v : Byte) :
    MachineInv { s with inMem := s.inMem.write i v } :=
  { h with inForm := ⟨Memory.wf_write _ i v h.inForm.1, Memory.below_write _ v hi h.inForm.2⟩ }

/-- A build's commit: the table goes with the tree it was derived from (R43). -/
theorem MachineInv.commitTree (h : MachineInv s) {f : Counts} {nodes : List Node}
    (hf : ∀ sym : Byte, f[sym.toNat]'sym.isLt < 2 ^ s.cfg.cntW) (hb : buildTree f = some nodes) :
    MachineInv (s.commitTree nodes) :=
  { h with
    noTree := fun ht => nomatch ht
    tree := fun _ => ⟨rfl, rfl, f, hf, hb⟩
    noTable := fun _ sym => CodeTable.entry_cleared sym
    table := fun ht => nomatch ht }

theorem MachineInv.withTable (h : MachineInv s) (ht : s.treeValid = true) :
    MachineInv { s with codes := deriveCodes s.nodes s.root, tableValid := true } :=
  { h with
    noTable := fun hv => nomatch hv
    table := fun _ => ⟨ht, rfl⟩ }

theorem MachineInv.discardOutput (h : MachineInv s) : MachineInv s.discardOutput :=
  { h with
    outForm := ⟨rfl, fun i => by simp⟩
    outLen := Nat.zero_le _ }

/-- OUT_CAP is far below 2^32, so OUT_LEN holds the number of bytes written (R8, R27). -/
theorem MachineInv.emit (h : MachineInv s) {bytes : List Byte} (hb : bytes.length ≤ s.cfg.outCap) :
    MachineInv (s.emit bytes) := by
  obtain ⟨-, -, -, hcap⟩ := h.ranges
  have hlen : (s.emit bytes).outLen.toNat = bytes.length := by
    rw [State.emit_outLen, BitVec.toNat_ofNat, Nat.mod_eq_of_lt (by omega)]
  exact { h with
    outForm := ⟨Memory.wf_writeBytes bytes [] 0 rfl, fun i => by
      rw [hlen, State.emit_outMem, Memory.read_writeBytes_nil]
      simp⟩
    outLen := hlen ▸ hb }

/-- The reset values meet the invariant in every legal configuration (R240). -/
theorem machineInv_resetWith {p : Params} (hp : p.legal = true) : MachineInv (State.resetWith p) where
  legal := hp
  busyPending := rfl
  accepted := fun _ hw => nomatch hw
  report := fun _ => ⟨rfl, rfl⟩
  resultBit := fun _ => rfl
  bitLen := fun c => by simp [State.bits, State.container, State.resetWith, Container.empty]
  bitPos := fun c => by simp [State.pos, State.container, State.resetWith, Container.empty]
  absent := fun c _ => by simp [State.container, State.resetWith]
  inForm := ⟨rfl, rfl⟩
  outForm := ⟨rfl, fun i => by simp [State.resetWith]⟩
  outLen := Nat.zero_le _
  freq := fun sym => by simp [State.freqAt, State.resetWith]
  noTree := fun _ => ⟨rfl, rfl, rfl⟩
  tree := fun ht => nomatch ht
  noTable := fun _ sym => CodeTable.entry_cleared sym
  table := fun ht => nomatch ht

theorem MachineInv.resetEvent (h : MachineInv s) : MachineInv s.resetEvent :=
  (machineInv_resetWith h.legal).withControls

end Operations

/-! ### One lemma per effect, from a state with ERR = OK, as it is while a command is pending -/

section Effects
variable {s : State}

theorem padding_length (n : Nat) : (padding n).length = (8 - n % 8) % 8 := List.length_replicate

theorem flatMap_byteBits_length (vs : List Byte) : (vs.flatMap byteBits).length = 8 * vs.length := by
  induction vs with
  | nil => rfl
  | cons v vs ih =>
    rw [List.flatMap_cons, List.length_append, ih, List.length_cons]
    simp only [byteBits, List.length_cons, List.length_nil]
    omega

/-- A symbol occurs at most IN_LEN times, so its count has CNT_W bits where IN_LEN is within IN_CAP (R8, R36). -/
theorem MachineInv.countBytes_lt (h : MachineInv s) (hn : s.inCount ≤ s.cfg.inCap) (sym : Byte) :
    (countBytes s.input)[sym.toNat]'sym.isLt < 2 ^ s.cfg.cntW := by
  have hcount : s.input.count sym ≤ s.inCount := s.input_length ▸ List.count_le_length
  have hpos : 0 < 2 ^ s.cfg.cntW := Nat.two_pow_pos _
  have hcap := h.ranges.1
  rw [countBytes_get]
  omega

/-- A code has fewer bits than there are symbols, and BC_CAP is at least their number (R8, R163). -/
theorem MachineInv.code_length_le (h : MachineInv s) (hv : s.tableValid = true) {sym : Byte} {code : Bits}
    (hc : s.code sym = some code) : code.length ≤ s.cfg.bcCap := by
  obtain ⟨htree, hcodes⟩ := h.table hv
  obtain ⟨-, hroot, f, -, hbuild⟩ := h.tree htree
  have hentry : (deriveCodes s.nodes (s.nodes.length - 1)).entry sym = some code := by
    rw [← hroot, ← hcodes]
    exact hc
  have hlen := deriveCodes_len hbuild hentry
  have hleaves := leavesOf_length_le f
  obtain ⟨-, -, hcap, -⟩ := h.ranges
  omega

theorem MachineInv.clearContainer (h : MachineInv s) (hok : s.err = .ok) {c : CIdx}
    (hc : containerExists s.cfg c = true) : MachineInv (clearContainer c s) :=
  (h.setContainer hc (Nat.zero_le _) le_rfl).complete hok

theorem MachineInv.pushBit (h : MachineInv s) (hok : s.err = .ok) {c : CIdx} (hc : containerExists s.cfg c = true)
    (bit : Bool) : MachineInv (pushBit c bit s) := by
  have hlen := h.bitLen c
  have hpos := h.bitPos c
  unfold Machine.pushBit
  split
  · exact h.raise 0 0
  · refine (h.setContainer hc ?_ ?_).complete hok <;> rw [List.length_append, List.length_singleton] <;> omega

theorem MachineInv.loadBits (h : MachineInv s) (hok : s.err = .ok) {c : CIdx} (hc : containerExists s.cfg c = true) :
    MachineInv (loadBits c s) := by
  unfold Machine.loadBits
  split
  · exact h.raise 0 0
  split
  · exact h.raise 0 0
  · refine (h.afterInput.setContainer hc ?_ (Nat.zero_le _)).complete hok
    rw [List.length_map, s.input_length]
    exact Nat.le_of_not_lt ‹_›

theorem MachineInv.loadBytes (h : MachineInv s) (hok : s.err = .ok) {c : CIdx}
    (hc : containerExists s.cfg c = true) : MachineInv (loadBytes c s) := by
  unfold Machine.loadBytes
  split
  · exact h.raise 0 0
  split
  · exact h.raise 0 0
  · refine (h.afterInput.setContainer hc ?_ (Nat.zero_le _)).complete hok
    rw [flatMap_byteBits_length, s.input_length]
    exact Nat.le_of_not_lt ‹_›

theorem MachineInv.appendContainer (h : MachineInv s) (hok : s.err = .ok) {c src : CIdx}
    (hc : containerExists s.cfg c = true) (hsrc : containerExists s.cfg src = true) :
    MachineInv (appendContainer c src s) := by
  have hpos := h.bitPos c
  unfold Machine.appendContainer
  split
  · exact h.raise 0 0
  · refine ((h.setContainer hc ?_ ?_).setContainer hsrc (Nat.zero_le _) le_rfl).complete hok <;>
      rw [List.length_append] <;> omega

theorem MachineInv.restartIterator (h : MachineInv s) (hok : s.err = .ok) {c : CIdx}
    (hc : containerExists s.cfg c = true) : MachineInv (restartIterator c s) :=
  (h.setContainer hc (h.bitLen c) (Nat.zero_le _)).complete hok

theorem MachineInv.yieldBit (h : MachineInv s) (hok : s.err = .ok) {c : CIdx}
    (hc : containerExists s.cfg c = true) : MachineInv (yieldBit c s) := by
  unfold Machine.yieldBit
  split
  · have hpos : s.pos c < (s.bits c).length := (List.getElem?_eq_some_iff.1 ‹_›).1
    exact ((h.setResult true _ nofun).setContainer hc (h.bitLen c) hpos).complete hok
  · exact (h.setResult false false fun _ => rfl).complete hok

/-- Padding stays within BC_CAP because BC_CAP is a multiple of 8 (R8, R117). -/
theorem MachineInv.alignContainer (h : MachineInv s) (hok : s.err = .ok) {c : CIdx}
    (hc : containerExists s.cfg c = true) : MachineInv (alignContainer c s) := by
  have hlen := h.bitLen c
  have hpos := h.bitPos c
  obtain ⟨-, hcap, -⟩ := h.ranges
  refine (h.setContainer hc ?_ ?_).complete hok <;> rw [List.length_append, padding_length] <;> omega

theorem MachineInv.commitBuild {s0 : State} (h0 : MachineInv s0) (h : MachineInv s) (hok : s.err = .ok) {f : Counts}
    (hf : ∀ sym : Byte, f[sym.toNat]'sym.isLt < 2 ^ s.cfg.cntW) : MachineInv (commitBuild f s0 s) := by
  unfold Machine.commitBuild
  split
  · exact h0.raise 0 0
  · exact (h.commitTree hf ‹_›).complete hok

theorem MachineInv.buildFromInput (h : MachineInv s) (hok : s.err = .ok) : MachineInv (buildFromInput s) := by
  unfold Machine.buildFromInput
  split
  · exact h.raise 0 0
  split
  · exact h.raise 0 0
  · have hf := h.countBytes_lt (Nat.le_of_not_lt ‹_›)
    exact h.afterInput.commitBuild (h.afterInput.withFreq hf) hok hf

theorem MachineInv.buildFromFreq (h : MachineInv s) (hok : s.err = .ok) : MachineInv (buildFromFreq s) :=
  h.commitBuild h hok h.freq

theorem MachineInv.deriveTable (h : MachineInv s) (hok : s.err = .ok) : MachineInv (deriveTable s) := by
  unfold Machine.deriveTable
  split
  · exact (h.withTable ‹_›).complete hok
  · exact h.raise 0 0

theorem MachineInv.lookupCode (h : MachineInv s) (hok : s.err = .ok) {c : CIdx}
    (hc : containerExists s.cfg c = true) (sym : Byte) : MachineInv (lookupCode c sym s) := by
  unfold Machine.lookupCode
  split
  · split
    · exact (h.setContainer hc (h.code_length_le ‹_› ‹_›) (Nat.zero_le _)).complete hok
    · exact h.raise 0 sym
  · exact h.raise 0 0

theorem MachineInv.encodeInput (h : MachineInv s) (hok : s.err = .ok) {c : CIdx}
    (hc : containerExists s.cfg c = true) : MachineInv (encodeInput c s) := by
  unfold Machine.encodeInput
  split
  · split
    · exact h.raise 0 0
    · rcases encodeFrom_cases s.codes s.cfg.bcCap 0 [] s.input (Nat.zero_le _) with
        ⟨hrun, -, hlen⟩ | ⟨_, _, _, -, -, -, ⟨-, hrun⟩ | ⟨-, -, hrun⟩⟩ <;> rw [hrun]
      · exact (h.afterInput.setContainer hc hlen (Nat.zero_le _)).complete hok
      · exact h.afterInput.raise _ _ nofun
      · exact h.afterInput.raise _ _ nofun
  · exact h.raise 0 0

/-- DECODE answers at most OUT_CAP bytes, or one of R181's two errors. -/
theorem decodeBits_cases (s : State) (b : Bits) :
    (∃ bytes, decodeBits s b = .ok bytes ∧ bytes.length ≤ s.cfg.outCap) ∨
    (∃ e, decodeBits s b = .error e ∧ (e.code = .invalidData ∨ e.code = .overflow)) := by
  unfold decodeBits
  split
  · unfold decodeSingle
    split
    · exact .inr ⟨_, rfl, .inl rfl⟩
    split
    · exact .inr ⟨_, rfl, .inr rfl⟩
    · refine .inl ⟨_, rfl, ?_⟩
      rw [List.length_replicate]
      exact Nat.le_of_not_lt ‹_›
  · rcases decodeFrom_cases s.nodes s.root s.cfg.outCap 0 s.root 0 b (Nat.zero_le _) with
      ⟨bytes, hrun, hlen⟩ | ⟨e, hrun, hcode, -⟩
    · exact .inl ⟨bytes, hrun, Nat.zero_add bytes.length ▸ hlen⟩
    · exact .inr ⟨e, hrun, hcode⟩

theorem MachineInv.decodeContainer (h : MachineInv s) (hok : s.err = .ok) (c : CIdx) :
    MachineInv (decodeContainer c s) := by
  unfold Machine.decodeContainer
  split
  · rcases decodeBits_cases s (s.bits c) with ⟨bytes, hrun, hlen⟩ | ⟨e, hrun, hcode⟩ <;> rw [hrun]
    · exact (h.emit hlen).complete hok
    · refine h.discardOutput.raise _ _ ?_
      rcases hcode with hcode | hcode <;> rw [hcode] <;> nofun
  · exact h.discardOutput.raise 0 0

end Effects

/-! ### Every turn -/

section Turns
variable {s t : State}

/-- Every command keeps the invariant where its operands are legal. -/
theorem MachineInv.effect (h : MachineInv s) (hok : s.err = .ok) {i : Instr} (hw : i.wellFormed s.cfg = true) :
    MachineInv (effect i s) := by
  cases i with
  | nop => exact h.complete hok
  | bcClear c => exact h.clearContainer hok hw
  | bcPush c bit => exact h.pushBit hok hw bit
  | bcFromBits c => exact h.loadBits hok hw
  | bcFromBytes c => exact h.loadBytes hok hw
  | bcAppend c src =>
    simp only [Instr.wellFormed, Bool.and_eq_true] at hw
    exact h.appendContainer hok hw.1.1 hw.1.2
  | bcIterReset c => exact h.restartIterator hok hw
  | bcIterNext c => exact h.yieldBit hok hw
  | bcAlign c => exact h.alignContainer hok hw
  | treeBuild => exact h.buildFromInput hok
  | treeBuildFreq => exact h.buildFromFreq hok
  | tableDerive => exact h.deriveTable hok
  | tableLookup c sym => exact h.lookupCode hok hw sym
  | encode c => exact h.encodeInput hok hw
  | decode c => exact h.decodeContainer hok c

theorem MachineInv.exec (h : MachineInv s) (hok : s.err = .ok) {i : Instr} (hx : exec i s = .next t) :
    MachineInv t := by
  rcases exec_cases hx with ⟨hw, rfl⟩ | ⟨-, rfl⟩
  · exact h.effect hok hw
  · exact h.raise 0 0

theorem MachineInv.runWord (h : MachineInv s) (hok : s.err = .ok) {w : Word} (hx : runWord w s = .next t) :
    MachineInv t := by
  rcases runWord_cases hx with ⟨i, -, hx⟩ | ⟨-, rfl⟩
  · exact h.exec hok hx
  · exact h.raise 0 0

theorem singleAt_ne_inByte (n i : Nat) : singleAt n ≠ .inByte i := by
  unfold singleAt
  split <;> nofun

/-- A row of IN that exists, or a row of another kind. -/
def Target.WithinIn (p : Params) (t : Target) : Prop := ∀ i, t = .inByte i → i < p.inCap

theorem locate_withinIn (p : Params) (a : Addr) : (locate p a).WithinIn p := by
  unfold locate
  dsimp only
  repeat' refine iteInduction (motive := Target.WithinIn p) (fun _ => ?_) fun _ => ?_
  all_goals
    intro i hi
    simp only [singleAt_ne_inByte, reduceCtorEq, Target.inByte.injEq] at hi
  omega

theorem MachineInv.busWrite (h : MachineInv s) (a : Addr) (d : Word) : MachineInv (s.busWrite a d) := by
  rcases busWrite_cases s a d with ⟨-, e⟩ | ⟨-, e⟩ | ⟨-, -, e⟩ | ⟨-, -, e⟩ | ⟨-, -, e⟩ | ⟨-, -, e⟩ |
    ⟨sym, -, -, e⟩ | ⟨i, hi, -, e⟩ | e <;> rw [e]
  · exact h.withControls
  · exact h.writeStatus d
  · exact h.withControls
  · exact h.accept d
  · exact h.withControls
  · exact h.withControls
  · exact h.setFreq sym d
  · exact h.writeIn (locate_withinIn s.cfg a i hi) _
  · exact h

/-- A read moves at most the draw counter. -/
theorem MachineInv.hostRead (h : MachineInv s) (a : Addr) : MachineInv (s.hostRead a) := by
  unfold State.hostRead
  rcases busRead_cases s a with e | e | e <;> rw [e] <;> exact h.withControls

theorem MachineInv.poll (h : MachineInv s) : MachineInv s.poll := by
  unfold State.poll
  split
  · exact (h.hostRead _).withControls
  · exact h.hostRead _

end Turns

/-- Settles O60: one lemma per turn. A pending command runs with ERR = OK, as its acceptance left it (R210), so its
completion finds an empty report. -/
theorem stepKeepsTheInvariant : Obligations.StepKeepsTheInvariant := by
  intro s t h hstep
  rcases step_cases hstep with ⟨s', hs', hrun⟩ | ⟨e, rest, -, hturn⟩
  · have h' : MachineInv s' := by
      rcases hs' with rfl | ⟨rest, -, rfl⟩
      · exact h
      · exact h.withControls
    rcases hrun with ⟨-, rfl⟩ | ⟨w, hw, hrun⟩
    · exact h'
    · obtain ⟨-, -, hok, -⟩ := h'.accepted w hw
      exact h'.runWord hok hrun
  · have h' : MachineInv { s with schedule := rest } := h.withControls
    rcases hturn with ⟨a, -, rfl⟩ | ⟨a, d, -, rfl⟩ | ⟨-, rfl⟩ | ⟨-, rfl⟩
    · exact h'.hostRead a
    · exact h'.busWrite a d
    · exact h'.poll
    · exact h'.resetEvent

end Sys2Proof.Machine
end

section
/-! PROOFS. Counts of the tree builder: the root holds the total of the counts, bounds over a greedy arena, and what a
successful build leaves. -/

namespace Sys2Proof.Machine

/-! ### Totals -/

section Totals
variable {f : Counts} {t : List Node}

/-- Dropping the symbols without a count loses nothing from the total. -/
theorem leavesFrom_sum_count (ns : List Nat) (sym : Nat) : ((leavesFrom sym ns).map Node.count).sum = ns.sum := by
  induction ns generalizing sym with
  | nil => rfl
  | cons n ns ih =>
    unfold leavesFrom
    split
    · rw [List.map_cons, List.sum_cons, List.sum_cons, ih]
      rfl
    · rw [ih, List.sum_cons]
      omega

theorem sum_nodeOf_count (t : List Node) {k : Nat} (hk : k ≤ t.length) :
    (∑ i ∈ Finset.range k, (nodeOf t i).count) = ((t.take k).map Node.count).sum := by
  induction k with
  | zero => rfl
  | succ k ih =>
    have hget : t[k]? = some t[k] := List.getElem?_eq_getElem (by omega)
    have hnode : nodeOf t k = t[k] := by rw [nodeOf, List.getD, hget, Option.getD_some]
    rw [Finset.sum_range_succ, ih (by omega), List.take_add_one, hget, hnode, List.map_append, List.sum_append]
    rfl

/-- The root of a built arena holds the total of the counts (R144). -/
theorem buildTree_root_count (h : buildTree f = some t) : (nodeOf t (t.length - 1)).count = f.toList.sum := by
  have hg := buildTree_greedy h
  obtain ⟨hpos, hlen⟩ := hg.size
  rcases buildTree_cases f with ⟨-, hnone⟩ | ⟨t', _, hsome, -, htake⟩
  · cases hnone.symm.trans h
  cases hsome.symm.trans h
  calc (nodeOf t (t.length - 1)).count
    _ = (nodeOf t (2 * (leavesOf f).length - 2)).count := by congr 2; omega
    _ = ((t.take (leavesOf f).length).map Node.count).sum := by rw [← hg.sum_count, sum_nodeOf_count t (by omega)]
    _ = f.toList.sum := by rw [htake]; exact leavesFrom_sum_count _ _

theorem symbolSum_get (f : Counts) : symbolSum (fun sym => f[sym.toNat]'sym.isLt) = f.toList.sum := by
  unfold symbolSum
  congr 1
  exact List.ext_getElem (by simp) fun i _ _ => by simp

/-- Every byte is counted under exactly one symbol. -/
theorem symbolSum_count (bytes : List Byte) : symbolSum bytes.count = bytes.length := by
  have hone : ∀ v : Byte, (∑ i : Fin 256, if v = BitVec.ofNat 8 i.val then 1 else 0) = 1 := by
    intro v
    rw [Finset.sum_eq_single (v.toFin : Fin 256)]
    · simp
    · rintro i - hi
      rw [if_neg]
      rintro rfl
      exact hi (Fin.ext (Nat.mod_eq_of_lt i.isLt).symm)
    · simp
  unfold symbolSum
  rw [← List.ofFn_eq_map, List.sum_ofFn]
  induction bytes with
  | nil => simp
  | cons v vs ih => simp only [List.count_cons, beq_iff_eq, Finset.sum_add_distrib, ih, hone, List.length_cons]

end Totals

/-! ### Bounds -/

section Bounds
variable {f : Counts} {t : List Node} {k : Nat}

theorem GreedyArena.count_le_root (h : GreedyArena f t k) (i : Nat) :
    (nodeOf t i).count ≤ (nodeOf t (2 * k - 2)).count := by
  obtain ⟨hpos, hlen⟩ := h.size
  rcases Nat.lt_trichotomy i (2 * k - 2) with hi | rfl | hi
  · have hkey := h.key_root hi
    rw [Cand.before_iff] at hkey
    simp only [keyOf] at hkey
    omega
  · exact le_rfl
  · rw [nodeOf_ge (by omega)]
    exact Nat.zero_le _

/-- At most 256 leaves of `w`-bit counts (R9, R144). -/
theorem GreedyArena.root_count_lt (h : GreedyArena f t k) (hk : k ≤ 256) {w : Nat}
    (hf : ∀ sym : Byte, f[sym.toNat]'sym.isLt < 2 ^ w) : (nodeOf t (2 * k - 2)).count < 2 ^ (w + 8) := by
  have hleaf : ∀ i ∈ Finset.range k, (nodeOf t i).count < 2 ^ w := by
    intro i hi
    obtain ⟨sym, hl, -⟩ := h.leaves i (Finset.mem_range.1 hi)
    rw [hl]
    exact hf sym
  calc (nodeOf t (2 * k - 2)).count
    _ = ∑ i ∈ Finset.range k, (nodeOf t i).count := h.sum_count.symm
    _ < ∑ _i ∈ Finset.range k, 2 ^ w :=
      Finset.sum_lt_sum_of_nonempty (Finset.nonempty_range_iff.2 (by have := h.size; omega)) hleaf
    _ = k * 2 ^ w := by rw [Finset.sum_const, Finset.card_range, smul_eq_mul]
    _ ≤ 256 * 2 ^ w := Nat.mul_le_mul_right _ hk
    _ = 2 ^ (w + 8) := by rw [pow_add, Nat.mul_comm, show 2 ^ 8 = 256 from rfl]

end Bounds

/-! ### NODE_A and NODE_B of a state -/

/-- The view cuts off nothing of an arena of at most 511 nodes (R31, R38). -/
theorem State.node_eq_nodeOf {s : State} (h : s.nodes.length ≤ 511) (i : Nat) : s.node i = nodeOf s.nodes i := by
  unfold State.node
  split
  · rfl
  · exact (nodeOf_ge (by omega)).symm

/-! ### What a successful build leaves -/

/-- All that BuildTree's commit can do. -/
theorem commitBuild_cases (f : Counts) (s0 s : State) :
    (buildTree f = none ∧ commitBuild f s0 s = s0.raise .emptyInput 0 0) ∨
    (∃ nodes, buildTree f = some nodes ∧ commitBuild f s0 s = (s.commitTree nodes).complete) := by
  unfold commitBuild
  split
  · exact .inl ⟨‹_›, rfl⟩
  · exact .inr ⟨_, ‹_›, rfl⟩

theorem commitBuild_ok {f : Counts} {s0 s : State} (hok : (commitBuild f s0 s).err = .ok) :
    ∃ nodes, buildTree f = some nodes ∧ commitBuild f s0 s = (s.commitTree nodes).complete := by
  rcases commitBuild_cases f s0 s with ⟨-, e⟩ | hbuilt
  · rw [e] at hok
    cases hok
  · exact hbuilt

theorem buildFromInput_ok {s : State} (hok : (buildFromInput s).err = .ok) :
    ∃ nodes, buildTree (countBytes s.input) = some nodes ∧
      buildFromInput s = (State.commitTree { s.afterInput with freq := countBytes s.input } nodes).complete := by
  unfold buildFromInput at hok ⊢
  split at hok
  · cases hok
  split at hok
  · cases hok
  · rename_i hcap hempty
    rw [if_neg hcap, if_neg hempty]
    exact commitBuild_ok hok

/-- A tree committed with the counts it was built from has their total at its root (R144). -/
theorem root_count_commitTree (s : State) {nodes : List Node} (h : buildTree s.freq = some nodes) :
    ((s.commitTree nodes).node (s.commitTree nodes).root).count = symbolSum s.freqAt := by
  rw [State.node_eq_nodeOf (buildTree_length_le h)]
  exact (buildTree_root_count h).trans (symbolSum_get s.freq).symm

/-- R144's bounds and sums, for the state's own tree. -/
theorem MachineInv.node_counts {s : State} (h : MachineInv s) (i : Nat) :
    (s.node i).count ≤ (s.node s.root).count ∧ (s.node i).count < 2 ^ (s.cfg.cntW + 8) ∧
    (∀ sym n, s.node i = .leaf sym n → 0 < n ∧ n < 2 ^ s.cfg.cntW) ∧
    (∀ n c0 c1, s.node i = .internal n c0 c1 → n = (s.node c0).count + (s.node c1).count) := by
  cases hv : s.treeValid with
  | false =>
    have hempty : ∀ j, s.node j = .empty := by
      intro j
      rw [State.node_eq_nodeOf] <;> rw [(h.noTree hv).1]
      · rfl
      · exact Nat.zero_le _
    rw [hempty i]
    exact ⟨Nat.zero_le _, Nat.two_pow_pos _, nofun, nofun⟩
  | true =>
    obtain ⟨-, hroot, f, hf, hbuild⟩ := h.tree hv
    have hg := buildTree_greedy hbuild
    have hsize := hg.size
    have hr : s.root = 2 * (leavesOf f).length - 2 := by omega
    have hle := hg.count_le_root i
    simp only [State.node_eq_nodeOf (buildTree_length_le hbuild), hr]
    refine ⟨hle, hle.trans_lt (hg.root_count_lt (leavesOf_length_le f) hf), fun sym n hl => ?_, fun n c0 c1 hi => ?_⟩
    · obtain ⟨rfl, hpos⟩ := hg.leaf_count hl
      exact ⟨hpos, hf sym⟩
    · exact (hg.children_ne hi).2.1

/-- Settles O41: the bounds from the greedy arena, the total from the sum over the candidates that every merge keeps. -/
theorem countsAreExactSums : Obligations.CountsAreExactSums := by
  refine ⟨fun s h i => h.node_counts i, fun s t hx hok => ?_, fun s t hx hok => ?_⟩
  · rw [exec_legal rfl] at hx
    obtain rfl : buildFromInput s = t := Host.Outcome.next.inj hx
    obtain ⟨nodes, hbuild, e⟩ := buildFromInput_ok hok
    have htotal : symbolSum (fun sym => (countBytes s.input)[sym.toNat]'sym.isLt) = s.inCount := by
      simp only [countBytes_get, symbolSum_count, State.input_length]
    have hroot := root_count_commitTree { s.afterInput with freq := countBytes s.input } hbuild
    rw [e]
    exact ⟨hroot, hroot.trans htotal⟩
  · rw [exec_legal rfl] at hx
    obtain rfl : buildFromFreq s = t := Host.Outcome.next.inj hx
    obtain ⟨nodes, hbuild, e⟩ := commitBuild_ok hok
    rw [show buildFromFreq s = _ from e]
    exact root_count_commitTree s hbuild

end Sys2Proof.Machine
end

section
/-! PROOFS. What a command writes: one rule per operation on the state, one lemma per command's effect; and what follows
for the validity flags and the parameters over every step. -/

namespace Sys2Proof.Machine

/-! ### The rules of the state's operations -/

/-- From `s` to `t` the command `i` has written nothing but the state that is its own to write. -/
structure WritesOnly (i : Instr) (s t : State) : Prop where
  /-- No command writes CTRL, OVERRUN, CMD, IN_LEN, DEC_COUNT or the parameters. -/
  control : SameControl s t
  /-- No command writes IN. -/
  input : SameIn s t
  /-- Only DECODE writes OUT and OUT_LEN. -/
  output : (∀ c, i ≠ .decode c) → SameOut s t
  /-- Only BC_ITER_NEXT writes RESULT. -/
  result : (∀ c, i ≠ .bcIterNext c) → SameResult s t
  /-- Only a build writes the arena. -/
  tree : i ≠ .treeBuild → i ≠ .treeBuildFreq → SameTree s t
  /-- Only TREE_BUILD writes FREQ. -/
  freq : i ≠ .treeBuild → SameFreq s t
  /-- Only a build or TABLE_DERIVE writes the table. -/
  table : i ≠ .treeBuild → i ≠ .treeBuildFreq → i ≠ .tableDerive → SameTable s t
  /-- Only the containers the command names as its own to write change. -/
  containers : SameContainersBut (writtenContainers i) s t

namespace WritesOnly
variable {i : Instr} {s t : State}

theorem refl (i : Instr) (s : State) : WritesOnly i s s where
  control := ⟨rfl, rfl, rfl, rfl, rfl, rfl, rfl, rfl⟩
  input := fun _ => rfl
  output := fun _ => ⟨rfl, fun _ => rfl⟩
  result := fun _ => rfl
  tree := fun _ _ => ⟨rfl, rfl, rfl, rfl⟩
  freq := fun _ _ => rfl
  table := fun _ _ _ => ⟨fun _ => rfl, rfl⟩
  containers := fun _ _ => ⟨rfl, rfl⟩

theorem complete (h : WritesOnly i s t) : WritesOnly i s t.complete := { h with }

theorem raise (h : WritesOnly i s t) (e : ErrCode) (index : Nat) (symbol : Byte) :
    WritesOnly i s (t.raise e index symbol) :=
  { h with }

theorem afterInput (h : WritesOnly i s t) : WritesOnly i s t.afterInput := { h with }

theorem setContainer (h : WritesOnly i s t) {c : CIdx} (hc : c ∈ writtenContainers i) (k : Container) :
    WritesOnly i s (t.setContainer c k) :=
  { h with
    containers := fun d hd => by
      rw [State.bits, State.pos, State.container_setContainer_other]
      · exact h.containers d hd
      · rintro rfl
        exact hd hc }

theorem setResult {c : CIdx} (h : WritesOnly (.bcIterNext c) s t) (r : IterResult) :
    WritesOnly (.bcIterNext c) s { t with result := r } :=
  { h with result := fun hi => absurd rfl (hi c) }

theorem withFreq (h : WritesOnly .treeBuild s t) (f : Counts) : WritesOnly .treeBuild s { t with freq := f } :=
  { h with freq := fun hi => absurd rfl hi }

theorem commitTree (h : WritesOnly i s t) (hi : i = .treeBuild ∨ i = .treeBuildFreq) (nodes : List Node) :
    WritesOnly i s (t.commitTree nodes) :=
  { h with
    tree := fun h1 h2 => absurd hi (not_or.2 ⟨h1, h2⟩)
    table := fun h1 h2 _ => absurd hi (not_or.2 ⟨h1, h2⟩) }

theorem withTable (h : WritesOnly .tableDerive s t) (codes : CodeTable) :
    WritesOnly .tableDerive s { t with codes := codes, tableValid := true } :=
  { h with table := fun _ _ hi => absurd rfl hi }

theorem emit {c : CIdx} (h : WritesOnly (.decode c) s t) (bytes : List Byte) :
    WritesOnly (.decode c) s (t.emit bytes) :=
  { h with output := fun hi => absurd rfl (hi c) }

theorem discardOutput {c : CIdx} (h : WritesOnly (.decode c) s t) : WritesOnly (.decode c) s t.discardOutput :=
  { h with output := fun hi => absurd rfl (hi c) }

end WritesOnly

/-! ### One lemma per effect with branches -/

section Effects
variable (s : State) (c : CIdx)

theorem pushBit_writesOnly (bit : Bool) : WritesOnly (.bcPush c bit) s (pushBit c bit s) := by
  unfold pushBit
  split
  · exact (WritesOnly.refl _ s).raise _ _ _
  · exact ((WritesOnly.refl _ s).setContainer (List.mem_singleton_self c) _).complete

theorem loadBits_writesOnly : WritesOnly (.bcFromBits c) s (loadBits c s) := by
  unfold loadBits
  split
  · exact (WritesOnly.refl _ s).raise _ _ _
  split
  · exact (WritesOnly.refl _ s).raise _ _ _
  · exact ((WritesOnly.refl _ s).afterInput.setContainer (List.mem_singleton_self c) _).complete

theorem loadBytes_writesOnly : WritesOnly (.bcFromBytes c) s (loadBytes c s) := by
  unfold loadBytes
  split
  · exact (WritesOnly.refl _ s).raise _ _ _
  split
  · exact (WritesOnly.refl _ s).raise _ _ _
  · exact ((WritesOnly.refl _ s).afterInput.setContainer (List.mem_singleton_self c) _).complete

theorem appendContainer_writesOnly (src : CIdx) : WritesOnly (.bcAppend c src) s (appendContainer c src s) := by
  unfold appendContainer
  split
  · exact (WritesOnly.refl _ s).raise _ _ _
  · exact (((WritesOnly.refl _ s).setContainer (by simp [writtenContainers]) _).setContainer
      (by simp [writtenContainers]) _).complete

theorem yieldBit_writesOnly : WritesOnly (.bcIterNext c) s (yieldBit c s) := by
  unfold yieldBit
  split
  · exact (((WritesOnly.refl _ s).setResult _).setContainer (List.mem_singleton_self c) _).complete
  · exact ((WritesOnly.refl _ s).setResult _).complete

theorem commitBuild_writesOnly {i : Instr} (hi : i = .treeBuild ∨ i = .treeBuildFreq) {s s0 s1 : State}
    (h0 : WritesOnly i s s0) (h1 : WritesOnly i s s1) (f : Counts) : WritesOnly i s (commitBuild f s0 s1) := by
  rcases commitBuild_cases f s0 s1 with ⟨-, e⟩ | ⟨nodes, -, e⟩ <;> rw [e]
  · exact h0.raise _ _ _
  · exact (h1.commitTree hi nodes).complete

theorem buildFromInput_writesOnly : WritesOnly .treeBuild s (buildFromInput s) := by
  unfold buildFromInput
  split
  · exact (WritesOnly.refl _ s).raise _ _ _
  split
  · exact (WritesOnly.refl _ s).raise _ _ _
  · have hread := (WritesOnly.refl .treeBuild s).afterInput
    exact commitBuild_writesOnly (.inl rfl) hread (hread.withFreq _) _

theorem deriveTable_writesOnly : WritesOnly .tableDerive s (deriveTable s) := by
  unfold deriveTable
  split
  · exact ((WritesOnly.refl _ s).withTable _).complete
  · exact (WritesOnly.refl _ s).raise _ _ _

theorem lookupCode_writesOnly (sym : Byte) : WritesOnly (.tableLookup c sym) s (lookupCode c sym s) := by
  unfold lookupCode
  split
  · split
    · exact ((WritesOnly.refl _ s).setContainer (List.mem_singleton_self c) _).complete
    · exact (WritesOnly.refl _ s).raise _ _ _
  · exact (WritesOnly.refl _ s).raise _ _ _

theorem encodeInput_writesOnly : WritesOnly (.encode c) s (encodeInput c s) := by
  unfold encodeInput
  split
  · split
    · exact (WritesOnly.refl _ s).raise _ _ _
    split
    · exact ((WritesOnly.refl _ s).afterInput.setContainer (List.mem_singleton_self c) _).complete
    · exact (WritesOnly.refl _ s).afterInput.raise _ _ _
  · exact (WritesOnly.refl _ s).raise _ _ _

theorem decodeContainer_writesOnly : WritesOnly (.decode c) s (decodeContainer c s) := by
  unfold decodeContainer
  split
  · split
    · exact ((WritesOnly.refl _ s).emit _).complete
    · exact (WritesOnly.refl _ s).discardOutput.raise _ _ _
  · exact (WritesOnly.refl _ s).discardOutput.raise _ _ _

end Effects

/-! ### Every command -/

theorem effect_writesOnly (i : Instr) (s : State) : WritesOnly i s (effect i s) := by
  have h := WritesOnly.refl i s
  cases i with
  | nop => exact h.complete
  | bcClear c => exact (h.setContainer (List.mem_singleton_self c) _).complete
  | bcPush c bit => exact pushBit_writesOnly s c bit
  | bcFromBits c => exact loadBits_writesOnly s c
  | bcFromBytes c => exact loadBytes_writesOnly s c
  | bcAppend c src => exact appendContainer_writesOnly s c src
  | bcIterReset c => exact (h.setContainer (List.mem_singleton_self c) _).complete
  | bcIterNext c => exact yieldBit_writesOnly s c
  | bcAlign c => exact (h.setContainer (List.mem_singleton_self c) _).complete
  | treeBuild => exact buildFromInput_writesOnly s
  | treeBuildFreq => exact commitBuild_writesOnly (.inr rfl) h h _
  | tableDerive => exact deriveTable_writesOnly s
  | tableLookup c sym => exact lookupCode_writesOnly s c sym
  | encode c => exact encodeInput_writesOnly s c
  | decode c => exact decodeContainer_writesOnly s c

theorem exec_writesOnly {i : Instr} {s t : State} (h : exec i s = .next t) : WritesOnly i s t := by
  rcases exec_cases h with ⟨-, rfl⟩ | ⟨-, rfl⟩
  · exact effect_writesOnly i s
  · exact (WritesOnly.refl i s).raise _ _ _

/-- Settles O56: every operation a command is made of writes only what is the command's own to write. -/
theorem eachCommandWritesOnlyItsOwnState : Obligations.EachCommandWritesOnlyItsOwnState := by
  intro i s t h
  obtain ⟨hcontrol, hin, hout, hresult, htree, hfreq, htable, hbcs⟩ := exec_writesOnly h
  exact ⟨hcontrol, hin, hout, hresult, htree, hfreq, htable, hbcs⟩

/-! ### The validity flags (R43) -/

section Flags
variable {s t : State}

/-- A commit sets TREE_VALID and clears TABLE_VALID; a failure keeps the flags of the state it keeps. -/
theorem commitBuild_flags (f : Counts) (s0 s1 : State) : let t := commitBuild f s0 s1
    (t.err = .ok ∧ t.treeValid = true ∧ t.tableValid = false) ∨
    (t.err ≠ .ok ∧ t.treeValid = s0.treeValid ∧ t.tableValid = s0.tableValid) := by
  rcases commitBuild_cases f s0 s1 with ⟨-, e⟩ | ⟨nodes, -, e⟩ <;> rw [e]
  · exact .inr ⟨nofun, rfl, rfl⟩
  · exact .inl ⟨rfl, rfl, rfl⟩

/-- All that a build does to the validity flags. -/
theorem build_flags {i : Instr} (hi : i = .treeBuild ∨ i = .treeBuildFreq) (h : exec i s = .next t) :
    (t.err = .ok ∧ t.treeValid = true ∧ t.tableValid = false) ∨
    (t.err ≠ .ok ∧ t.treeValid = s.treeValid ∧ t.tableValid = s.tableValid) := by
  rcases hi with rfl | rfl <;> rw [exec_legal rfl] at h <;> obtain rfl := Host.Outcome.next.inj h
  · simp only [effect, buildFromInput]
    split
    · exact .inr ⟨nofun, rfl, rfl⟩
    split
    · exact .inr ⟨nofun, rfl, rfl⟩
    · exact commitBuild_flags (countBytes s.input) s.afterInput _
  · exact commitBuild_flags s.freq s s

/-- All that TABLE_DERIVE does to the validity flags. -/
theorem derive_flags (h : exec .tableDerive s = .next t) :
    (t.err = .ok ∧ t.treeValid = s.treeValid ∧ t.tableValid = true) ∨
    (t.err ≠ .ok ∧ t.treeValid = s.treeValid ∧ t.tableValid = s.tableValid) := by
  rw [exec_legal rfl] at h
  obtain rfl := Host.Outcome.next.inj h
  simp only [effect, deriveTable]
  split
  · exact .inl ⟨rfl, rfl, rfl⟩
  · exact .inr ⟨nofun, rfl, rfl⟩

/-- A command other than a build or TABLE_DERIVE leaves both flags. -/
theorem other_flags {i : Instr} (h : exec i s = .next t) (hbuild : ¬ (i = .treeBuild ∨ i = .treeBuildFreq))
    (hderive : i ≠ .tableDerive) : t.treeValid = s.treeValid ∧ t.tableValid = s.tableValid := by
  obtain ⟨hb, hbf⟩ := not_or.1 hbuild
  obtain ⟨-, -, -, htree⟩ := (exec_writesOnly h).tree hb hbf
  obtain ⟨-, htable⟩ := (exec_writesOnly h).table hb hbf hderive
  exact ⟨htree, htable⟩

theorem exec_keeps_treeValid {i : Instr} (h : exec i s = .next t) (hv : s.treeValid = true) : t.treeValid = true := by
  by_cases hbuild : i = .treeBuild ∨ i = .treeBuildFreq
  · rcases build_flags hbuild h with ⟨-, htree, -⟩ | ⟨-, htree, -⟩
    · exact htree
    · exact htree.trans hv
  · obtain ⟨-, -, -, htree⟩ := (exec_writesOnly h).tree (not_or.1 hbuild).1 (not_or.1 hbuild).2
    exact htree.trans hv

/-- No bus write changes the parameters or the validity flags (R32, R43). -/
theorem busWrite_keeps (s : State) (a : Addr) (d : Word) :
    (s.busWrite a d).cfg = s.cfg ∧ (s.busWrite a d).treeValid = s.treeValid ∧
    (s.busWrite a d).tableValid = s.tableValid := by
  rcases busWrite_cases s a d with ⟨-, e⟩ | ⟨-, e⟩ | ⟨-, -, e⟩ | ⟨-, -, e⟩ | ⟨-, -, e⟩ | ⟨-, -, e⟩ |
    ⟨_, -, -, e⟩ | ⟨_, -, -, e⟩ | e <;> rw [e] <;> exact ⟨rfl, rfl, rfl⟩

end Flags

/-! ### Every step -/

section Steps
variable {s t : State}

/-- A read moves at most the draw counter and the word the host holds (R65). -/
theorem hostRead_eq (s : State) (a : Addr) :
    ∃ draws readData, s.hostRead a = { s with draws := draws, readData := readData } := by
  unfold State.hostRead
  rcases busRead_cases s a with e | e | e <;> rw [e] <;> exact ⟨_, _, rfl⟩

theorem poll_eq (s : State) :
    ∃ draws readData schedule,
      s.poll = { s with draws := draws, readData := readData, schedule := schedule } := by
  obtain ⟨draws, readData, e⟩ := hostRead_eq s 0x000001
  unfold State.poll
  split <;> rw [e] <;> exact ⟨_, _, _, rfl⟩

/-- All that a step can do to the block, told from the state with the turn taken off the schedule: nothing but a draw
and what is the host's own, one command, an ILLEGAL_COMMAND report, one bus write, or reset. -/
theorem step_effect (h : step s = .next t) : ∃ rest, let s' := { s with schedule := rest }
    (∃ draws readData schedule, t = { s' with draws := draws, readData := readData, schedule := schedule }) ∨
    (∃ i, exec i s' = .next t) ∨ t = s'.raise .illegalCommand 0 0 ∨ (∃ a d, t = s'.busWrite a d) ∨
    (s.schedule = .reset :: rest ∧ t = s'.resetEvent) := by
  rcases step_cases h with ⟨s', hs', hrun⟩ | ⟨e, rest, hsched, hturn⟩
  · obtain ⟨rest, rfl⟩ : ∃ rest, s' = { s with schedule := rest } := by
      rcases hs' with rfl | ⟨rest, -, rfl⟩
      · exact ⟨_, rfl⟩
      · exact ⟨rest, rfl⟩
    refine ⟨rest, ?_⟩
    rcases hrun with ⟨-, rfl⟩ | ⟨w, -, hrun⟩
    · exact .inl ⟨_, _, _, rfl⟩
    rcases runWord_cases hrun with ⟨i, -, hexec⟩ | ⟨-, rfl⟩
    · exact .inr (.inl ⟨i, hexec⟩)
    · exact .inr (.inr (.inl rfl))
  · refine ⟨rest, ?_⟩
    rcases hturn with ⟨a, -, rfl⟩ | ⟨a, d, -, rfl⟩ | ⟨-, rfl⟩ | ⟨rfl, rfl⟩
    · obtain ⟨draws, readData, e⟩ := hostRead_eq { s with schedule := rest } a
      exact .inl ⟨draws, readData, rest, e⟩
    · exact .inr (.inr (.inr (.inl ⟨a, d, rfl⟩)))
    · exact .inl (poll_eq _)
    · exact .inr (.inr (.inr (.inr ⟨hsched, rfl⟩)))

theorem step_keeps_treeValid (h : step s = .next t) (hv : s.treeValid = true) :
    t.treeValid = true ∨ ∃ rest, s.schedule = .reset :: rest := by
  obtain ⟨rest, ⟨_, _, _, rfl⟩ | ⟨i, hexec⟩ | rfl | ⟨a, d, rfl⟩ | ⟨hreset, -⟩⟩ := step_effect h
  · exact .inl hv
  · exact .inl (exec_keeps_treeValid hexec hv)
  · exact .inl hv
  · obtain ⟨-, htree, -⟩ := busWrite_keeps { s with schedule := rest } a d
    exact .inl (htree.trans hv)
  · exact .inr ⟨rest, hreset⟩

/-- No step changes the parameters, reset included (R32). -/
theorem step_cfg (h : step s = .next t) : t.cfg = s.cfg := by
  obtain ⟨rest, ⟨_, _, _, rfl⟩ | ⟨i, hexec⟩ | rfl | ⟨a, d, rfl⟩ | ⟨-, rfl⟩⟩ := step_effect h
  · rfl
  · obtain ⟨hcfg, -⟩ := (exec_writesOnly hexec).control
    exact hcfg
  · rfl
  · exact (busWrite_keeps _ a d).1
  · rfl

end Steps

/-- Settles O57: the flags command by command, then over the bus, over every step, at reset, and under the invariant. -/
theorem validityFlagsFollowBuildsAndDerives : Obligations.ValidityFlagsFollowBuildsAndDerives := by
  refine ⟨fun i s t h => ?_, fun s a d => ?_, fun s t h => step_keeps_treeValid h, fun s => ⟨rfl, rfl⟩,
    fun s h hv => (h.table hv).2⟩
  · by_cases hbuild : i = .treeBuild ∨ i = .treeBuildFreq
    · have hderive : i ≠ .tableDerive := by rcases hbuild with rfl | rfl <;> nofun
      rcases build_flags hbuild h with ⟨hok, hset⟩ | ⟨herr, hkept⟩
      · exact ⟨fun _ => hset, fun hi => absurd hi hderive, fun hnot => absurd ⟨hbuild, hok⟩ hnot⟩
      · exact ⟨fun hbuilt => absurd hbuilt.2 herr, fun hi => absurd hi hderive, fun _ _ => hkept⟩
    refine ⟨fun hbuilt => absurd hbuilt.1 hbuild, ?_⟩
    by_cases hderive : i = .tableDerive
    · subst hderive
      rcases derive_flags h with ⟨hok, hset⟩ | ⟨herr, hkept⟩
      · exact ⟨fun _ _ => hset, fun _ hnot => absurd ⟨rfl, hok⟩ hnot⟩
      · exact ⟨fun _ hok => absurd hok herr, fun _ _ => hkept⟩
    · exact ⟨fun hi => absurd hi hderive, fun _ _ => other_flags h hbuild hderive⟩
  · obtain ⟨-, htree, htable⟩ := busWrite_keeps s a d
    refine ⟨htree, htable, ?_⟩
    rcases busRead_cases s a with e | e | e <;> rw [e] <;> exact ⟨rfl, rfl⟩

end Sys2Proof.Machine
end

section
/-! PROOFS. The arena of a state (R39), the input a command reads, the words the host reads field by field, and what a
read gives at each row's address. -/

namespace Sys2Proof.Machine

/-! ### The arena (R38, R39) -/

/-- A finished BuildTree of `w`-bit counts is a tree of R39. -/
theorem buildTree_treeShape {f : Counts} {t : List Node} {w : Nat} (h : buildTree f = some t)
    (hf : ∀ sym : Byte, f[sym.toNat]'sym.isLt < 2 ^ w) :
    TreeShape w t t.length (t.length - 1) (leavesOf f).length := by
  have hg := buildTree_greedy h
  obtain ⟨hpos, hlen⟩ := hg.size
  exact {
    size := ⟨hpos, leavesOf_length_le f, hlen, rfl, rfl⟩
    leaves := fun i hi => by
      obtain ⟨sym, hl, hcount⟩ := hg.leaves i hi
      exact ⟨sym, _, hl, hcount, hf sym⟩
    ascending := fun i j si ni sj nj hij hj hi hj' => hg.ascending i j si sj hij hj ⟨ni, hi⟩ ⟨nj, hj'⟩
    internals := fun i hk hi => by
      obtain ⟨a, b, hn, ⟨ha, -⟩, ⟨hb, -⟩, -⟩ := hg.merges i hk (hlen ▸ hi)
      exact ⟨_, a, b, hn, ha, hb, rfl⟩
    oneParent := fun i hi => by
      obtain ⟨j, hj⟩ := hg.has_parent (i := i) (by omega)
      exact ⟨j, hj, fun j' hj' => hg.parent_unique hj' hj⟩ }

section Arena
variable {s : State}

/-- With a tree or without, NODE_COUNT is the number of nodes, within the arena's 511, and ROOT is the last (R31). -/
theorem MachineInv.arena_size (h : MachineInv s) :
    s.nodes.length = s.nodeCount ∧ s.nodeCount ≤ 511 ∧ s.root = s.nodeCount - 1 := by
  cases hv : s.treeValid with
  | false =>
    obtain ⟨hnodes, hcount, hroot⟩ := h.noTree hv
    rw [hnodes, hcount, hroot]
    decide
  | true =>
    obtain ⟨hcount, hroot, f, -, hbuild⟩ := h.tree hv
    rw [hroot, hcount]
    exact ⟨rfl, buildTree_length_le hbuild, rfl⟩

theorem MachineInv.node_eq (h : MachineInv s) (i : Nat) : s.node i = nodeOf s.nodes i := by
  obtain ⟨hlen, hle, -⟩ := h.arena_size
  exact State.node_eq_nodeOf (hlen ▸ hle) i

theorem MachineInv.node_beyond (h : MachineInv s) {i : Nat} (hi : s.nodeCount ≤ i) : s.node i = .empty := by
  rw [h.node_eq, nodeOf_ge (h.arena_size.1 ▸ hi)]

/-- A child's index is below its parent's, so it has the 9 bits of its NODE_A field (R38, R39). -/
theorem MachineInv.children_lt (h : MachineInv s) {i n c0 c1 : Nat} (hn : s.node i = .internal n c0 c1) :
    c0 < 512 ∧ c1 < 512 := by
  obtain ⟨hlen, hle, -⟩ := h.arena_size
  rw [h.node_eq] at hn
  have h0 : IsChild s.nodes i c0 := ⟨n, c0, c1, hn, .inl rfl⟩
  have h1 : IsChild s.nodes i c1 := ⟨n, c0, c1, hn, .inr rfl⟩
  have hi := h0.lt
  cases hv : s.treeValid with
  | false =>
    rw [(h.noTree hv).1] at hi
    cases hi
  | true =>
    obtain ⟨-, -, f, -, hbuild⟩ := h.tree hv
    have hg := buildTree_greedy hbuild
    have hlt0 := (hg.child_lt h0).2
    have hlt1 := (hg.child_lt h1).2
    omega

/-- A code has fewer bits than there are symbols, and only a state with a table has codes (R37, R163). -/
theorem MachineInv.code_length_lt (h : MachineInv s) {sym : Byte} {code : Bits} (hc : s.code sym = some code) :
    code.length < 256 := by
  cases hv : s.tableValid with
  | false => cases (h.noTable hv sym).symm.trans hc
  | true =>
    obtain ⟨htree, hcodes⟩ := h.table hv
    obtain ⟨-, hroot, f, -, hbuild⟩ := h.tree htree
    rw [State.code, hcodes, hroot] at hc
    exact (deriveCodes_len hbuild hc).trans (leavesOf_length_le f)

end Arena

/-- Settles O43: the arena is a finished BuildTree, and its greedy arena is a tree of R39. -/
theorem arenaIsATreeWhileValid : Obligations.ArenaIsATreeWhileValid := by
  refine fun s h => ⟨fun hv => ?_, fun hv => ?_⟩
  · obtain ⟨hcount, hroot, f, hf, hbuild⟩ := h.tree hv
    rw [hroot, hcount]
    exact ⟨_, buildTree_treeShape hbuild hf⟩
  · obtain ⟨-, hcount, -⟩ := h.noTree hv
    exact ⟨hcount, fun i => h.node_beyond (hcount ▸ Nat.zero_le i)⟩

/-! ### The input bytes -/

/-- Settles O25: `inputBytes_spec` from index 0 and the state's own draw counter. -/
theorem inputBytesAreWrittenOrFresh : Obligations.InputBytesAreWrittenOrFresh := by
  intro s
  obtain ⟨hget, hdraws⟩ := inputBytes_spec s.inMem s.draws 0 s.inCount
  simp only [Nat.zero_add] at hget hdraws
  refine ⟨s.input_length, fun i hi => ⟨fun v hv => ?_, fun hnone => ?_⟩, hdraws⟩
  · rw [State.input, hget i hi, hv, Option.getD_some]
  · rw [State.input, hget i hi, hnone, Option.getD_none]

/-! ### The words, bit by bit and as numbers -/

/-- The ranges of R8 that keep the parameters and what they bound within a bus word. -/
theorem legal_le {p : Params} (h : p.legal = true) :
    p.inCap ≤ 65536 ∧ p.outCap ≤ 65536 ∧ p.bcCap ≤ 524288 ∧ p.nbc ≤ 16 ∧ p.cntW ≤ 24 := by
  simp only [Params.legal, decide_eq_true_eq] at h
  omega

theorem flag_getLsbD_zero (b : Bool) : (flag b).getLsbD 0 = b := by
  simp [flag]

theorem append_toNat {m n : Nat} (x : BitVec m) (y : BitVec n) : (x ++ y).toNat = 2 ^ n * x.toNat + y.toNat := by
  rw [BitVec.toNat_append, ← Nat.shiftLeft_add_eq_or_of_lt y.isLt, Nat.shiftLeft_eq, Nat.mul_comm]

theorem word_toNat {n : Nat} (h : n < 2 ^ 32) : (BitVec.ofNat 32 n).toNat = n := by
  rw [BitVec.toNat_ofNat, Nat.mod_eq_of_lt h]

/-- CTRL (R21). -/
theorem State.ctrlWord_fields (s : State) :
    s.ctrlWord.getLsbD 0 = s.irqEn ∧ ∀ i, 1 ≤ i → s.ctrlWord.getLsbD i = false := by
  refine ⟨?_, fun i hi => ?_⟩ <;>
    simp (disch := omega) only [State.ctrlWord, BitVec.getLsbD_append, if_pos, if_neg, flag_getLsbD_zero,
      BitVec.getLsbD_zero]

/-- STATUS.ERR (R22). -/
theorem State.statusWord_err (s : State) : s.statusWord.extractLsb' 4 4 = s.err.code := by
  simp only [State.statusWord, BitVec.extractLsb'_append_eq_of_le, BitVec.extractLsb'_append_eq_right,
    Nat.reduceLeDiff, Nat.reduceSub]

/-- The bits of STATUS but for ERR (R22). -/
theorem State.statusWord_bits (s : State) :
    s.statusWord.getLsbD 0 = s.busy ∧ s.statusWord.getLsbD 1 = s.done ∧ s.statusWord.getLsbD 2 = s.overrun ∧
    s.statusWord.getLsbD 3 = false ∧ s.statusWord.getLsbD 8 = s.treeValid ∧ s.statusWord.getLsbD 9 = s.tableValid ∧
    ∀ i, 10 ≤ i → s.statusWord.getLsbD i = false := by
  refine ⟨?_, ?_, ?_, ?_, ?_, ?_, fun i hi => ?_⟩ <;>
    simp (disch := omega) only [State.statusWord, BitVec.getLsbD_append, if_pos, if_neg, flag_getLsbD_zero,
      BitVec.getLsbD_zero, Nat.reduceSub]

/-- RESULT (R28). -/
theorem State.resultWord_fields (s : State) :
    s.resultWord.getLsbD 0 = s.result.bit ∧ s.resultWord.getLsbD 1 = s.result.valid ∧
    ∀ i, 2 ≤ i → s.resultWord.getLsbD i = false := by
  refine ⟨?_, ?_, fun i hi => ?_⟩ <;>
    simp (disch := omega) only [State.resultWord, BitVec.getLsbD_append, if_pos, if_neg, flag_getLsbD_zero,
      BitVec.getLsbD_zero, Nat.reduceSub]

/-- Codes 8 to 15 are never produced (R214). -/
theorem ErrCode.code_le (e : ErrCode) : e.code.toNat ≤ 7 := by
  cases e <;> decide

/-- CAP_MISC (R32): the ranges of R8 fit its two fields. -/
theorem capMiscWord_toNat {p : Params} (h : p.legal = true) : (capMiscWord p).toNat = p.nbc + 2 ^ 8 * p.cntW := by
  obtain ⟨-, -, -, hnbc, hcnt⟩ := legal_le h
  simp only [capMiscWord, append_toNat, BitVec.toNat_ofNat]
  omega

/-- BCDATA (R35): the bit of weight 7 - k is the container's bit 8j + k. -/
theorem packedByte_getLsbD (b : Bits) (j : Nat) {k : Nat} (hk : k < 8) :
    (packedByte b j).getLsbD (7 - k) = b.getD (8 * j + k) false := by
  interval_cases k <;>
    simp (disch := omega) only [packedByte, BitVec.getLsbD_append, if_pos, if_neg, flag_getLsbD_zero, Nat.reduceSub,
      Nat.add_zero]

/-- CT_INFO of an invalid entry (R37). -/
theorem State.ctInfoWord_invalid {s : State} {sym : Byte} (h : s.code sym = none) : s.ctInfoWord sym = 0 := by
  simp only [State.ctInfoWord, State.ctValid, State.ctLen, State.ctCode, h]
  rfl

/-- CT_INFO of a valid entry (R37). -/
theorem State.ctInfoWord_valid {s : State} {sym : Byte} {code : Bits} (h : s.code sym = some code)
    (hlen : code.length < 256) : (s.ctInfoWord sym).toNat = 2 ^ 31 + code.length := by
  simp only [State.ctInfoWord, State.ctValid, State.ctLen, State.ctCode, h, append_toNat, Option.isSome_some,
    Option.getD_some, flag, BitVec.toNat_ofBool, BitVec.toNat_ofNat, Bool.toNat_true]
  omega

/-- NODE_A of an internal node (R38). -/
theorem Node.wordA_internal (n : Nat) {c0 c1 : Nat} (h0 : c0 < 512) (h1 : c1 < 512) :
    (Node.internal n c0 c1).wordA.toNat = 2 ^ 31 + 2 ^ 16 * c1 + c0 := by
  simp only [Node.wordA, append_toNat, BitVec.toNat_ofNat]
  omega

/-- NODE_A of a leaf (R38). -/
theorem Node.wordA_leaf (sym : Byte) (n : Nat) : (Node.leaf sym n).wordA.toNat = sym.toNat := by
  simp only [Node.wordA, append_toNat, BitVec.toNat_ofNat]
  omega

/-- NODE_B holds the whole count, which has at most CNT_W + 8 bits (R38, R144). -/
theorem MachineInv.wordB_toNat {s : State} (h : MachineInv s) (i : Nat) :
    (s.node i).wordB.toNat = (s.node i).count := by
  obtain ⟨-, hcount, -⟩ := h.node_counts i
  obtain ⟨-, -, -, -, hcnt⟩ := legal_le h.legal
  exact word_toNat (hcount.trans_le (Nat.pow_le_pow_right (by decide) (by omega)))

/-! ### Reads at the rows' addresses (R62, R65) -/

section Reads
variable {s : State} {t : Target} {a : Nat}

/-- An idle read of a row whose value takes no draw. -/
theorem reads_idle {v : Word} (hb : s.busy = false) (ha : locate s.cfg (BitVec.ofNat 21 a) = t)
    (hv : s.readTarget t = (v, s)) : Reads s a v.toNat := by
  rw [Reads, busRead_idle hb, ha, hv]
  exact ⟨rfl, rfl⟩

/-- A read, busy or idle, of a row that R68 defines. -/
theorem reads_defined {v : Word} (hd : t.definedWhileBusy = true) (ha : locate s.cfg (BitVec.ofNat 21 a) = t)
    (hv : s.readTarget t = (v, s)) : Reads s a v.toNat := by
  rw [Reads, busRead_defined s (ha ▸ hd), ha, hv]
  exact ⟨rfl, rfl⟩

/-- An idle read of a row that holds a number. -/
theorem reads_idle_nat {n : Nat} (hn : n < 2 ^ 32) (hb : s.busy = false)
    (ha : locate s.cfg (BitVec.ofNat 21 a) = t) (hv : s.readTarget t = (BitVec.ofNat 32 n, s)) : Reads s a n :=
  word_toNat hn ▸ reads_idle hb ha hv

/-- A read, busy or idle, of a CAP_* row that holds a number. -/
theorem reads_defined_nat {n : Nat} (hn : n < 2 ^ 32) (hd : t.definedWhileBusy = true)
    (ha : locate s.cfg (BitVec.ofNat 21 a) = t) (hv : s.readTarget t = (BitVec.ofNat 32 n, s)) : Reads s a n :=
  word_toNat hn ▸ reads_defined hd ha hv

/-- The container rows and the counters hold numbers within a bus word. -/
theorem MachineInv.word_ranges (h : MachineInv s) :
    (∀ c, (s.bits c).length < 2 ^ 32 ∧ s.pos c < 2 ^ 32) ∧ ∀ sym, s.freqAt sym < 2 ^ 32 := by
  obtain ⟨-, -, hbc, -, hcnt⟩ := legal_le h.legal
  refine ⟨fun c => ?_, fun sym => ?_⟩
  · have hlen := h.bitLen c
    have hpos := h.bitPos c
    omega
  · exact (h.freq sym).trans_le (Nat.pow_le_pow_right (by decide) (by omega))

end Reads

/-- Settles O19: the words field by field, then each register at its address. -/
theorem registerWordsHaveTheirFields : Obligations.RegisterWordsHaveTheirFields := by
  intro s
  obtain ⟨hbusy, hdone, hoverrun, hreserved, htree, htable, hhigh⟩ := s.statusWord_bits
  refine ⟨s.ctrlWord_fields,
    ⟨hbusy, hdone, hoverrun, hreserved, s.statusWord_err, s.err.code_le, htree, htable, hhigh⟩, s.resultWord_fields,
    ⟨reads_defined rfl (locate_ctrl _) rfl, reads_defined rfl (locate_status _) rfl,
      reads_defined rfl (locate_cmd _) rfl⟩, fun hb => ?_, fun h hb => ?_⟩
  · have herrSymbol : Reads s 0x000008 (s.errSymbol.setWidth 32).toNat := reads_idle hb (locate_errSymbol _) rfl
    rw [byteWord_toNat] at herrSymbol
    exact ⟨reads_idle hb (locate_inLen _) rfl, reads_idle hb (locate_decCount _) rfl,
      reads_idle hb (locate_outLen _) rfl, reads_idle hb (locate_result _) rfl, reads_idle hb (locate_errIndex _) rfl,
      herrSymbol⟩
  · obtain ⟨-, hcount, hroot⟩ := h.arena_size
    obtain ⟨hbcs, hfreq⟩ := h.word_ranges
    exact ⟨reads_idle_nat (by omega) hb (locate_nodeCount _) rfl, hcount,
      reads_idle_nat (by omega) hb (locate_root _) rfl, hroot,
      fun c hc => ⟨reads_idle_nat (hbcs c).1 hb (locate_bcLen hc) rfl,
        reads_idle_nat (hbcs c).2 hb (locate_bcPos hc) rfl⟩,
      fun sym => reads_idle_nat (hfreq sym) hb (locate_freq _ sym) rfl⟩

/-- Settles O20: the packed byte's bits, and the zeros that fill the bus word. -/
theorem packedViewIsMostSignificantFirst : Obligations.PackedViewIsMostSignificantFirst := by
  refine fun s c j k hk => ⟨rfl, ?_, fun i hi => ?_, fun hp hb hc hj => ?_⟩
  · rw [State.readTarget, BitVec.getLsbD_setWidth, packedByte_getLsbD _ _ hk, decide_eq_true (by omega), Bool.true_and]
  · rw [State.readTarget, BitVec.getLsbD_setWidth, BitVec.getLsbD_of_ge _ _ hi, Bool.and_false]
  · rw [busRead_idle hb, locate_bcData hp hc hj]

/-- Settles O21: the fields from the ranges the invariant gives codes, children and counts. -/
theorem tableAndNodeViewsHaveTheirFields : Obligations.TableAndNodeViewsHaveTheirFields := by
  refine fun s h => ⟨fun sym => ⟨State.ctInfoWord_invalid, fun code hc => ?_⟩,
    fun i => ⟨fun hi => ?_, fun sym n hn => ?_, fun n c0 c1 hn => ?_⟩,
    fun hb => ⟨fun sym => reads_idle hb (locate_ctInfo _ sym) rfl,
      fun i hi => ⟨reads_idle hb (locate_nodeA _ hi) rfl, reads_idle hb (locate_nodeB _ hi) rfl⟩⟩⟩
  · have hlen := h.code_length_lt hc
    exact ⟨Nat.le_of_lt_succ hlen, State.ctInfoWord_valid hc hlen⟩
  · rw [h.node_beyond hi]
    exact ⟨rfl, rfl, rfl⟩
  · rw [h.wordB_toNat, hn]
    exact ⟨Node.wordA_leaf sym n, rfl⟩
  · obtain ⟨h0, h1⟩ := h.children_lt hn
    rw [h.wordB_toNat, hn]
    exact ⟨Node.wordA_internal n h0 h1, rfl⟩

/-- Settles O22: `step_cfg`, and the four CAP_* rows at their addresses. -/
theorem parametersNeverChange : Obligations.ParametersNeverChange := by
  refine ⟨fun s t => step_cfg, fun s hp => ?_⟩
  obtain ⟨hin, hout, hbc, -, -⟩ := legal_le hp
  have hmisc : Reads s 0x00000E (capMiscWord s.cfg).toNat := reads_defined rfl (locate_capMisc _) rfl
  exact ⟨(reads_defined_nat (by omega) rfl (locate_capIn _) rfl).1,
    (reads_defined_nat (by omega) rfl (locate_capOut _) rfl).1,
    (reads_defined_nat (by omega) rfl (locate_capBc _) rfl).1, hmisc.1.trans (capMiscWord_toNat hp)⟩

/-! ### Idle writes read back (R66) -/

section ReadBack
variable {s : State} {a : Addr} (d : Word)

theorem busWrite_inLen (hb : s.busy = false) (ha : locate s.cfg a = .inLen) :
    s.busWrite a d = { s with inLen := d } := by
  simp only [State.busWrite, ha, hb, Bool.false_eq_true, if_false]

theorem busWrite_decCount (hb : s.busy = false) (ha : locate s.cfg a = .decCount) :
    s.busWrite a d = { s with decCount := d } := by
  simp only [State.busWrite, ha, hb, Bool.false_eq_true, if_false]

theorem busWrite_freq {sym : Byte} (hb : s.busy = false) (ha : locate s.cfg a = .freq sym) :
    s.busWrite a d = s.setFreq sym d := by
  simp only [State.busWrite, ha, hb, Bool.false_eq_true, if_false]

theorem busWrite_inByte {i : Nat} (hb : s.busy = false) (ha : locate s.cfg a = .inByte i) :
    s.busWrite a d = { s with inMem := s.inMem.write i (d.setWidth 8) } := by
  simp only [State.busWrite, ha, hb, Bool.false_eq_true, if_false]

/-- Only an acceptance starts a command. -/
theorem busWrite_busy (ha : locate s.cfg a ≠ .cmd) : (s.busWrite a d).busy = s.busy := by
  rcases busWrite_cases s a d with ⟨-, e⟩ | ⟨-, e⟩ | ⟨hcmd, -⟩ | ⟨hcmd, -⟩ | ⟨-, -, e⟩ | ⟨-, -, e⟩ |
    ⟨_, -, -, e⟩ | ⟨_, -, -, e⟩ | e
  case inr.inr.inl | inr.inr.inr.inl => exact absurd hcmd ha
  all_goals simp [e]

/-- The read that follows an idle write finds the block idle and the address map as it was. -/
theorem busRead_after_busWrite {t : Target} (hb : s.busy = false) (ha : locate s.cfg a = t) (ht : t ≠ .cmd) :
    (s.busWrite a d).busRead a = (s.busWrite a d).readTarget t := by
  obtain ⟨hcfg, -⟩ := busWrite_keeps s a d
  rw [busRead_idle ((busWrite_busy d (ha ▸ ht)).trans hb), hcfg, ha]

end ReadBack

/-- Settles O23: the write's effect, then the same row's read from the state it leaves. -/
theorem idleWriteThenReadBack : Obligations.IdleWriteThenReadBack := by
  refine fun s a d hb _ => ⟨?_, fun sym ha => ?_, fun i ha => ?_⟩
  · rintro (ha | ha)
    · rw [busRead_after_busWrite d hb ha nofun, busWrite_inLen d hb ha]
      rfl
    · rw [busRead_after_busWrite d hb ha nofun, busWrite_decCount d hb ha]
      rfl
  · have hcut : d.toNat % 2 ^ s.cfg.cntW < 2 ^ 32 := (Nat.mod_le _ _).trans_lt d.isLt
    rw [busRead_after_busWrite d hb ha nofun, busWrite_freq d hb ha, State.readTarget, State.freqAt_setFreq,
      if_pos rfl, word_toNat hcut]
  · rw [busRead_after_busWrite d hb ha nofun, busWrite_inByte d hb ha, State.readTarget,
      readIn_written (Memory.read_write_same _ _ _), byteWord_toNat, BitVec.toNat_setWidth]

end Sys2Proof.Machine
end

section
/-! PROOFS. The host bus: the address map, what one read and one write do while idle and while busy, the turns of the
schedule, and that a pending command's outcome does not depend on what the host writes. -/

namespace Sys2Proof.Machine

/-! ### The address map (R62, R63) -/

section AddressMap
variable {p : Params}

/-- R62's addresses fit the 21 bits of the bus. -/
theorem Target.address_lt (hp : p.legal = true) {t : Target} (ht : t.mapped p = true) : t.address < 2 ^ 21 := by
  obtain ⟨hin, hout, hbc, -, -⟩ := legal_le hp
  cases t with
  | bcLen c | bcPos c =>
    simp only [Target.address]
    omega
  | freq sym | ctInfo sym =>
    simp only [Target.address]
    omega
  | nodeA i | nodeB i | inByte i | outByte i =>
    simp only [Target.mapped, decide_eq_true_eq] at ht
    simp only [Target.address]
    omega
  | bcData c j =>
    simp only [Target.mapped, Bool.and_eq_true, decide_eq_true_eq] at ht
    simp only [Target.address]
    omega
  | unmapped => cases ht
  | _ => simp only [Target.address, Nat.reducePow, Nat.reduceLT]

/-- Every row that exists is found at its address. -/
theorem locate_address (hp : p.legal = true) {t : Target} (ht : t.mapped p = true) :
    locate p (BitVec.ofNat 21 t.address) = t := by
  cases t with
  | bcLen c => exact locate_bcLen ht
  | bcPos c => exact locate_bcPos ht
  | freq sym => exact locate_freq p sym
  | ctInfo sym => exact locate_ctInfo p sym
  | nodeA i => exact locate_nodeA p (of_decide_eq_true ht)
  | nodeB i => exact locate_nodeB p (of_decide_eq_true ht)
  | inByte i => exact locate_inByte hp (of_decide_eq_true ht)
  | outByte i => exact locate_outByte hp (of_decide_eq_true ht)
  | bcData c j =>
    obtain ⟨hc, hj⟩ := Bool.and_eq_true_iff.1 ht
    exact locate_bcData hp hc (of_decide_eq_true hj)
  | unmapped => cases ht
  | _ => rfl

/-- Where `t` is a row at all, it exists and its address is `n`. -/
def Target.OwnsAddress (p : Params) (n : Nat) (t : Target) : Prop :=
  t ≠ .unmapped → t.mapped p = true ∧ t.address = n

theorem Target.ownsAddress_unmapped (p : Params) (n : Nat) : Target.unmapped.OwnsAddress p n :=
  fun h => absurd rfl h

theorem Target.ownsAddress_ite {P : Prop} [Decidable P] {n : Nat} {t u : Target} (ht : P → t.OwnsAddress p n)
    (hu : ¬ P → u.OwnsAddress p n) : (if P then t else u).OwnsAddress p n :=
  iteInduction (motive := Target.OwnsAddress p n) ht hu

theorem singleAt_ownsAddress (p : Params) (n : Nat) : (singleAt n).OwnsAddress p n := by
  unfold singleAt
  split
  case h_16 => exact Target.ownsAddress_unmapped p _
  all_goals exact fun _ => ⟨rfl, rfl⟩

theorem cidxOf_val {n : Nat} (h : n < 16) : (cidxOf n).val = n := Nat.mod_eq_of_lt h

/-- An offset below NBC names a container that exists. -/
theorem containerExists_cidxOf {n : Nat} (h : n < 16) (hn : n < p.nbc) : containerExists p (cidxOf n) = true := by
  rw [containerExists_iff, cidxOf_val h]
  exact hn

/-- Every address that is not unmapped is the address of its row: the ranges of `locate` in their order, each leaf a row
whose index is the offset into its range. -/
theorem locate_ownsAddress (p : Params) (a : Addr) : (locate p a).OwnsAddress p a.toNat := by
  have ha := a.isLt
  have hnone := Target.ownsAddress_unmapped p a.toNat
  unfold locate
  dsimp only
  refine Target.ownsAddress_ite (fun _ => singleAt_ownsAddress p _) fun _ => ?_
  refine Target.ownsAddress_ite (fun _ => Target.ownsAddress_ite (fun hc => ?_) fun _ => hnone) fun _ => ?_
  · refine fun _ => ⟨containerExists_cidxOf (by omega) hc, ?_⟩
    rw [Target.address, cidxOf_val (by omega)]
    omega
  refine Target.ownsAddress_ite (fun _ => Target.ownsAddress_ite (fun hc => ?_) fun _ => hnone) fun _ => ?_
  · refine fun _ => ⟨containerExists_cidxOf (by omega) hc, ?_⟩
    rw [Target.address, cidxOf_val (by omega)]
    omega
  refine Target.ownsAddress_ite (fun _ => hnone) fun _ => ?_
  refine Target.ownsAddress_ite (fun _ _ => ⟨rfl, ?_⟩) fun _ => ?_
  · rw [Target.address, BitVec.toNat_ofNat]
    omega
  refine Target.ownsAddress_ite (fun _ _ => ⟨rfl, ?_⟩) fun _ => ?_
  · rw [Target.address, BitVec.toNat_ofNat]
    omega
  refine Target.ownsAddress_ite (fun _ => hnone) fun _ => ?_
  refine Target.ownsAddress_ite (fun _ _ => ?_) fun _ => ?_
  · rw [Target.mapped, Target.address, decide_eq_true_eq]
    omega
  refine Target.ownsAddress_ite (fun _ _ => ?_) fun _ => ?_
  · rw [Target.mapped, Target.address, decide_eq_true_eq]
    omega
  refine Target.ownsAddress_ite (fun _ => hnone) fun _ => ?_
  refine Target.ownsAddress_ite (fun _ => Target.ownsAddress_ite (fun _ _ => ?_) fun _ => hnone) fun _ => ?_
  · rw [Target.mapped, Target.address, decide_eq_true_eq]
    omega
  refine Target.ownsAddress_ite (fun _ => Target.ownsAddress_ite (fun _ _ => ?_) fun _ => hnone) fun _ => ?_
  · rw [Target.mapped, Target.address, decide_eq_true_eq]
    omega
  refine Target.ownsAddress_ite (fun _ => hnone) fun _ => ?_
  refine Target.ownsAddress_ite (fun hcj _ => ?_) fun _ => hnone
  obtain ⟨hc, hj⟩ := hcj
  refine ⟨Bool.and_eq_true_iff.2 ⟨containerExists_cidxOf (by omega) hc, decide_eq_true hj⟩, ?_⟩
  rw [Target.address, cidxOf_val (by omega)]
  omega

end AddressMap

/-- Settles O16: each row is found at its address, and each address that is not unmapped is its row's. -/
theorem addressMapHasNoOverlap : Obligations.AddressMapHasNoOverlap :=
  fun p hp => ⟨fun _ ht => ⟨Target.address_lt hp ht, locate_address hp ht⟩, locate_ownsAddress p⟩

/-! ### Reads (R65, R68) -/

section Reads
variable {s : State} {a : Addr}

/-- A busy read of any row that R68 does not define is a fresh word. -/
theorem busRead_free (hb : s.busy = true) (ha : (locate s.cfg a).definedWhileBusy = false) :
    s.busRead a = (Config.freeWord s.draws, { s with draws := s.draws + 1 }) := by
  simp only [State.busRead, hb, ha, Bool.not_false, Bool.and_self, if_true, State.drawWord]

/-- The rows of R68. -/
theorem Target.definedWhileBusy_iff (t : Target) :
    t.definedWhileBusy = true ↔ t ∈ [Target.ctrl, .status, .cmd, .capIn, .capOut, .capBc, .capMisc] := by
  cases t <;> simp [Target.definedWhileBusy]

/-- A read moves the draw counter by at most one, and one that takes no draw leaves the state as it was (R65). -/
theorem busRead_effect (s : State) (a : Addr) :
    (s.busRead a).2 = s ∨ (s.busRead a).2 = { s with draws := s.draws + 1 } := by
  rcases busRead_cases s a with e | e | e <;> rw [e]
  · exact .inl rfl
  · exact .inr rfl
  · exact .inr rfl

/-- An idle read of a byte of IN that the host has written (R41). -/
theorem reads_inByte (hp : s.cfg.legal = true) (hb : s.busy = false) {i : Nat} (hi : i < s.cfg.inCap) {v : Byte}
    (hv : s.inMem.read i = some v) : Reads s (0x010000 + i) v.toNat := by
  rw [← byteWord_toNat v]
  exact reads_idle hb (locate_inByte hp hi) (readIn_written hv)

/-- An idle read of a byte of IN that the host has not written (R41, U1). -/
theorem readsFreshByte_inByte (hp : s.cfg.legal = true) (hb : s.busy = false) {i : Nat} (hi : i < s.cfg.inCap)
    (hnone : s.inMem.read i = none) : ReadsFreshByte s (0x010000 + i) := by
  rw [ReadsFreshByte, busRead_idle hb, locate_inByte hp hi]
  exact readIn_unwritten hnone

/-- An idle read of a byte of OUT below OUT_LEN (R42). -/
theorem reads_outByte (hp : s.cfg.legal = true) (hb : s.busy = false) {i : Nat} (hi : i < s.cfg.outCap)
    (hlen : i < s.outLen.toNat) {v : Byte} (hv : s.outMem.read i = some v) : Reads s (0x020000 + i) v.toNat := by
  rw [← byteWord_toNat v]
  exact reads_idle hb (locate_outByte hp hi) (readOut_below hlen hv)

/-- An idle read of a byte of OUT at OUT_LEN or beyond (R42, U2). -/
theorem readsFreshByte_outByte (hp : s.cfg.legal = true) (hb : s.busy = false) {i : Nat} (hi : i < s.cfg.outCap)
    (hlen : s.outLen.toNat ≤ i) : ReadsFreshByte s (0x020000 + i) := by
  rw [ReadsFreshByte, busRead_idle hb, locate_outByte hp hi]
  exact readOut_beyond hlen

end Reads

/-- Settles O15: the two branches of a busy read, and the rows of R68 by name. -/
theorem busyReadsAreDefinedOrFree : Obligations.BusyReadsAreDefinedOrFree :=
  fun s _ hb => ⟨busRead_defined s, busRead_free hb, Target.definedWhileBusy_iff _⟩

/-- Settles O18: the effect of a read, then IN and OUT byte by byte; the invariant gives OUT its bytes below OUT_LEN. -/
theorem readsHaveNoSideEffect : Obligations.ReadsHaveNoSideEffect := by
  refine ⟨fun s a => ?_, fun s h hb => ⟨fun i hi => ?_, fun i hi => ?_⟩⟩
  · rcases busRead_effect s a with e | e <;> rw [e]
    · exact ⟨rfl, .inl rfl, fun _ => rfl⟩
    · exact ⟨rfl, .inr rfl, fun hdraws => absurd hdraws (Nat.succ_ne_self _)⟩
  · exact ⟨fun v => reads_inByte h.legal hb hi, readsFreshByte_inByte h.legal hb hi⟩
  · refine ⟨fun hlen => ?_, readsFreshByte_outByte h.legal hb hi⟩
    obtain ⟨-, hlisted⟩ := h.outForm
    obtain ⟨v, hv⟩ := Option.isSome_iff_exists.1 ((hlisted i).2 hlen)
    exact ⟨v, hv, reads_outByte h.legal hb hi hlen hv⟩

/-! ### Writes (R66, R67) -/

section Writes
variable {s : State} {a : Addr} (d : Word)

theorem busWrite_ctrl (ha : locate s.cfg a = .ctrl) : s.busWrite a d = { s with irqEn := d.getLsbD 0 } := by
  simp only [State.busWrite, ha]

/-- STATUS is cleared where the written bit is 1 (R22). -/
theorem busWrite_status (ha : locate s.cfg a = .status) : s.busWrite a d =
    { s with
      done := if d.getLsbD 1 then false else s.done
      overrun := if d.getLsbD 2 then false else s.overrun } := by
  simp only [State.busWrite, ha, State.writeStatus]
  cases d.getLsbD 1 <;> cases d.getLsbD 2 <;> simp

theorem busWrite_cmd_idle (hb : s.busy = false) (ha : locate s.cfg a = .cmd) : s.busWrite a d = s.accept d := by
  simp only [State.busWrite, ha, State.writeCmd, hb, Bool.false_eq_true, if_false]

theorem busWrite_cmd_busy (hb : s.busy = true) (ha : locate s.cfg a = .cmd) :
    s.busWrite a d = { s with overrun := true } := by
  simp only [State.busWrite, ha, State.writeCmd, hb, if_true]

/-- A write to a read-only row or an unmapped address is ignored at any time (R63, R66). -/
theorem busWrite_readOnly (ha : locate s.cfg a ∉ [Target.ctrl, .status, .cmd, .inLen, .decCount])
    (hfreq : ∀ sym, locate s.cfg a ≠ .freq sym) (hin : ∀ i, locate s.cfg a ≠ .inByte i) : s.busWrite a d = s := by
  rcases busWrite_cases s a d with ⟨hl, -⟩ | ⟨hl, -⟩ | ⟨hl, -⟩ | ⟨hl, -⟩ | ⟨hl, -⟩ | ⟨hl, -⟩ | ⟨sym, hl, -⟩ |
    ⟨i, hl, -⟩ | e
  case inr.inr.inr.inr.inr.inr.inl => exact absurd hl (hfreq sym)
  case inr.inr.inr.inr.inr.inr.inr.inl => exact absurd hl (hin i)
  case inr.inr.inr.inr.inr.inr.inr.inr => exact e
  all_goals simp [hl] at ha

/-- While a command is pending every other write than those to CTRL, STATUS and CMD is ignored (R67). -/
theorem busWrite_busy_ignored (hb : s.busy = true) (ha : locate s.cfg a ∉ [Target.ctrl, .status, .cmd]) :
    s.busWrite a d = s := by
  rcases busWrite_cases s a d with ⟨hl, -⟩ | ⟨hl, -⟩ | ⟨hl, -⟩ | ⟨hl, -⟩ | ⟨-, hidle, -⟩ | ⟨-, hidle, -⟩ |
    ⟨_, -, hidle, -⟩ | ⟨_, -, hidle, -⟩ | e
  case inr.inr.inr.inr.inr.inr.inr.inr => exact e
  case inl | inr.inl | inr.inr.inl | inr.inr.inr.inl => simp [hl] at ha
  all_goals cases hb.symm.trans hidle

end Writes

/-- Settles O12: one equation per target; FREQ and IN by the value read at each index. -/
theorem idleWriteEffects : Obligations.IdleWriteEffects := by
  refine fun s a d hb => ⟨busWrite_ctrl d, busWrite_status d, busWrite_cmd_idle d hb, busWrite_inLen d hb,
    busWrite_decCount d hb, fun sym ha => ?_, fun i ha => ?_, ?_⟩
  · rw [busWrite_freq d hb ha]
    exact ⟨by rw [State.freqAt_setFreq, if_pos rfl], fun sym' hne => by rw [State.freqAt_setFreq, if_neg hne], rfl⟩
  · rw [busWrite_inByte d hb ha]
    exact ⟨Memory.read_write_same _ _ _, fun j hne => Memory.read_write_other _ _ hne, rfl⟩
  · rintro _ rfl
    exact busWrite_readOnly d

/-- Settles O13: CTRL and STATUS as while idle, then CMD, then the ignored targets. -/
theorem busyWriteEffects : Obligations.BusyWriteEffects :=
  fun _ _ d hb => ⟨busWrite_ctrl d, busWrite_status d, busWrite_cmd_busy d hb, busWrite_busy_ignored d hb⟩

/-- Settles O17: the row's idle read, and the write that no target takes. -/
theorem unmappedReadsZeroAndIgnoresWrites : Obligations.UnmappedReadsZeroAndIgnoresWrites := by
  refine fun s a ha => ⟨fun hb => ?_, fun d => busWrite_readOnly d ?_ ?_ ?_⟩
  · rw [busRead_idle hb, ha]
    rfl
  all_goals simp [ha]

/-! ### The turns of the schedule (R61, R97, R240) -/

section Turns
variable {s : State}

theorem step_scheduled {e : Event} {rest : List Event} (h : s.schedule = e :: rest) :
    step s = turn e { s with schedule := rest } := by
  simp only [step, nextTurn, h]

theorem step_wait_idle {rest : List Event} (h : s.schedule = .wait :: rest) (hb : s.busy = false) :
    step s = .next (State.hostRead { s with schedule := rest } 0x000001) := by
  simp only [step_scheduled h, turn, State.poll, hb, Bool.false_eq_true, if_false]

theorem step_wait_busy {rest : List Event} (h : s.schedule = .wait :: rest) (hb : s.busy = true) :
    step s = .next { State.hostRead { s with schedule := rest } 0x000001 with
      schedule := .engine :: .wait :: rest } := by
  simp only [step_scheduled h, turn, State.poll, hb, if_true]

end Turns

/-- Settles O8: each clause is the turn the schedule names, with the two outcomes of a poll. -/
theorem hostTurnsComeInOrder : Obligations.HostTurnsComeInOrder :=
  fun _ _ => ⟨fun _ => step_scheduled, fun _ _ => step_scheduled, step_scheduled, step_wait_idle, step_wait_busy⟩

/-! ### A pending command and the host's writes (R67, R77) -/

/-- `s` with the given values of the flags that the host can write while a command is pending: CTRL.IRQ_EN, STATUS.DONE
and STATUS.OVERRUN. -/
def State.withFlags (s : State) (irqEn done overrun : Bool) : State :=
  { s with irqEn := irqEn, done := done, overrun := overrun }

section HostWrites
variable {s : State}

/-- A write while a command is pending reaches nothing but the three flags. -/
theorem busWrite_eq_withFlags (hb : s.busy = true) (a : Addr) (d : Word) :
    ∃ irqEn done overrun, s.busWrite a d = s.withFlags irqEn done overrun := by
  by_cases hctrl : locate s.cfg a = .ctrl
  · exact ⟨_, _, _, busWrite_ctrl d hctrl⟩
  by_cases hstatus : locate s.cfg a = .status
  · exact ⟨_, _, _, busWrite_status d hstatus⟩
  by_cases hcmd : locate s.cfg a = .cmd
  · exact ⟨_, _, _, busWrite_cmd_busy d hb hcmd⟩
  · exact ⟨_, _, _, busWrite_busy_ignored d hb (by simp [hctrl, hstatus, hcmd])⟩

theorem writeAll_eq_withFlags (ws : List (Addr × Word)) (hb : s.busy = true) :
    ∃ irqEn done overrun, writeAll ws s = s.withFlags irqEn done overrun := by
  induction ws generalizing s with
  | nil => exact ⟨_, _, _, rfl⟩
  | cons aw ws ih =>
    obtain ⟨a, d⟩ := aw
    obtain ⟨_, _, _, hfirst⟩ := busWrite_eq_withFlags hb a d
    obtain ⟨irqEn, done, overrun, hrest⟩ := ih (s := s.busWrite a d) (by rw [hfirst]; exact hb)
    refine ⟨irqEn, done, overrun, ?_⟩
    rw [writeAll, hrest, hfirst]
    rfl

end HostWrites

/-! A command's outcome from a state with other flags: IRQ_EN and OVERRUN are no command's to read or write, and every
completion sets DONE (R213), so an earlier DONE has no part in it. -/

section Outcomes
variable (s : State) (c : CIdx) (irqEn done overrun : Bool)

theorem State.ite_withFlags {P : Prop} [Decidable P] (s t : State) :
    (if P then s else t).withFlags irqEn done overrun =
    if P then s.withFlags irqEn done overrun else t.withFlags irqEn done overrun :=
  apply_ite (State.withFlags · irqEn done overrun) P s t

/-! What the commands with a case distinction read of the state. -/

@[simp] theorem State.withFlags_cfg : (s.withFlags irqEn done overrun).cfg = s.cfg := rfl
@[simp] theorem State.withFlags_codes : (s.withFlags irqEn done overrun).codes = s.codes := rfl
@[simp] theorem State.withFlags_bits : (s.withFlags irqEn done overrun).bits c = s.bits c := rfl
@[simp] theorem State.withFlags_pos : (s.withFlags irqEn done overrun).pos c = s.pos c := rfl
@[simp] theorem State.withFlags_code (sym : Byte) : (s.withFlags irqEn done overrun).code sym = s.code sym := rfl
@[simp] theorem State.withFlags_input : (s.withFlags irqEn done overrun).input = s.input := rfl
@[simp] theorem decodeBits_withFlags (b : Bits) :
    decodeBits (s.withFlags irqEn done overrun) b = decodeBits s b := rfl

/-! The commands with branches. -/

theorem pushBit_withFlags (bit : Bool) : pushBit c bit (s.withFlags irqEn done overrun) =
    (pushBit c bit s).withFlags irqEn true overrun := by
  simp only [pushBit, State.ite_withFlags]
  rfl

theorem loadBits_withFlags : loadBits c (s.withFlags irqEn done overrun) =
    (loadBits c s).withFlags irqEn true overrun := by
  simp only [loadBits, State.ite_withFlags]
  rfl

theorem loadBytes_withFlags : loadBytes c (s.withFlags irqEn done overrun) =
    (loadBytes c s).withFlags irqEn true overrun := by
  simp only [loadBytes, State.ite_withFlags]
  rfl

theorem appendContainer_withFlags (src : CIdx) : appendContainer c src (s.withFlags irqEn done overrun) =
    (appendContainer c src s).withFlags irqEn true overrun := by
  simp only [appendContainer, State.ite_withFlags]
  rfl

theorem yieldBit_withFlags : yieldBit c (s.withFlags irqEn done overrun) =
    (yieldBit c s).withFlags irqEn true overrun := by
  simp only [yieldBit, State.withFlags_bits, State.withFlags_pos]
  cases (s.bits c)[s.pos c]? <;> rfl

theorem commitBuild_withFlags (f : Counts) (s0 s1 : State) :
    commitBuild f (s0.withFlags irqEn done overrun) (s1.withFlags irqEn done overrun) =
    (commitBuild f s0 s1).withFlags irqEn true overrun := by
  unfold commitBuild
  cases buildTree f <;> rfl

theorem buildFromInput_withFlags : buildFromInput (s.withFlags irqEn done overrun) =
    (buildFromInput s).withFlags irqEn true overrun := by
  simp only [buildFromInput, State.ite_withFlags, ← commitBuild_withFlags irqEn done overrun]
  rfl

theorem deriveTable_withFlags : deriveTable (s.withFlags irqEn done overrun) =
    (deriveTable s).withFlags irqEn true overrun := by
  simp only [deriveTable, State.ite_withFlags]
  rfl

theorem lookupCode_withFlags (sym : Byte) : lookupCode c sym (s.withFlags irqEn done overrun) =
    (lookupCode c sym s).withFlags irqEn true overrun := by
  simp only [lookupCode, State.ite_withFlags, State.withFlags_code]
  cases s.code sym <;> rfl

theorem encodeInput_withFlags : encodeInput c (s.withFlags irqEn done overrun) =
    (encodeInput c s).withFlags irqEn true overrun := by
  simp only [encodeInput, State.ite_withFlags, State.withFlags_cfg, State.withFlags_codes, State.withFlags_input]
  cases encodeFrom s.codes s.cfg.bcCap 0 [] s.input <;> rfl

theorem decodeContainer_withFlags : decodeContainer c (s.withFlags irqEn done overrun) =
    (decodeContainer c s).withFlags irqEn true overrun := by
  simp only [decodeContainer, State.ite_withFlags, State.withFlags_bits, decodeBits_withFlags]
  cases decodeBits s (s.bits c) <;> rfl

theorem effect_withFlags (i : Instr) : effect i (s.withFlags irqEn done overrun) =
    (effect i s).withFlags irqEn true overrun := by
  cases i with
  | nop | bcClear _ | bcIterReset _ | bcAlign _ => rfl
  | bcPush c bit => exact pushBit_withFlags s c irqEn done overrun bit
  | bcFromBits c => exact loadBits_withFlags s c irqEn done overrun
  | bcFromBytes c => exact loadBytes_withFlags s c irqEn done overrun
  | bcAppend c src => exact appendContainer_withFlags s c irqEn done overrun src
  | bcIterNext c => exact yieldBit_withFlags s c irqEn done overrun
  | treeBuild => exact buildFromInput_withFlags s irqEn done overrun
  | treeBuildFreq => exact commitBuild_withFlags irqEn done overrun s.freq s s
  | tableDerive => exact deriveTable_withFlags s irqEn done overrun
  | tableLookup c sym => exact lookupCode_withFlags s c irqEn done overrun sym
  | encode c => exact encodeInput_withFlags s c irqEn done overrun
  | decode c => exact decodeContainer_withFlags s c irqEn done overrun

/-- The engine on any word, legal or not. -/
theorem runWord_withFlags {w : Word} {t : State} (h : runWord w s = .next t) :
    runWord w (s.withFlags irqEn done overrun) = .next (t.withFlags irqEn true overrun) := by
  rcases runWord_cases h with ⟨i, hdecode, hexec⟩ | ⟨⟨e, hdecode⟩, rfl⟩ <;> simp only [runWord, hdecode]
  · rcases exec_cases hexec with ⟨hw, rfl⟩ | ⟨hw, rfl⟩
    · rw [← effect_withFlags s irqEn done overrun i]
      exact exec_legal hw
    · exact exec_illegal hw
  · rfl

/-- Every completion sets DONE (R213): an outcome is its own outcome with DONE set. -/
theorem runWord_done {w : Word} {t : State} (h : runWord w s = .next t) : t.done = true := by
  have hself : runWord w s = .next (t.withFlags s.irqEn true s.overrun) :=
    runWord_withFlags s s.irqEn s.done s.overrun h
  rw [Host.Outcome.next.inj (h.symm.trans hself)]
  rfl

end Outcomes

/-- Settles O14: the host's writes reach only three flags, and a command's outcome from a state with other flags differs
in IRQ_EN and OVERRUN alone, since it sets DONE in any case. -/
theorem pendingCommandIgnoresHostWrites : Obligations.PendingCommandIgnoresHostWrites := by
  intro s t w ws hb hrun
  obtain ⟨irqEn, done, overrun, hwrites⟩ := writeAll_eq_withFlags ws hb
  rw [hwrites, runWord_withFlags s irqEn done overrun hrun, ← runWord_done s hrun]
  rfl

end Sys2Proof.Machine
end

section
/-! PROOFS. The command word: what the decoder reads from an encoding and the encoder from a decoded word, the opcode
table's rows, and the engine's answer to a word that R93 rejects. -/

namespace Sys2Proof

/-! ### The decoder, row by row -/

/-- The form by which the decoder reads a word with the opcode of `i` (R92). -/
def Instr.form : Instr → Word → Except DecodeError Instr
  | .nop => (takeNone · .nop)
  | .bcClear _ => (takeA · .bcClear)
  | .bcPush _ _ => takePush
  | .bcFromBits _ => (takeA · .bcFromBits)
  | .bcFromBytes _ => (takeA · .bcFromBytes)
  | .bcAppend _ _ => takeAppend
  | .bcIterReset _ => (takeA · .bcIterReset)
  | .bcIterNext _ => (takeA · .bcIterNext)
  | .bcAlign _ => (takeA · .bcAlign)
  | .treeBuild => (takeNone · .treeBuild)
  | .treeBuildFreq => (takeNone · .treeBuildFreq)
  | .tableDerive => (takeNone · .tableDerive)
  | .tableLookup _ _ => takeLookup
  | .encode _ => (takeA · .encode)
  | .decode _ => (takeA · .decode)

/-- RSV = 0 and the opcode select the form. -/
theorem decode_eq_form {w : Word} {i : Instr} (hrsv : fieldRsv w = 0) (hop : fieldOp w = i.opcode) :
    decode w = i.form w := by
  unfold decode
  rw [if_pos hrsv, hop]
  cases i <;> rfl

section Forms
variable {w : Word}

theorem takeNone_eq (i : Instr) (ha : fieldA w = 0) (hb : fieldB w = 0) (himm : fieldImm w = 0) :
    takeNone w i = .ok i := if_pos ⟨ha, hb, himm⟩

theorem takeA_eq (f : CIdx → Instr) (hb : fieldB w = 0) (himm : fieldImm w = 0) :
    takeA w f = .ok (f (containerOf (fieldA w))) := if_pos ⟨hb, himm⟩

theorem takePush_eq (hb : fieldB w = 0) (himm : (fieldImm w).toNat ≤ 1) :
    takePush w = .ok (.bcPush (containerOf (fieldA w)) ((fieldImm w).getLsbD 0)) := by
  unfold takePush
  rw [if_pos hb, if_pos himm]

theorem takeAppend_eq (himm : fieldImm w = 0) :
    takeAppend w = .ok (.bcAppend (containerOf (fieldA w)) (containerOf (fieldB w))) := if_pos himm

theorem takeLookup_eq (hb : fieldB w = 0) :
    takeLookup w = .ok (.tableLookup (containerOf (fieldA w)) (fieldImm w)) := if_pos hb

end Forms

/-! ### Decode and encode agree (R90 to R93, R96) -/

@[simp] theorem fieldRsv_encode (i : Instr) : fieldRsv (encode i) = 0 := by
  cases i <;> exact fieldRsv_packWord ..

@[simp] theorem fieldOp_encode (i : Instr) : fieldOp (encode i) = i.opcode := by
  cases i <;> exact fieldOp_packWord ..

/-- The form of a command reads the operands back from its word. -/
theorem form_encode (i : Instr) : i.form (encode i) = .ok i := by
  cases i with
  | nop | treeBuild | treeBuildFreq | tableDerive =>
    exact takeNone_eq _ (fieldA_packWord ..) (fieldB_packWord ..) (fieldImm_packWord ..)
  | bcClear c | bcFromBits c | bcFromBytes c | bcIterReset c | bcIterNext c | bcAlign c | encode c | decode c =>
    simp only [Instr.form, encode]
    rw [takeA_eq _ (fieldB_packWord ..) (fieldImm_packWord ..), fieldA_packWord, containerOf_fieldOf]
  | bcPush c bit =>
    simp only [Instr.form, encode]
    rw [takePush_eq (fieldB_packWord ..) (by rw [fieldImm_packWord]; cases bit <;> decide), fieldA_packWord,
      containerOf_fieldOf, fieldImm_packWord]
    cases bit <;> rfl
  | bcAppend c src =>
    simp only [Instr.form, encode]
    rw [takeAppend_eq (fieldImm_packWord ..), fieldA_packWord, fieldB_packWord, containerOf_fieldOf, containerOf_fieldOf]
  | tableLookup c sym =>
    simp only [Instr.form, encode]
    rw [takeLookup_eq (fieldB_packWord ..), fieldA_packWord, fieldImm_packWord, containerOf_fieldOf]

/-- Settles O1: the word's opcode selects the command's own form, which reads the operands back. -/
theorem decodeAfterEncode : Obligations.DecodeAfterEncode := fun i =>
  (decode_eq_form (fieldRsv_encode i) (fieldOp_encode i)).trans (form_encode i)

/-- BC_PUSH's immediate is its bit (R91). -/
theorem bitImm_getLsbD_zero {imm : Byte} (h : imm.toNat ≤ 1) : (if imm.getLsbD 0 then 1 else 0) = imm := by
  obtain h | h : imm.toNat = 0 ∨ imm.toNat = 1 := by omega
  · obtain rfl : imm = 0 := BitVec.eq_of_toNat_eq h
    rfl
  · obtain rfl : imm = 1 := BitVec.eq_of_toNat_eq h
    rfl

/-- Settles O2: a word with RSV = 0 is its packed fields, and what decoding can give names each of them. -/
theorem encodeAfterDecode : Obligations.EncodeAfterDecode := by
  intro w i h
  obtain ⟨hrsv, hop, hfields⟩ := decode_cases h
  rw [← packWord_fields w hrsv, hop]
  obtain ⟨hi, ha, hb, himm⟩ | ⟨f, hf, hb, himm, rfl⟩ | ⟨hb, himm, rfl⟩ | ⟨himm, rfl⟩ | ⟨hb, rfl⟩ := hfields
  · rw [ha, hb, himm]
    simp only [List.mem_cons, List.not_mem_nil, or_false] at hi
    obtain rfl | rfl | rfl | rfl := hi <;> rfl
  · rw [hb, himm, ← fieldOf_containerOf (fieldA w)]
    simp only [List.mem_cons, List.not_mem_nil, or_false] at hf
    obtain rfl | rfl | rfl | rfl | rfl | rfl | rfl | rfl := hf <;> simp [encode]
  · simp only [encode, bitImm_getLsbD_zero himm, fieldOf_containerOf, hb]
  · simp only [encode, fieldOf_containerOf, himm]
  · simp only [encode, fieldOf_containerOf, hb]

/-- Settles O6: each word is the encoding of its command. -/
theorem sampleWordsDecode : Obligations.SampleWordsDecode :=
  ⟨decodeAfterEncode .nop, decodeAfterEncode (.bcClear 1), decodeAfterEncode (.bcPush 0 true),
    decodeAfterEncode (.bcFromBits 2), decodeAfterEncode (.bcAppend 1 2), decodeAfterEncode .treeBuild,
    decodeAfterEncode .tableDerive, decodeAfterEncode (.tableLookup 0 4), decodeAfterEncode (.encode 1),
    decodeAfterEncode (.decode 0)⟩

/-! ### The opcode table's rows (R92, R95) -/

/-- A command's word falls under the command's row, which is in the table. -/
theorem row_hits_encode (i : Instr) : i.row.hits (encode i) = true ∧ i.row ∈ opcodeRows := by
  cases i with
  | nop => exact Laws.RowMatch.nop
  | bcClear c => exact Laws.RowMatch.bcClear c
  | bcPush c bit => exact Laws.RowMatch.bcPush c bit
  | bcFromBits c => exact Laws.RowMatch.bcFromBits c
  | bcFromBytes c => exact Laws.RowMatch.bcFromBytes c
  | bcAppend c src => exact Laws.RowMatch.bcAppend c src
  | bcIterReset c => exact Laws.RowMatch.bcIterReset c
  | bcIterNext c => exact Laws.RowMatch.bcIterNext c
  | bcAlign c => exact Laws.RowMatch.bcAlign c
  | treeBuild => exact Laws.RowMatch.treeBuild
  | treeBuildFreq => exact Laws.RowMatch.treeBuildFreq
  | tableDerive => exact Laws.RowMatch.tableDerive
  | tableLookup c sym => exact Laws.RowMatch.tableLookup c sym
  | encode c => exact Laws.RowMatch.encode c
  | decode c => exact Laws.RowMatch.decode c

/-- Every row of the table is a command's. -/
theorem exists_row {r : OpcodeRow} (hr : r ∈ opcodeRows) : ∃ i : Instr, i.row = r := by
  simp only [opcodeRows, List.mem_append, List.mem_cons, List.not_mem_nil, or_false] at hr
  obtain (h | h | h | h | h | h | h | h) | (h | h | h | h | h | h | h) := hr <;> exact ⟨_, h.symm⟩

theorem fieldOp_row_pattern (i : Instr) : fieldOp i.row.pattern = i.opcode := by
  cases i <;> rfl

/-- The opcodes of R92 are distinct: a row has one opcode and an opcode one row. -/
theorem row_of_opcode_eq {i j : Instr} (h : i.opcode = j.opcode) : i.row = j.row := by
  have hrows : ∀ r ∈ opcodeRows, ∀ r' ∈ opcodeRows, fieldOp r.pattern = fieldOp r'.pattern → r = r' := by decide
  refine hrows _ (row_hits_encode i).2 _ (row_hits_encode j).2 ?_
  rw [fieldOp_row_pattern, fieldOp_row_pattern, h]

/-- Where the mask has every bit of a field, the field is the pattern's. -/
theorem eq_of_masked {n : Nat} {v mask pattern : BitVec n} (h : v &&& mask = pattern) (hmask : mask = BitVec.allOnes n) :
    v = pattern := by
  rw [← h, hmask, BitVec.and_allOnes]

section Rows
variable {w : Word} {i : Instr}

/-- Every row fixes RSV = 0 and the opcode. -/
theorem rsv_op_of_hits (h : i.row.hits w = true) : fieldRsv w = 0 ∧ fieldOp w = i.opcode := by
  obtain ⟨hop, -, -, -, hrsv⟩ := hits_fields h
  have hrows : ∀ r ∈ opcodeRows, fieldRsv r.mask = BitVec.allOnes 8 ∧ fieldRsv r.pattern = 0 ∧
      fieldOp r.mask = BitVec.allOnes 8 := by decide
  obtain ⟨hrsvMask, hrsvPattern, hopMask⟩ := hrows _ (row_hits_encode i).2
  exact ⟨(eq_of_masked hrsv hrsvMask).trans hrsvPattern, (eq_of_masked hop hopMask).trans (fieldOp_row_pattern i)⟩

/-- A row fixes the fields its command does not use, so its form takes the word. -/
theorem form_of_hits (h : i.row.hits w = true) : ∃ j, i.form w = .ok j := by
  obtain ⟨-, ha, hb, himm, -⟩ := hits_fields h
  cases i with
  | nop | treeBuild | treeBuildFreq | tableDerive =>
    exact ⟨_, takeNone_eq _ (eq_of_masked ha rfl) (eq_of_masked hb rfl) (eq_of_masked himm rfl)⟩
  | bcClear c | bcFromBits c | bcFromBytes c | bcIterReset c | bcIterNext c | bcAlign c | encode c | decode c =>
    simp only [Instr.row] at hb himm
    exact ⟨_, takeA_eq _ (eq_of_masked hb rfl) (eq_of_masked himm rfl)⟩
  | bcPush c bit =>
    have hbit : ∀ imm : Byte, imm &&& 0xFE = 0 → imm.toNat ≤ 1 := by decide
    simp only [Instr.row] at hb himm
    exact ⟨_, takePush_eq (eq_of_masked hb rfl) (hbit _ himm)⟩
  | bcAppend c src =>
    simp only [Instr.row] at himm
    exact ⟨_, takeAppend_eq (eq_of_masked himm rfl)⟩
  | tableLookup c sym =>
    simp only [Instr.row] at hb
    exact ⟨_, takeLookup_eq (eq_of_masked hb rfl)⟩

/-- A word under a command's row decodes to a command of that row. -/
theorem decode_of_hits (h : i.row.hits w = true) : ∃ j, decode w = .ok j ∧ j.row = i.row := by
  obtain ⟨hrsv, hop⟩ := rsv_op_of_hits h
  obtain ⟨j, hform⟩ := form_of_hits h
  have hdecode : decode w = .ok j := (decode_eq_form hrsv hop).trans hform
  obtain ⟨-, hop', -⟩ := decode_cases hdecode
  exact ⟨j, hdecode, row_of_opcode_eq (hop'.symm.trans hop)⟩

/-- A word under two commands' rows is under one row. -/
theorem row_unique {j : Instr} (h : i.row.hits w = true) (h' : j.row.hits w = true) : i.row = j.row := by
  obtain ⟨-, hop⟩ := rsv_op_of_hits h
  obtain ⟨-, hop'⟩ := rsv_op_of_hits h'
  exact row_of_opcode_eq (hop.symm.trans hop')

end Rows

/-- A legal word selects a row. -/
theorem exists_row_of_legal {p : Params} {w : Word} (h : legalWord p w = true) :
    ∃ r ∈ opcodeRows, r.hits w = true := by
  obtain ⟨i, hdecode⟩ := legal_decodes h
  obtain ⟨hhits, hmem⟩ := row_hits_encode i
  rw [encodeAfterDecode w i hdecode] at hhits
  exact ⟨i.row, hmem, hhits⟩

/-- The four ranges of R94. -/
def ReservedOp (op : Nat) : Prop :=
  0x09 ≤ op ∧ op ≤ 0x0F ∨ 0x12 ≤ op ∧ op ≤ 0x1F ∨ 0x22 ≤ op ∧ op ≤ 0x2F ∨ 0x32 ≤ op

/-- No command has a reserved opcode. -/
theorem opcode_not_reserved (i : Instr) : ¬ ReservedOp i.opcode.toNat := by
  cases i <;> simp [ReservedOp, Instr.opcode]

/-- A word with a reserved opcode is not legal: a legal word has its command's opcode. -/
theorem legalWord_of_reserved (p : Params) {w : Word} (h : ReservedOp (fieldOp w).toNat) : legalWord p w = false := by
  refine Bool.eq_false_iff.2 fun hlegal => ?_
  obtain ⟨i, hdecode⟩ := legal_decodes hlegal
  obtain ⟨-, hop, -⟩ := decode_cases hdecode
  rw [hop] at h
  exact opcode_not_reserved i h

end Sys2Proof

namespace Sys2Proof.Machine

/-! ### The engine on a word that is not legal (R93 to R95) -/

/-- The word is no command, or a command whose operands are rejected: in both cases only the report is written. -/
theorem runWord_illegal {s : State} {w : Word} (h : legalWord s.cfg w = false) :
    runWord w s = .next (s.raise .illegalCommand 0 0) := by
  cases hdecode : decode w with
  | error e => simp only [runWord, hdecode]
  | ok i =>
    rw [legalWord_eq hdecode] at h
    simp only [runWord, hdecode, exec_illegal h]

/-- Settles O3: the two facts about rows, then R93's function decides between a row and the engine's report. -/
theorem decodingIsTotalAndUnambiguous : Obligations.DecodingIsTotalAndUnambiguous := by
  refine fun p w => ⟨fun r hr r' hr' => ?_, fun r hr hhits => ?_, ?_⟩
  · obtain ⟨i, rfl⟩ := exists_row hr
    obtain ⟨j, rfl⟩ := exists_row hr'
    exact row_unique
  · obtain ⟨i, rfl⟩ := exists_row hr
    obtain ⟨j, hdecode, hrow⟩ := decode_of_hits hhits
    exact ⟨j, hdecode, hrow, legalWord_eq hdecode⟩
  · cases hlegal : legalWord p w with
    | true => exact .inl ⟨rfl, exists_row_of_legal hlegal⟩
    | false =>
      refine .inr ⟨rfl, ?_⟩
      rintro s rfl
      exact ⟨_, runWord_illegal hlegal, completedWith_raise ..⟩

/-- Settles O5: the engine's turn runs the pending word, and an illegal word writes only the report. -/
theorem illegalWordChangesOnlyTheReport : Obligations.IllegalWordChangesOnlyTheReport := by
  intro s w rest hnext hpending hlegal
  have hrun : step s = .next (State.raise .illegalCommand 0 0 { s with schedule := rest }) := by
    rw [step_engine hnext, engineStep, hpending]
    exact runWord_illegal hlegal
  exact ⟨_, hrun, completedWith_raise .., sameData_raise .., rfl⟩

/-- Settles O4: a reserved opcode is no command's, so its word is not legal; NOP's one word is its encoding. -/
theorem reservedOpcodesAreIllegal : Obligations.ReservedOpcodesAreIllegal := by
  refine ⟨fun s w hop => ?_, fun w => ⟨fun hdecode => ?_, ?_⟩⟩
  · exact ⟨_, runWord_illegal (legalWord_of_reserved s.cfg hop), completedWith_raise .., sameData_raise .., rfl⟩
  · exact (encodeAfterDecode w .nop hdecode).symm
  · rintro rfl
    exact decodeAfterEncode .nop

end Sys2Proof.Machine
end

section
/-! PROOFS. The bit container commands (R110 to R119): a command's word as a number, what a container holds after a
store, one equation per branch of each effect, and the two laws of the family. -/

namespace Sys2Proof

/-! ### A command word as a number (R90) -/

/-- A word is the sum of its fields, each at its place. -/
theorem word_toNat_eq_fields (w : Word) : w.toNat = (fieldOp w).toNat + 2 ^ 8 * (fieldA w).toNat +
    2 ^ 12 * (fieldB w).toNat + 2 ^ 16 * (fieldImm w).toNat + 2 ^ 24 * (fieldRsv w).toNat := by
  have hw := w.isLt
  simp only [fieldOp, fieldA, fieldB, fieldImm, fieldRsv, BitVec.extractLsb'_toNat, Nat.shiftRight_eq_div_pow]
  omega

theorem packWord_toNat (op imm : Byte) (a b : BitVec 4) : (packWord op a b imm).toNat =
    op.toNat + 2 ^ 8 * a.toNat + 2 ^ 12 * b.toNat + 2 ^ 16 * imm.toNat := by
  rw [word_toNat_eq_fields, fieldOp_packWord, fieldA_packWord, fieldB_packWord, fieldImm_packWord, fieldRsv_packWord]
  rfl

@[simp] theorem fieldOf_toNat (c : CIdx) : (fieldOf c).toNat = c.val :=
  Nat.mod_eq_of_lt c.isLt

/-- The word of a command whose one operand is a container. -/
theorem packWord_container_toNat (op : Byte) (c : CIdx) :
    (packWord op (fieldOf c) 0 0).toNat = op.toNat + 2 ^ 8 * c.val := by
  rw [packWord_toNat, fieldOf_toNat]
  rfl

/-- The commands that write no data but their containers (R110 to R115, R117, R162, R180). -/
def Instr.writesContainersOnly : Instr → Bool
  | .bcIterNext _ | .treeBuild | .treeBuildFreq | .tableDerive | .decode _ => false
  | _ => true

end Sys2Proof

namespace Sys2Proof.Machine

/-! ### What a container holds -/

section Containers
variable (s : State) (c : CIdx) (k : Container)

@[simp] theorem State.container_complete : s.complete.container c = s.container c := rfl
@[simp] theorem State.bits_complete : s.complete.bits c = s.bits c := rfl
@[simp] theorem State.pos_complete : s.complete.pos c = s.pos c := rfl

@[simp] theorem State.bits_setContainer_same : (s.setContainer c k).bits c = k.bits :=
  congrArg Container.bits (s.container_setContainer_same c k)

@[simp] theorem State.pos_setContainer_same : (s.setContainer c k).pos c = k.pos :=
  congrArg Container.pos (s.container_setContainer_same c k)

end Containers

/-! ### How a legal command ends, and its frame -/

section Endings
variable {i : Instr} {s t : State}

theorem completedOk_complete (hindex : t.errIndex = s.errIndex) (hsymbol : t.errSymbol = s.errSymbol) :
    CompletedOk s t.complete :=
  ⟨rfl, rfl, rfl, rfl, hindex, hsymbol⟩

/-- The frame of a command that writes containers only. -/
theorem exec_sameButContainers (h : exec i s = .next t) (hi : i.writesContainersOnly = true) :
    SameContainersBut (writtenContainers i) s t ∧ SameButContainers s t := by
  obtain ⟨hcontrol, hin, hout, hresult, htree, hfreq, htable, hbcs⟩ := exec_writesOnly h
  have hdecode (c) : i ≠ .decode c := by rintro rfl; cases hi
  have hiter (c) : i ≠ .bcIterNext c := by rintro rfl; cases hi
  have hbuild : i ≠ .treeBuild := by rintro rfl; cases hi
  have hbuildFreq : i ≠ .treeBuildFreq := by rintro rfl; cases hi
  have hderive : i ≠ .tableDerive := by rintro rfl; cases hi
  exact ⟨hbcs, hcontrol, hin, hout hdecode, hresult hiter, hfreq hbuild, htree hbuild hbuildFreq,
    htable hbuild hbuildFreq hderive⟩

/-- A legal command whose effect is to raise an error completes with it and changes no data (R215, R216). -/
theorem exec_raise (i : Instr) {e : ErrCode} {n : Nat} {sym : Byte} (hlegal : i.wellFormed s.cfg = true)
    (heffect : effect i s = s.raise e n sym) :
    ∃ t, exec i s = .next t ∧ CompletedWith e n sym t ∧ SameData s t :=
  ⟨_, (exec_legal hlegal).trans (congrArg _ heffect), completedWith_raise .., sameData_raise ..⟩

/-- A legal command whose effect is to store one container, perhaps after reading IN, completes with just that. -/
theorem exec_store (i : Instr) {c : CIdx} {k : Container} {s1 : State} (hlegal : i.wellFormed s.cfg = true)
    (heffect : effect i s = (s1.setContainer c k).complete) (hs1 : s1 = s ∨ s1 = s.afterInput)
    (hwritten : writtenContainers i = [c]) (hi : i.writesContainersOnly = true) :
    ∃ t, exec i s = .next t ∧ CompletedOk s t ∧ t.bits c = k.bits ∧ t.pos c = k.pos ∧
      SameContainersBut [c] s t ∧ SameButContainers s t := by
  have hexec : exec i s = .next (s1.setContainer c k).complete := (exec_legal hlegal).trans (congrArg _ heffect)
  obtain ⟨hbcs, hrest⟩ := exec_sameButContainers hexec hi
  have hok : CompletedOk s (s1.setContainer c k).complete := by
    obtain rfl | rfl := hs1 <;> exact completedOk_complete rfl rfl
  exact ⟨_, hexec, hok, by simp, by simp, hwritten ▸ hbcs, hrest⟩

/-- A legal command goes on with its effect. -/
theorem runAll_cons_legal (i : Instr) (hlegal : i.wellFormed s.cfg = true) (is : List Instr) :
    runAll (i :: is) s = runAll is (effect i s) := by
  rw [runAll, exec_legal hlegal]
  rfl

end Endings

/-! ### One equation per branch of each effect (R111 to R114, R116) -/

section Effects
variable {s : State} {c : CIdx}

theorem pushBit_below (h : (s.bits c).length ≠ s.cfg.bcCap) (bit : Bool) :
    pushBit c bit s = (s.extendTo c (s.bits c ++ [bit])).complete := if_neg h

theorem pushBit_full (h : (s.bits c).length = s.cfg.bcCap) (bit : Bool) :
    pushBit c bit s = s.raise .overflow 0 0 := if_pos h

theorem loadBits_within (hin : s.inCount ≤ s.cfg.inCap) (hbc : s.inCount ≤ s.cfg.bcCap) :
    loadBits c s = (s.afterInput.replaceBits c (s.input.map bitOfByte)).complete := by
  rw [loadBits, if_neg hin.not_gt, if_neg hbc.not_gt]

theorem loadBits_over (h : s.cfg.inCap < s.inCount ∨ s.cfg.bcCap < s.inCount) :
    loadBits c s = s.raise .overflow 0 0 := by
  unfold loadBits
  split
  · rfl
  · exact if_pos (h.resolve_left ‹_›)

theorem loadBytes_within (hin : s.inCount ≤ s.cfg.inCap) (hbc : 8 * s.inCount ≤ s.cfg.bcCap) :
    loadBytes c s = (s.afterInput.replaceBits c (s.input.flatMap byteBits)).complete := by
  rw [loadBytes, if_neg hin.not_gt, if_neg hbc.not_gt]

theorem loadBytes_over (h : s.cfg.inCap < s.inCount ∨ s.cfg.bcCap < 8 * s.inCount) :
    loadBytes c s = s.raise .overflow 0 0 := by
  unfold loadBytes
  split
  · rfl
  · exact if_pos (h.resolve_left ‹_›)

theorem appendContainer_within {src : CIdx} (h : (s.bits c).length + (s.bits src).length ≤ s.cfg.bcCap) :
    appendContainer c src s = ((s.extendTo c (s.bits c ++ s.bits src)).replaceBits src []).complete :=
  if_neg h.not_gt

theorem appendContainer_over {src : CIdx} (h : s.cfg.bcCap < (s.bits c).length + (s.bits src).length) :
    appendContainer c src s = s.raise .overflow 0 0 := if_pos h

theorem yieldBit_within (h : s.pos c < (s.bits c).length) :
    yieldBit c s =
      ({ s with result := { valid := true, bit := (s.bits c)[s.pos c] } }.setPos c (s.pos c + 1)).complete := by
  rw [yieldBit, List.getElem?_eq_getElem h]

theorem yieldBit_end (h : (s.bits c).length ≤ s.pos c) :
    yieldBit c s = { s with result := { valid := false, bit := false } }.complete := by
  rw [yieldBit, List.getElem?_eq_none h]

/-- R93's check of BC_APPEND: two distinct existing containers. -/
theorem wellFormed_bcAppend {p : Params} {c src : CIdx} (hc : containerExists p c = true)
    (hsrc : containerExists p src = true) (hne : c ≠ src) : (Instr.bcAppend c src).wellFormed p = true := by
  simp [Instr.wellFormed, hc, hsrc, hne]

end Effects

/-! ### Bits of bytes, and bits packed into bytes (R35, R69) -/

@[simp] theorem byteBits_length (v : Byte) : (byteBits v).length = 8 := rfl

theorem byteBits_getElem? (v : Byte) {k : Nat} (hk : k < 8) : (byteBits v)[k]? = some (v.getLsbD (7 - k)) := by
  interval_cases k <;> rfl

/-- Bit 8i + k of the unpacked bytes is bit 7 - k of byte i. -/
theorem flatMap_byteBits_getElem? {vs : List Byte} {i k : Nat} {v : Byte} (hv : vs[i]? = some v) (hk : k < 8) :
    (vs.flatMap byteBits)[8 * i + k]? = some (v.getLsbD (7 - k)) := by
  induction vs generalizing i with
  | nil => cases hv
  | cons u vs ih =>
    rw [List.flatMap_cons]
    cases i with
    | zero =>
      obtain rfl : u = v := Option.some.inj hv
      rw [List.getElem?_append_left (by simp; omega), Nat.mul_zero, Nat.zero_add, byteBits_getElem? u hk]
    | succ i =>
      rw [List.getElem?_append_right (by simp; omega), byteBits_length, show 8 * (i + 1) + k - 8 = 8 * i + k by omega]
      exact ih hv

theorem packedByte_eq {b : Bits} {j : Nat} {v : Byte} (h : ∀ k, k < 8 → b[8 * j + k]? = some (v.getLsbD (7 - k))) :
    packedByte b j = v := by
  apply BitVec.eq_of_getLsbD_eq
  intro i hi
  have hbit := packedByte_getLsbD b j (k := 7 - i) (by omega)
  rw [List.getD_eq_getElem?_getD, h (7 - i) (by omega), show 7 - (7 - i) = i by omega] at hbit
  exact hbit

/-- Zero bits at the end read as the zeros beyond the length do. -/
theorem getD_append_zeros (b : Bits) (n i : Nat) : (b ++ List.replicate n false).getD i false = b.getD i false := by
  obtain h | h := Nat.lt_or_ge i b.length
  · exact List.getD_append _ _ _ _ h
  · rw [List.getD_append_right _ _ _ _ h, List.getD_eq_default _ _ h, List.getD_eq_getElem?_getD,
      List.getElem?_replicate]
    split <;> rfl

theorem packedByte_append_zeros (b : Bits) (n j : Nat) :
    packedByte (b ++ List.replicate n false) j = packedByte b j := by
  simp only [packedByte, getD_append_zeros]

/-! ### The commands one by one -/

/-- Settles O30: the two branches of the load, then bit 8i + k of the unpacked bytes. -/
theorem fromBytesUnpacksMostSignificantFirst : Obligations.FromBytesUnpacksMostSignificantFirst := by
  refine fun s c hc => ⟨packWord_container_toNat _ c, fun hin hbc => ?_,
    fun h => exec_raise (.bcFromBytes c) hc (loadBytes_over h)⟩
  obtain ⟨t, hexec, hok, hbits, hpos, hbcs, hrest⟩ :=
    exec_store (.bcFromBytes c) hc (loadBytes_within hin hbc) (.inr rfl) rfl rfl
  have hbit {i : Nat} {v : Byte} (hv : s.input[i]? = some v) (k : Nat) (hk : k < 8) :
      (t.bits c)[8 * i + k]? = some (v.getLsbD (7 - k)) := by
    rw [hbits]
    exact flatMap_byteBits_getElem? hv hk
  refine ⟨t, hexec, hok, ?_, fun i v hv => ⟨hbit hv, packedByte_eq (hbit hv)⟩, hpos, hbcs, hrest⟩
  rw [hbits, flatMap_byteBits_length, s.input_length]

/-- Settles O34: (8 - n % 8) % 8 zero bits, which BC_CAP has room for because it is a multiple of 8 too (R8). -/
theorem alignPadsToAMultipleOfEight : Obligations.AlignPadsToAMultipleOfEight := by
  refine fun s c hc => ⟨packWord_container_toNat _ c, ?_⟩
  obtain ⟨t, hexec, hok, hbits, hpos, hbcs, hrest⟩ := exec_store (.bcAlign c) hc rfl (.inl rfl) rfl rfl
  have hlen : (t.bits c).length = (s.bits c).length + (8 - (s.bits c).length % 8) % 8 := by
    rw [hbits, List.length_append, padding_length]
  refine ⟨t, _, hexec, hok, hbits, by omega, by omega, hpos, fun j => ?_, fun hlegal hcap => ?_, hbcs, hrest⟩
  · rw [hbits]
    exact packedByte_append_zeros ..
  · obtain ⟨-, -, -, -, -, hmod, -⟩ := of_decide_eq_true hlegal
    omega

/-- Settles O27: one store, of the empty container. -/
theorem clearEmptiesTheContainer : Obligations.ClearEmptiesTheContainer := fun _ c hc =>
  ⟨packWord_container_toNat _ c, exec_store (.bcClear c) hc rfl (.inl rfl) rfl rfl⟩

/-- Settles O28: the two branches of the push. -/
theorem pushAppendsOneBit : Obligations.PushAppendsOneBit := by
  refine fun s c bit hc => ⟨?_, fun h => exec_store (.bcPush c bit) hc (pushBit_below h bit) (.inl rfl) rfl rfl,
    fun h => exec_raise (.bcPush c bit) hc (pushBit_full h bit)⟩
  rw [encode, packWord_toNat, fieldOf_toNat]
  cases bit <;> rfl

/-- Settles O29: the two branches of the load, then the bit of one byte. -/
theorem fromBitsTakesOneBitPerByte : Obligations.FromBitsTakesOneBitPerByte := by
  refine fun s c hc => ⟨packWord_container_toNat _ c, fun hin hbc => ?_,
    fun h => exec_raise (.bcFromBits c) hc (loadBits_over h)⟩
  obtain ⟨t, hexec, hok, hbits, hpos, hbcs, hrest⟩ :=
    exec_store (.bcFromBits c) hc (loadBits_within hin hbc) (.inr rfl) rfl rfl
  refine ⟨t, hexec, hok, ?_, fun i v hv => ?_, hpos, hbcs, hrest⟩
  · rw [hbits, List.length_map, s.input_length]
  · rw [hbits, List.getElem?_map, hv, Option.map_some, bitOfByte, bne, decide_not]
    rfl

/-- The two containers after an append within BC_CAP. -/
theorem appendContainer_containers {s : State} {c src : CIdx} (hne : c ≠ src)
    (h : (s.bits c).length + (s.bits src).length ≤ s.cfg.bcCap) :
    (appendContainer c src s).container c = { bits := s.bits c ++ s.bits src, pos := s.pos c } ∧
    (appendContainer c src s).container src = { bits := [], pos := 0 } := by
  rw [appendContainer_within h, State.container_complete, State.container_setContainer_other _ _ hne]
  simp

/-- Settles O31: the two branches of the append, and its two stores. -/
theorem appendMovesTheSource : Obligations.AppendMovesTheSource := by
  refine fun s c src hc hsrc hne => ?_
  have hlegal := wellFormed_bcAppend hc hsrc hne
  refine ⟨?_, fun h => ?_, fun h => exec_raise (.bcAppend c src) hlegal (appendContainer_over h)⟩
  · rw [encode, packWord_toNat, fieldOf_toNat, fieldOf_toNat]
    rfl
  · have hexec : exec (.bcAppend c src) s = .next (appendContainer c src s) := exec_legal hlegal
    obtain ⟨hbcs, hrest⟩ := exec_sameButContainers hexec rfl
    have hok : CompletedOk s (appendContainer c src s) := by
      rw [appendContainer_within h]
      exact completedOk_complete rfl rfl
    obtain ⟨hdst, hempty⟩ := appendContainer_containers hne h
    refine ⟨_, hexec, hok, ?_, ?_, ?_, ?_, hbcs, hrest⟩ <;> simp only [State.bits, State.pos, hdst, hempty]

/-- Settles O32: one store, of the same bits at position 0. -/
theorem iterResetRestartsAtZero : Obligations.IterResetRestartsAtZero := by
  refine fun s c hc => ⟨packWord_container_toNat _ c, ?_⟩
  obtain ⟨t, hexec, hok, hbits, hpos, hframe⟩ := exec_store (.bcIterReset c) hc rfl (.inl rfl) rfl rfl
  exact ⟨t, hexec, hok, hpos, hbits, hframe⟩

/-- In both branches BC_ITER_NEXT completes without an error and keeps the bits. -/
theorem yieldBit_completes (s : State) (c : CIdx) :
    CompletedOk s (yieldBit c s) ∧ (yieldBit c s).bits c = s.bits c := by
  obtain h | h := Nat.lt_or_ge (s.pos c) (s.bits c).length
  · rw [yieldBit_within h]
    exact ⟨completedOk_complete rfl rfl, State.bits_setContainer_same ..⟩
  · rw [yieldBit_end h]
    exact ⟨completedOk_complete rfl rfl, rfl⟩

/-- Settles O33: the two branches of the iterator, with the frame of the effect. -/
theorem iterNextYieldsTheNextBit : Obligations.IterNextYieldsTheNextBit := by
  intro s c hc
  obtain ⟨hok, hbits⟩ := yieldBit_completes s c
  obtain ⟨hcontrol, hin, hout, -, htree, hfreq, htable, hbcs⟩ := yieldBit_writesOnly s c
  refine ⟨packWord_container_toNat _ c, yieldBit c s, exec_legal hc, hok, hbits, fun h => ?_, fun h => ?_, hbcs,
    hcontrol, hin, hout nofun, hfreq nofun, htree nofun nofun, htable nofun nofun nofun⟩
  · rw [yieldBit_within h]
    exact ⟨rfl, State.pos_setContainer_same ..⟩
  · rw [yieldBit_end h]
    exact ⟨rfl, rfl⟩

/-! ### The laws of the family (R118, R119) -/

/-- Pushing bits one at a time puts them at the tail in order, as long as BC_CAP has room for them. -/
theorem runAll_push_container (s : State) (c : CIdx) (b : Bits) (hc : containerExists s.cfg c = true)
    (hcap : (s.bits c).length + b.length ≤ s.cfg.bcCap) :
    (runAll (b.map (.bcPush c ·)) s).container c = { bits := s.bits c ++ b, pos := s.pos c } := by
  induction b generalizing s with
  | nil => rw [List.append_nil]; rfl
  | cons x b ih =>
    rw [List.length_cons] at hcap
    have hroom : (s.bits c).length ≠ s.cfg.bcCap := by omega
    have hpush : effect (.bcPush c x) s = (s.extendTo c (s.bits c ++ [x])).complete := pushBit_below hroom x
    rw [List.map_cons, runAll_cons_legal (.bcPush c x) hc, hpush,
      ih (s.extendTo c (s.bits c ++ [x])).complete hc (by simp; omega)]
    simp

/-- BC_FROM_BITS reads back the bits a host writes as the bytes 0 and 1 (R112). -/
theorem map_bitOfByte (b : Bits) : (b.map fun x => if x then (1 : Byte) else 0).map bitOfByte = b := by
  rw [List.map_map]
  exact (List.map_congr_left fun x _ => by cases x <;> rfl).trans b.map_id

/-- Settles O35: both sides are the bits with position 0, by the load and by pushing onto the empty container. -/
theorem pushingEqualsConstructing : Obligations.PushingEqualsConstructing := by
  intro s c b hc _ hin hbc hcount hinput
  have hload : (runAll [.bcFromBits c] s).container c = { bits := b, pos := 0 } := by
    rw [runAll_cons_legal (.bcFromBits c) hc, effect, loadBits_within (hcount ▸ hin) (hcount ▸ hbc), hinput,
      map_bitOfByte]
    simp [runAll]
  have hpush : (runAll (.bcClear c :: b.map (.bcPush c ·)) s).container c = { bits := b, pos := 0 } := by
    have hclear : effect (.bcClear c) s = (s.replaceBits c []).complete := rfl
    rw [runAll_cons_legal (.bcClear c) hc, hclear,
      runAll_push_container (s.replaceBits c []).complete c b hc (by simpa using hbc)]
    simp
  exact ⟨hpush.trans hload.symm, hload⟩

/-- Settles O36: the append's destination and the pushes' law are the same container. -/
theorem appendingEqualsPushing : Obligations.AppendingEqualsPushing := by
  intro s c src hc hsrc hne hcap
  rw [runAll_cons_legal (.bcAppend c src) (wellFormed_bcAppend hc hsrc hne), runAll_push_container s c _ hc hcap]
  exact (appendContainer_containers hne hcap).1

end Sys2Proof.Machine
end

section
/-! PROOFS. The tree builder (R140 to R145): counts have one greedy arena, which BuildTree answers; what the two builds
leave; and the shape facts and code lengths that follow from the greedy merge. -/

namespace Sys2Proof.Machine

/-! ### Counts have one greedy arena (R140) -/

section Unique
variable {f : Counts} {t t' : List Node} {k : Nat}

theorem nodeOf_eq_getElem {i : Nat} (h : i < t.length) : nodeOf t i = t[i] := by
  rw [nodeOf, List.getD, List.getElem?_eq_getElem h, Option.getD_some]

/-- The leaves of the list stand in strictly ascending symbol order. -/
def SymbolsRise (l : List Node) : Prop :=
  l.Pairwise fun a b => ∀ sa na sb nb, a = .leaf sa na → b = .leaf sb nb → sa.toNat < sb.toNat

theorem SymbolsRise.nodup {l : List Node} (h : SymbolsRise l) (hleaf : ∀ n ∈ l, ∃ sym c, n = .leaf sym c) :
    l.Nodup := by
  refine h.imp_of_mem fun {a b} ha _ hlt hab => ?_
  obtain ⟨sym, c, rfl⟩ := hleaf a ha
  exact lt_irrefl _ (hlt _ _ _ _ rfl hab.symm)

/-- Leaves in ascending symbol order are determined by which leaves they are. -/
theorem SymbolsRise.eq_of_mem {l l' : List Node} (h : SymbolsRise l) (h' : SymbolsRise l')
    (hleaf : ∀ n ∈ l, ∃ sym c, n = .leaf sym c) (hmem : ∀ n, n ∈ l ↔ n ∈ l') : l = l' := by
  have hleaf' (n : Node) (hn : n ∈ l') := hleaf n ((hmem n).2 hn)
  have hperm : l.Perm l' := (List.perm_ext_iff_of_nodup (h.nodup hleaf) (h'.nodup hleaf')).2 hmem
  refine hperm.eq_of_pairwise (fun a b ha hb hab hba => ?_) h h'
  obtain ⟨sa, na, rfl⟩ := hleaf a ha
  obtain ⟨sb, nb, rfl⟩ := hleaf' b hb
  exact absurd (hab _ _ _ _ rfl rfl) (hba _ _ _ _ rfl rfl).not_gt

/-- The first nodes of a greedy arena are BuildTree's leaves: both lists hold the symbols with a count, in ascending
order. -/
theorem GreedyArena.take_eq_leavesOf (h : GreedyArena f t k) : t.take k = leavesOf f := by
  have hk : k ≤ t.length := by have := h.size; omega
  have hmem (n : Node) : n ∈ t.take k ↔ n ∈ leavesOf f := by
    rw [mem_leavesOf, List.mem_take_iff_getElem]
    constructor
    · rintro ⟨i, hi, rfl⟩
      rw [← nodeOf_eq_getElem]
      exact h.leaves i (by omega)
    · rintro ⟨sym, rfl, hpos⟩
      obtain ⟨i, hi, n, hl⟩ := h.present sym hpos
      refine ⟨i, by omega, ?_⟩
      rw [← nodeOf_eq_getElem, hl, (h.leaf_count hl).1]
  have hrise : SymbolsRise (t.take k) := by
    refine List.pairwise_iff_getElem.2 fun i j hi hj hij sa na sb nb ha hb => ?_
    rw [List.length_take] at hj
    rw [List.getElem_take, ← nodeOf_eq_getElem] at ha hb
    exact h.ascending i j sa sb hij (by omega) ⟨na, ha⟩ ⟨nb, hb⟩
  refine hrise.eq_of_mem (leavesOf_ascending f) (fun n hn => ?_) hmem
  obtain ⟨sym, hl, -⟩ := (mem_leavesOf f n).1 ((hmem n).1 hn)
  exact ⟨sym, _, hl⟩

theorem GreedyArena.leaves_length (h : GreedyArena f t k) : k = (leavesOf f).length := by
  rw [← h.take_eq_leavesOf, List.length_take]
  have := h.size
  omega

/-- The candidates for node `m` depend on the nodes below it alone. -/
theorem isCand_congr {m : Nat} (h : ∀ i, i < m → nodeOf t i = nodeOf t' i) (i : Nat) :
    IsCand t m i ↔ IsCand t' m i :=
  and_congr_right fun _ => forall₂_congr fun j hj => by rw [IsChild, IsChild, h j hj]

/-- `a` and `b` are the two candidates of least key for node `m`, the least first (R140). -/
def LeastPair (t : List Node) (m a b : Nat) : Prop :=
  IsCand t m a ∧ IsCand t m b ∧ (keyOf t a).before (keyOf t b) = true ∧
    ∀ c, IsCand t m c → c ≠ a → c ≠ b → (keyOf t b).before (keyOf t c) = true

theorem Cand.before_asymm {x y : Cand} (h : x.before y = true) : ¬ y.before x = true := by
  rw [Cand.before_iff] at *
  omega

/-- The first of the pair comes before every other candidate. -/
theorem LeastPair.before {m a b c : Nat} (h : LeastPair t m a b) (hc : IsCand t m c) (hca : c ≠ a) :
    (keyOf t a).before (keyOf t c) = true := by
  obtain ⟨-, -, hab, hrest⟩ := h
  by_cases hcb : c = b
  · exact hcb ▸ hab
  · exact Cand.before_trans hab (hrest c hc hca hcb)

theorem LeastPair.ne {m a b : Nat} (h : LeastPair t m a b) : b ≠ a := by
  obtain ⟨-, -, hab, -⟩ := h
  rintro rfl
  exact Cand.before_asymm hab hab

theorem LeastPair.unique {m a b a' b' : Nat} (h : LeastPair t m a b) (h' : LeastPair t m a' b') : a = a' ∧ b = b' := by
  have hne := h.ne
  have hne' := h'.ne
  have hbefore {c} := h.before (c := c)
  have hbefore' {c} := h'.before (c := c)
  obtain ⟨ha, hb, -, hrest⟩ := h
  obtain ⟨ha', hb', -, hrest'⟩ := h'
  obtain rfl : a = a' := by
    by_contra haa
    exact Cand.before_asymm (hbefore ha' (Ne.symm haa)) (hbefore' ha haa)
  refine ⟨rfl, ?_⟩
  by_contra hbb
  exact Cand.before_asymm (hrest b' hb' hne' (Ne.symm hbb)) (hrest' b hb hne hbb)

theorem LeastPair.congr {m a b : Nat} (hlt : ∀ i, i < m → nodeOf t i = nodeOf t' i) (h : LeastPair t m a b) :
    LeastPair t' m a b := by
  have hkey {i : Nat} (hi : i < m) : keyOf t i = keyOf t' i := by rw [keyOf, keyOf, hlt i hi]
  obtain ⟨ha, hb, hab, hrest⟩ := h
  refine ⟨(isCand_congr hlt a).1 ha, (isCand_congr hlt b).1 hb, ?_, fun c hc hca hcb => ?_⟩
  · rw [← hkey ha.1, ← hkey hb.1]
    exact hab
  · rw [← hkey hb.1, ← hkey hc.1]
    exact hrest c ((isCand_congr hlt c).2 hc) hca hcb

/-- Equal counts have equal greedy arenas: node by node, from the leaves on. -/
theorem GreedyArena.unique (h : GreedyArena f t k) {k' : Nat} (h' : GreedyArena f t' k') : t = t' := by
  obtain rfl : k = k' := h.leaves_length.trans h'.leaves_length.symm
  have hlen : t.length = t'.length := h.size.2.trans h'.size.2.symm
  have hnode (m : Nat) : nodeOf t m = nodeOf t' m := by
    induction m using Nat.strong_induction_on with
    | _ m ih =>
      rcases Nat.lt_or_ge m k with hm | hm
      · rw [← nodeOf_take hm, h.take_eq_leavesOf, ← h'.take_eq_leavesOf, nodeOf_take hm]
      rcases Nat.lt_or_ge m (2 * k - 1) with hm' | hm'
      · obtain ⟨a, b, hn, hab⟩ := h.merges m hm hm'
        obtain ⟨a', b', hn', hab'⟩ := h'.merges m hm hm'
        obtain ⟨rfl, rfl⟩ := LeastPair.unique (LeastPair.congr ih hab) hab'
        obtain ⟨⟨ha, -⟩, ⟨hb, -⟩, -⟩ := hab
        rw [hn, hn', ih a ha, ih b hb]
      · rw [nodeOf_ge (h.size.2 ▸ hm'), nodeOf_ge (h'.size.2 ▸ hm')]
  refine List.ext_getElem hlen fun i hi hi' => ?_
  rw [← nodeOf_eq_getElem hi, ← nodeOf_eq_getElem hi', hnode i]

theorem leavesOf_eq_nil_iff : leavesOf f = [] ↔ ∀ sym : Byte, f[sym.toNat]'sym.isLt = 0 := by
  rw [List.eq_nil_iff_forall_not_mem]
  constructor
  · intro h sym
    exact Nat.eq_zero_of_not_pos fun hpos => h _ ((mem_leavesOf f _).2 ⟨sym, rfl, hpos⟩)
  · intro h n hn
    obtain ⟨sym, -, hpos⟩ := (mem_leavesOf f n).1 hn
    exact hpos.ne' (h sym)

theorem buildTree_eq_none_iff : buildTree f = none ↔ ∀ sym : Byte, f[sym.toNat]'sym.isLt = 0 := by
  rw [← leavesOf_eq_nil_iff]
  rcases buildTree_cases f with ⟨hnil, hnone⟩ | ⟨t, c, hsome, -⟩
  · exact iff_of_true hnone hnil
  · have hg := buildTree_greedy hsome
    rw [hsome]
    exact iff_of_false nofun (List.ne_nil_of_length_pos hg.size.1)

theorem exists_buildTree {sym : Byte} (h : 0 < f[sym.toNat]'sym.isLt) : ∃ t, buildTree f = some t :=
  Option.ne_none_iff_exists'.1 fun hnone => h.ne' (buildTree_eq_none_iff.1 hnone sym)

end Unique

/-- Settles O37: BuildTree's arena is greedy, and counts have one greedy arena only. -/
theorem buildTreeIsTheGreedyMerge : Obligations.BuildTreeIsTheGreedyMerge := by
  refine fun f => ⟨fun nodes => ⟨fun h => ⟨_, buildTree_greedy h⟩, ?_⟩, buildTree_eq_none_iff⟩
  rintro ⟨k, hg⟩
  obtain ⟨sym, -, hpos⟩ := hg.leaves 0 hg.size.1
  obtain ⟨t, ht⟩ := exists_buildTree hpos
  rw [ht, (buildTree_greedy ht).unique hg]

end Sys2Proof.Machine
end

section
/-! PROOFS. The two build commands (R141 to R145): what each leaves, branch by branch; what a successful build says
of its counts and its arena; and the laws of the family. -/

namespace Sys2Proof.Machine

/-! ### How a build ends (R141, R142) -/

section Ends
variable {s : State}

theorem buildFromInput_over (h : s.cfg.inCap < s.inCount) : buildFromInput s = s.raise .overflow 0 0 := if_pos h

theorem buildFromInput_empty (h : s.inCount = 0) : buildFromInput s = s.raise .emptyInput 0 0 := by
  rw [buildFromInput, if_neg (by omega), if_pos h]

theorem buildFromInput_within (hpos : 0 < s.inCount) (hcap : s.inCount ≤ s.cfg.inCap) {nodes : List Node}
    (hbuild : buildTree (countBytes s.input) = some nodes) :
    buildFromInput s = (State.commitTree { s.afterInput with freq := countBytes s.input } nodes).complete := by
  rw [buildFromInput, if_neg hcap.not_gt, if_neg hpos.ne', commitBuild, hbuild]

theorem buildFromFreq_some {nodes : List Node} (hbuild : buildTree s.freq = some nodes) :
    buildFromFreq s = (s.commitTree nodes).complete := by
  rw [buildFromFreq, commitBuild, hbuild]

theorem buildFromFreq_none (hbuild : buildTree s.freq = none) : buildFromFreq s = s.raise .emptyInput 0 0 := by
  rw [buildFromFreq, commitBuild, hbuild]

/-- A non-empty input has a byte, so its counts have a tree (R141). -/
theorem exists_buildTree_countBytes (h : 0 < s.inCount) : ∃ nodes, buildTree (countBytes s.input) = some nodes := by
  obtain ⟨v, hv⟩ := List.exists_mem_of_length_pos (s.input_length ▸ h)
  refine exists_buildTree (sym := v) ?_
  rw [countBytes_get]
  exact List.count_pos_iff.2 hv

/-- A build whose effect is to commit a tree completes with it, the table cleared, and changes nothing else but FREQ. -/
theorem exec_commit (i : Instr) (hi : i = .treeBuild ∨ i = .treeBuildFreq) {s1 : State} {f : Counts} {nodes : List Node}
    (hbuild : buildTree f = some nodes) (heffect : effect i s = (s1.commitTree nodes).complete)
    (hindex : s1.errIndex = s.errIndex) (hsymbol : s1.errSymbol = s.errSymbol) :
    ∃ t, exec i s = .next t ∧ CompletedOk s t ∧ t.freq = s1.freq ∧ (∃ k, GreedyArena f t.nodes k) ∧
      t.nodeCount = t.nodes.length ∧ t.root = t.nodeCount - 1 ∧ t.treeValid = true ∧ t.tableValid = false ∧
      (∀ sym, t.code sym = none) ∧
      SameControl s t ∧ SameIn s t ∧ SameOut s t ∧ SameResult s t ∧ SameContainersBut [] s t := by
  have hexec : exec i s = .next (s1.commitTree nodes).complete := by
    rcases hi with rfl | rfl <;> exact (exec_legal rfl).trans (congrArg _ heffect)
  have hframe := exec_writesOnly hexec
  have hbcs := hframe.containers
  have hout := hframe.output fun c => by rcases hi with rfl | rfl <;> nofun
  have hresult := hframe.result fun c => by rcases hi with rfl | rfl <;> nofun
  have hnone : writtenContainers i = [] := by rcases hi with rfl | rfl <;> rfl
  exact ⟨_, hexec, completedOk_complete hindex hsymbol, rfl, ⟨_, buildTree_greedy hbuild⟩, rfl, rfl, rfl, rfl,
    CodeTable.entry_cleared, hframe.control, hframe.input, hout, hresult, hnone ▸ hbcs⟩

end Ends

/-- Settles O38: the three branches of the effect, by IN_LEN. -/
theorem treeBuildCountsAndBuilds : Obligations.TreeBuildCountsAndBuilds := by
  refine fun s => ⟨rfl, fun hpos hcap => ?_, fun hover => ?_, fun hempty => ?_⟩
  · obtain ⟨nodes, hbuild⟩ := exists_buildTree_countBytes hpos
    obtain ⟨t, hexec, hok, hfreq, hgreedy, hrest⟩ :=
      exec_commit .treeBuild (.inl rfl) hbuild (buildFromInput_within hpos hcap hbuild) rfl rfl
    refine ⟨t, hexec, hok, fun sym => ?_, hfreq ▸ hgreedy, hrest⟩
    simp only [State.freqAt, hfreq, countBytes_get]
  · exact exec_raise .treeBuild rfl (buildFromInput_over hover)
  · exact exec_raise .treeBuild rfl (buildFromInput_empty hempty)

/-- Settles O39: the two branches of the commit. -/
theorem treeBuildFreqBuildsFromTheCounters : Obligations.TreeBuildFreqBuildsFromTheCounters := by
  refine fun s => ⟨rfl, ?_, fun hzero => ?_⟩
  · rintro ⟨sym, hpos⟩
    obtain ⟨nodes, hbuild⟩ := exists_buildTree hpos
    obtain ⟨t, hexec, hok, hfreq, hrest⟩ :=
      exec_commit .treeBuildFreq (.inr rfl) hbuild (buildFromFreq_some hbuild) rfl rfl
    exact ⟨t, hexec, hok, fun sym => by rw [State.freqAt, State.freqAt, hfreq], hrest⟩
  · exact exec_raise .treeBuildFreq rfl (buildFromFreq_none (buildTree_eq_none_iff.2 hzero))

/-! ### What a successful build says -/

section Successful
variable {s t t' : State}

theorem freq_eq_of_sameFreq (h : SameFreq s t) : t.freq = s.freq :=
  Vector.ext fun i hi => by simpa [State.freqAt, Nat.mod_eq_of_lt hi] using h (BitVec.ofNat 8 i)

/-- A successful TREE_BUILD has counted the input into FREQ (R141). -/
theorem treeBuild_freq (hx : exec .treeBuild s = .next t) (hok : t.err = .ok) : t.freq = countBytes s.input := by
  rw [exec_legal rfl] at hx
  obtain rfl : buildFromInput s = t := Host.Outcome.next.inj hx
  obtain ⟨nodes, -, e⟩ := buildFromInput_ok hok
  rw [e]
  rfl

theorem treeBuildFreq_freq (hx : exec .treeBuildFreq s = .next t) : t.freq = s.freq :=
  freq_eq_of_sameFreq ((exec_writesOnly hx).freq nofun)

/-- The tree of `t` is BuildTree's for the counts `f`, as a commit leaves it (R140). -/
structure BuiltFrom (f : Counts) (t : State) : Prop where
  build : buildTree f = some t.nodes
  nodeCount : t.nodeCount = t.nodes.length
  root : t.root = t.nodes.length - 1
  treeValid : t.treeValid = true

/-- A successful build by either command leaves the tree of the FREQ it leaves. -/
theorem build_builtFrom {i : Instr} (hi : i = .treeBuild ∨ i = .treeBuildFreq) (hx : exec i s = .next t)
    (hok : t.err = .ok) : BuiltFrom t.freq t := by
  rcases hi with rfl | rfl <;> rw [exec_legal rfl] at hx
  · obtain rfl : buildFromInput s = t := Host.Outcome.next.inj hx
    obtain ⟨nodes, hbuild, e⟩ := buildFromInput_ok hok
    rw [e]
    exact ⟨hbuild, rfl, rfl, rfl⟩
  · obtain rfl : buildFromFreq s = t := Host.Outcome.next.inj hx
    obtain ⟨nodes, hbuild, e⟩ := commitBuild_ok hok
    rw [show buildFromFreq s = _ from e]
    exact ⟨hbuild, rfl, rfl, rfl⟩

/-- The tree is a function of the counts (R143). -/
theorem BuiltFrom.sameTree {f : Counts} (h : BuiltFrom f t) (h' : BuiltFrom f t') : SameTree t t' := by
  have hnodes : t'.nodes = t.nodes := Option.some.inj (h'.build.symm.trans h.build)
  refine ⟨hnodes, ?_, ?_, h'.treeValid.trans h.treeValid.symm⟩
  · rw [h'.nodeCount, hnodes, h.nodeCount]
  · rw [h'.root, hnodes, h.root]

theorem BuiltFrom.congr {f : Counts} (h : BuiltFrom f s) (hst : SameTree s t) : BuiltFrom f t := by
  obtain ⟨hnodes, hcount, hroot, hvalid⟩ := hst
  exact ⟨hnodes ▸ h.build, hcount.trans (hnodes ▸ h.nodeCount), hroot.trans (hnodes ▸ h.root), hvalid.trans h.treeValid⟩

/-- The greedy arena of a committed tree, with ROOT and NODE_COUNT by the number of leaves. -/
theorem BuiltFrom.greedy {f : Counts} (h : BuiltFrom f t) : ∃ k,
    GreedyArena f t.nodes k ∧ t.nodeCount = 2 * k - 1 ∧ t.root = 2 * k - 2 := by
  have hg := buildTree_greedy h.build
  obtain ⟨-, hlen⟩ := hg.size
  exact ⟨_, hg, h.nodeCount.trans hlen, by rw [h.root, hlen]; omega⟩

theorem BuiltFrom.node_eq {f : Counts} (h : BuiltFrom f t) (i : Nat) : t.node i = nodeOf t.nodes i :=
  State.node_eq_nodeOf (buildTree_length_le h.build) i

/-- The counts of an input depend on the multiset of its bytes alone (R143). -/
theorem countBytes_perm {vs vs' : List Byte} (h : vs.Perm vs') : countBytes vs = countBytes vs' :=
  Vector.ext fun i hi => by
    simpa [Nat.mod_eq_of_lt hi] using (countBytes_get vs (BitVec.ofNat 8 i)).trans
      ((h.count_eq _).trans (countBytes_get vs' (BitVec.ofNat 8 i)).symm)

/-- A successful TABLE_DERIVE leaves the table of the tree (R161). -/
theorem tableDerive_codes (hx : exec .tableDerive s = .next t) (hok : t.err = .ok) :
    t.codes = deriveCodes s.nodes s.root ∧ t.tableValid = true := by
  rw [exec_legal rfl] at hx
  obtain rfl : deriveTable s = t := Host.Outcome.next.inj hx
  unfold deriveTable at hok ⊢
  split at hok
  · rw [if_pos ‹_›]
    exact ⟨rfl, rfl⟩
  · cases hok

end Successful

/-- Settles O40: each clause's two executions have the same counts, or the same tree, to compute from. -/
theorem buildingIsDeterministic : Obligations.BuildingIsDeterministic := by
  refine ⟨fun s s' t t' hperm hx hx' hok hok' => ?_, fun s s' t t' hsame hx hx' hok hok' => ?_,
    fun s s' t t' htree hx hx' hok hok' => ?_, fun s t u hx hok hx' => ?_⟩
  · have hfreq : t'.freq = t.freq := by
      rw [treeBuild_freq hx hok, treeBuild_freq hx' hok', countBytes_perm hperm]
    refine ⟨(build_builtFrom (.inl rfl) hx hok).sameTree (hfreq ▸ build_builtFrom (.inl rfl) hx' hok'), fun sym => ?_⟩
    rw [State.freqAt, State.freqAt, hfreq]
  · have hfreq : t'.freq = t.freq := by
      rw [treeBuildFreq_freq hx', treeBuildFreq_freq hx, freq_eq_of_sameFreq hsame]
    exact (build_builtFrom (.inr rfl) hx hok).sameTree (hfreq ▸ build_builtFrom (.inr rfl) hx' hok')
  · obtain ⟨hnodes, -, hroot, -⟩ := htree
    obtain ⟨hcodes, hvalid⟩ := tableDerive_codes hx hok
    obtain ⟨hcodes', hvalid'⟩ := tableDerive_codes hx' hok'
    refine ⟨fun sym => ?_, hvalid'.trans hvalid.symm⟩
    rw [State.code, State.code, hcodes, hcodes', hnodes, hroot]
  · have hbuilt := build_builtFrom (.inl rfl) hx hok
    have huok : u.err = .ok := by
      rw [exec_legal rfl] at hx'
      obtain rfl : buildFromFreq t = u := Host.Outcome.next.inj hx'
      rw [buildFromFreq_some hbuilt.build]
      rfl
    exact ⟨huok, hbuilt.sameTree (treeBuildFreq_freq hx' ▸ build_builtFrom (.inr rfl) hx' huok)⟩

/-! ### The shape of a built tree (R145) -/

section Shape
variable {f : Counts} {t : List Node} {k : Nat}

/-- A path to a leaf of a tree with two leaves or more has a bit for each internal node on it, one at least. -/
theorem GreedyArena.leaf_path_length (h : GreedyArena f t k) (hk : 2 ≤ k) {i : Nat} {sym : Byte}
    (hl : IsLeafOf t i sym) {p : Bits} (hp : PathTo t (2 * k - 2) p i) : 1 ≤ p.length ∧ p.length ≤ k - 1 := by
  obtain ⟨n, hn⟩ := hl
  have hi := h.leaf_lt hn
  have hne : p ≠ [] := by
    rintro rfl
    have hroot : 2 * k - 2 = i := hp
    omega
  have hle := (h.path_le hp).2 hne
  have hpos := List.length_pos_iff.2 hne
  omega

end Shape

/-- Settles O42: the arena is the greedy one of FREQ. -/
theorem builtTreesHaveTheShapeFacts : Obligations.BuiltTreesHaveTheShapeFacts := by
  intro s t hx hok
  have hbuilt : BuiltFrom t.freq t := by
    rcases hx with hx | hx
    · exact build_builtFrom (.inl rfl) hx hok
    · exact build_builtFrom (.inr rfl) hx hok
  obtain ⟨k, hg, hcount, hroot⟩ := hbuilt.greedy
  simp only [hbuilt.node_eq, hroot]
  refine ⟨k, hcount, fun i n a b hi => ?_, fun i n a b hi => ?_, fun i j hi hij hj => hg.mono hi hij (hcount ▸ hj),
    fun hk i sym hl => ⟨?_, fun p => hg.leaf_path_length hk hl⟩⟩
  · obtain ⟨-, -, hkey⟩ := hg.children_ne hi
    exact (Cand.before_iff _ _).1 hkey
  · have ha := hg.child_lt ⟨n, a, b, hi, .inl rfl⟩
    have hb := hg.child_lt ⟨n, a, b, hi, .inr rfl⟩
    exact ⟨ha.2, hb.2⟩
  · obtain ⟨n, hn⟩ := hl
    have hi := hg.leaf_lt hn
    exact hg.path_exists (by omega)

end Sys2Proof.Machine
end

section
/-! PROOFS. The code table as the paths of the tree in the arena, the lengths of its codes (R165), and the round trip
through TREE_BUILD, TABLE_DERIVE, ENCODE and DECODE (R182). -/

namespace Sys2Proof.Machine

/-! ### The table of the tree in the arena (R40, R160) -/

/-- The code table holds the path to each leaf of the arena, and nothing else. -/
def TableIsPaths (s : State) : Prop :=
  ∀ sym p, s.code sym = some p ↔ ∃ i, PathTo s.nodes s.root p i ∧ IsLeafOf s.nodes i sym

section Table
variable {f : Counts} {s t : State}

theorem BuiltFrom.tableIsPaths (h : BuiltFrom f s) (hcodes : s.codes = deriveCodes s.nodes s.root) :
    TableIsPaths s := by
  intro sym p
  rw [State.code, hcodes, h.root]
  exact deriveCodes_entry h.build sym p

theorem MachineInv.builtFrom (h : MachineInv s) (hv : s.treeValid = true) : ∃ f, BuiltFrom f s := by
  obtain ⟨hcount, hroot, f, -, hbuild⟩ := h.tree hv
  exact ⟨f, hbuild, hcount, hroot, hv⟩

/-- With TABLE_VALID = 1 the state has a built tree and the table of its paths (R43). -/
theorem MachineInv.tableIsPaths (h : MachineInv s) (hv : s.tableValid = true) :
    (∃ f, BuiltFrom f s) ∧ TableIsPaths s := by
  obtain ⟨htree, hcodes⟩ := h.table hv
  obtain ⟨f, hbuilt⟩ := h.builtFrom htree
  exact ⟨⟨f, hbuilt⟩, hbuilt.tableIsPaths hcodes⟩

theorem TableIsPaths.congr (h : TableIsPaths s) (htree : SameTree s t) (htable : SameTable s t) : TableIsPaths t := by
  intro sym p
  obtain ⟨hnodes, -, hroot, -⟩ := htree
  rw [htable.1, hnodes, hroot]
  exact h sym p

theorem State.ctCode_of_code {sym : Byte} {p : Bits} (h : s.code sym = some p) : s.ctCode sym = p := by
  rw [State.ctCode, h, Option.getD_some]

/-- A symbol with a code has a leaf, and its code leads there. -/
theorem TableIsPaths.path_to_leaf (h : TableIsPaths s) {v : Byte} (hv : s.ctValid v = true) :
    ∃ i, PathTo s.nodes s.root (s.ctCode v) i ∧ IsLeafOf s.nodes i v := by
  obtain ⟨p, hp⟩ := Option.isSome_iff_exists.1 hv
  rw [State.ctCode_of_code hp]
  exact (h v p).1 hp

/-- A leaf's symbol has its path from the root as its code. -/
theorem TableIsPaths.ctCode_leaf (h : TableIsPaths s) (hbuilt : BuiltFrom f s) {i n : Nat} {sym : Byte}
    (hl : s.node i = .leaf sym n) : PathTo s.nodes s.root (s.ctCode sym) i := by
  obtain ⟨k, hg, -, hroot⟩ := hbuilt.greedy
  rw [hbuilt.node_eq] at hl
  have hi := hg.leaf_lt hl
  obtain ⟨p, hp⟩ := hg.path_exists (i := i) (by omega)
  rw [← hroot] at hp
  rwa [State.ctCode_of_code ((h sym p).2 ⟨i, hp, n, hl⟩)]

end Table

/-- Settles O48: a node of lesser key lies no higher in a greedy arena. -/
theorem frequentSymbolsHaveShortCodes : Obligations.FrequentSymbolsHaveShortCodes := by
  intro s h hv i1 i2 s1 s2 n1 n2 h1 h2 hlt
  obtain ⟨⟨f, hbuilt⟩, htable⟩ := h.tableIsPaths hv
  have hp1 := htable.ctCode_leaf hbuilt h1
  have hp2 := htable.ctCode_leaf hbuilt h2
  obtain ⟨k, hg, -, hroot⟩ := hbuilt.greedy
  rw [hroot] at hp1 hp2
  rw [hbuilt.node_eq] at h1 h2
  have hkey : (keyOf s.nodes i2).before (keyOf s.nodes i1) = true := by
    rw [Cand.before_iff, keyOf, keyOf, h1, h2]
    exact .inl hlt
  exact hg.depth_anti hp2 hp1 (.inr hkey)

/-! ### The input bytes, where the host has written them (R71) -/

section Input
variable {s t : State}

theorem State.input_getElem?_of_written {i : Nat} (hi : i < s.inCount) (hw : (s.inMem.read i).isSome = true) :
    s.input[i]? = s.inMem.read i := by
  obtain ⟨v, hv⟩ := Option.isSome_iff_exists.1 hw
  obtain ⟨hbytes, -⟩ := inputBytes_spec s.inMem s.draws 0 s.inCount
  rw [State.input, hbytes i hi, Nat.zero_add, hv, Option.getD_some]

/-- Written input bytes are read the same in every state with the same IN and IN_LEN, whatever is drawn there. -/
theorem State.input_congr (hin : SameIn s t) (hlen : t.inLen = s.inLen)
    (hw : ∀ i, i < s.inCount → (s.inMem.read i).isSome = true) : t.input = s.input := by
  have hcount : t.inCount = s.inCount := congrArg BitVec.toNat hlen
  refine List.ext_getElem? fun i => ?_
  by_cases hi : i < s.inCount
  · rw [State.input_getElem?_of_written (hcount ▸ hi) (hin i ▸ hw i hi), State.input_getElem?_of_written hi (hw i hi),
      hin i]
  · rw [List.getElem?_eq_none (by rw [State.input_length]; omega),
      List.getElem?_eq_none (by rw [State.input_length]; omega)]

end Input

/-! ### Encode, then decode (R180, R181) -/

section Coding
variable {s t : State} {c : CIdx}

/-- A successful ENCODE leaves the codes of the input bytes, all of which have one (R180). -/
theorem encode_ok (hx : exec (.encode c) s = .next t) (hok : t.err = .ok) :
    t.bits c = s.input.flatMap s.ctCode ∧ ∀ v ∈ s.input, s.ctValid v = true := by
  rcases exec_cases hx with ⟨-, rfl⟩ | ⟨-, rfl⟩
  · simp only [effect, encodeInput] at hok ⊢
    split at hok
    · split at hok
      · cases hok
      rw [if_pos ‹_›, if_neg ‹_›]
      rcases encodeFrom_cases s.codes s.cfg.bcCap 0 [] s.input (Nat.zero_le _) with
        ⟨hrun, hcodes, -⟩ | ⟨_, _, _, -, -, -, ⟨-, hrun⟩ | ⟨-, -, hrun⟩⟩ <;> rw [hrun] at hok ⊢
      · exact ⟨State.bits_setContainer_same .., hcodes⟩
      · cases hok
      · cases hok
    · cases hok
  · cases hok

theorem decodeContainer_ok {bytes : List Byte} (hv : s.treeValid = true) (hb : decodeBits s (s.bits c) = .ok bytes) :
    decodeContainer c s = (s.emit bytes).complete := by
  rw [decodeContainer, if_pos hv, hb]

variable {f : Counts} {vs : List Byte}

/-- In a tree of one leaf every code is empty, and DEC_COUNT says how many symbols there are. -/
theorem decodeBits_codes_single (hbuilt : BuiltFrom f s) (htable : TableIsPaths s) (hone : s.nodeCount = 1)
    (hv : ∀ v ∈ vs, s.ctValid v = true) (hcap : vs.length ≤ s.cfg.outCap) (hdec : s.decCount.toNat = vs.length) :
    decodeBits s (vs.flatMap s.ctCode) = .ok vs := by
  obtain ⟨k, hg, hcount, hroot⟩ := hbuilt.greedy
  have hcode : ∀ v ∈ vs, s.ctCode v = [] ∧ v = symbolOf s.nodes s.root := by
    intro v hmem
    obtain ⟨i, hp, n, hl⟩ := htable.path_to_leaf (hv v hmem)
    have hnil : s.ctCode v = [] := by
      by_contra hne
      have := (hg.path_le hp).2 hne
      omega
    rw [hnil] at hp
    obtain rfl : s.root = i := hp
    rw [symbolOf, hl]
    exact ⟨hnil, rfl⟩
  have hbits : vs.flatMap s.ctCode = [] := List.flatMap_eq_nil_iff.2 fun v hmem => (hcode v hmem).1
  have hall : vs = List.replicate vs.length (symbolOf s.nodes s.root) :=
    List.eq_replicate_of_mem fun v hmem => (hcode v hmem).2
  rw [decodeBits, if_pos hone, hbits, decodeSingle, if_neg (not_not_intro rfl), if_neg (by omega), hdec, ← hall]

/-- In a tree of two leaves or more every code is a path of one bit at least, and the walk gives its symbol back. -/
theorem decodeBits_codes_walk (hbuilt : BuiltFrom f s) (htable : TableIsPaths s) (hmany : s.nodeCount ≠ 1)
    (hv : ∀ v ∈ vs, s.ctValid v = true) (hcap : vs.length ≤ s.cfg.outCap) :
    decodeBits s (vs.flatMap s.ctCode) = .ok vs := by
  obtain ⟨k, harena, hcount, hroot⟩ := hbuilt.greedy
  obtain ⟨hpos, -⟩ := harena.size
  have hsegs : ∀ g ∈ vs.map fun v => (s.ctCode v, v),
      g.1 ≠ [] ∧ ∃ i, PathTo s.nodes s.root g.1 i ∧ IsLeafOf s.nodes i g.2 := by
    rintro _ hg
    obtain ⟨v, hmem, rfl⟩ := List.mem_map.1 hg
    obtain ⟨i, hp, hl⟩ := htable.path_to_leaf (hv v hmem)
    have hlen := harena.leaf_path_length (by omega) hl (hroot ▸ hp)
    exact ⟨List.ne_nil_of_length_pos hlen.1, i, hp, hl⟩
  have hwalk := decodeFrom_leafPaths (cap := s.cfg.outCap) (i := 0) (m := 0) (rest := []) _ hsegs
    (by rw [List.length_map]; omega)
  rw [decodeBits, if_neg hmany]
  simpa [List.flatMap_map, Function.comp_def, decodeFrom, Except.map] using hwalk

/-- DECODE undoes a sequence of codes (R182). -/
theorem decodeBits_codes (hbuilt : BuiltFrom f s) (htable : TableIsPaths s) (hv : ∀ v ∈ vs, s.ctValid v = true)
    (hcap : vs.length ≤ s.cfg.outCap) (hdec : s.nodeCount = 1 → s.decCount.toNat = vs.length) :
    decodeBits s (vs.flatMap s.ctCode) = .ok vs := by
  by_cases hone : s.nodeCount = 1
  · exact decodeBits_codes_single hbuilt htable hone hv hcap (hdec hone)
  · exact decodeBits_codes_walk hbuilt htable hone hv hcap

/-- ENCODE, then DECODE of the same container, gives the input bytes back (R182). -/
theorem exec_decode_after_encode (hbuilt : BuiltFrom f s) (htable : TableIsPaths s)
    (hc : containerExists s.cfg c = true) (hx : exec (.encode c) s = .next t) (hok : t.err = .ok) (hcap : s.inCount ≤ s.cfg.outCap)
    (hdec : s.nodeCount = 1 → s.decCount.toNat = s.inCount) :
    exec (.decode c) t = .next (t.emit s.input).complete := by
  obtain ⟨hbits, hvalid⟩ := encode_ok hx hok
  have hframe := exec_writesOnly hx
  have htree := hframe.tree nofun nofun
  have htable' := hframe.table nofun nofun nofun
  obtain ⟨hcfg, -, -, -, -, hcount, -⟩ := hframe.control
  have hctCode : t.ctCode = s.ctCode := funext fun v => by rw [State.ctCode, State.ctCode, htable'.1]
  have hbuilt' := hbuilt.congr htree
  have hdecode : decodeBits t (t.bits c) = .ok s.input := by
    rw [hbits, ← hctCode]
    refine decodeBits_codes hbuilt' (htable.congr htree htable') (fun v hv => ?_) ?_ fun hone => ?_
    · rw [State.ctValid, htable'.1]
      exact hvalid v hv
    · rw [hcfg, State.input_length]
      exact hcap
    · obtain ⟨-, hnodeCount, -⟩ := htree
      rw [hcount, State.input_length]
      exact hdec (hnodeCount ▸ hone)
  have hlegal : (Instr.decode c).wellFormed t.cfg = true := by
    rw [hcfg]
    exact hc
  rw [exec_legal hlegal, effect, decodeContainer_ok hbuilt'.treeValid hdecode]

end Coding

/-! ### The round trip (R182) -/

section RoundTrip
variable {s t u : State}

theorem treeBuild_succeeds (hpos : 0 < s.inCount) (hcap : s.inCount ≤ s.cfg.inCap) (hx : exec .treeBuild s = .next t) :
    t.err = .ok := by
  obtain ⟨nodes, hbuild⟩ := exists_buildTree_countBytes hpos
  rw [exec_legal rfl, effect, buildFromInput_within hpos hcap hbuild] at hx
  obtain rfl := Host.Outcome.next.inj hx
  rfl

theorem tableDerive_succeeds (hv : s.treeValid = true) (hx : exec .tableDerive s = .next t) : t.err = .ok := by
  rw [exec_legal rfl, effect, deriveTable, if_pos hv] at hx
  obtain rfl := Host.Outcome.next.inj hx
  rfl

/-- TABLE_DERIVE keeps the tree and leaves its paths as the table (R161). -/
theorem BuiltFrom.tableDerive {f : Counts} (h : BuiltFrom f s) (hx : exec .tableDerive s = .next t) :
    BuiltFrom f t ∧ TableIsPaths t := by
  have htree := (exec_writesOnly hx).tree nofun nofun
  have hbuilt := h.congr htree
  obtain ⟨hcodes, -⟩ := tableDerive_codes hx (tableDerive_succeeds h.treeValid hx)
  obtain ⟨hnodes, -, hroot, -⟩ := htree
  exact ⟨hbuilt, hbuilt.tableIsPaths (by rw [hcodes, hnodes, hroot])⟩

end RoundTrip

/-- Settles O51: TREE_BUILD and TABLE_DERIVE leave a table of the tree's paths, and with it DECODE undoes ENCODE; the
input bytes are written ones, so ENCODE reads what TREE_BUILD counted. -/
theorem roundTrip : Obligations.RoundTrip := by
  intro s s1 s2 s3 s4 c _ hc hpos hin hout hwritten hx1 hx2 hx3 hok3 hdec hx4
  have hbuilt1 := build_builtFrom (.inl rfl) hx1 (treeBuild_succeeds hpos hin hx1)
  obtain ⟨hbuilt2, htable2⟩ := hbuilt1.tableDerive hx2
  have hframe1 := exec_writesOnly hx1
  have hframe2 := exec_writesOnly hx2
  obtain ⟨hcfg1, -, -, -, hlen1, hdec1, -⟩ := hframe1.control
  obtain ⟨hcfg2, -, -, -, hlen2, hdec2, -⟩ := hframe2.control
  have hcfg : s2.cfg = s.cfg := hcfg2.trans hcfg1
  have hlen : s2.inLen = s.inLen := hlen2.trans hlen1
  have hcount : s2.inCount = s.inCount := congrArg BitVec.toNat hlen
  have hinput : s2.input = s.input :=
    State.input_congr (fun i => (hframe2.input i).trans (hframe1.input i)) hlen hwritten
  obtain ⟨-, hnodes, -⟩ := hframe2.tree nofun nofun
  have hdecode := exec_decode_after_encode hbuilt2 htable2 (hcfg ▸ hc) hx3 hok3 (hcfg ▸ hcount ▸ hout)
    fun hone => by rw [hdec2, hdec1, hcount, hdec (hnodes ▸ hone)]
  obtain rfl := Host.Outcome.next.inj (hdecode.symm.trans hx4)
  refine ⟨rfl, ?_, fun i hi => ?_⟩
  · simp only [State.complete_outLen, State.emit_outLen, State.input_length, hcount]
    exact word_toNat s.inLen.isLt
  · simp only [State.complete_outMem, State.emit_outMem, Memory.read_writeBytes_nil, hinput]
    exact State.input_getElem?_of_written hi (hwritten i hi)

end Sys2Proof.Machine
end

section
/-! PROOFS. The code table commands (R160 to R162) and the laws of their family: the codes are the tree's paths, none
a beginning of another (R40, R163), and with two leaves or more they are complete (R164). -/

namespace Sys2Proof.Machine

/-! ### How the two commands end (R161, R162) -/

section Ends
variable {s : State} {c : CIdx} {sym : Byte}

theorem deriveTable_tree (h : s.treeValid = true) :
    deriveTable s = { s with codes := deriveCodes s.nodes s.root, tableValid := true }.complete := if_pos h

theorem deriveTable_noTree (h : s.treeValid = false) : deriveTable s = s.raise .noTree 0 0 :=
  if_neg (Bool.not_eq_true _ ▸ h)

theorem lookupCode_found {p : Bits} (h : s.tableValid = true) (hp : s.code sym = some p) :
    lookupCode c sym s = (s.replaceBits c p).complete := by
  rw [lookupCode, if_pos h, hp]

theorem lookupCode_missing (h : s.tableValid = true) (hp : s.code sym = none) :
    lookupCode c sym s = s.raise .symbolNotFound 0 sym := by
  rw [lookupCode, if_pos h, hp]

theorem lookupCode_noTable (h : s.tableValid = false) : lookupCode c sym s = s.raise .noTable 0 0 :=
  if_neg (Bool.not_eq_true _ ▸ h)

end Ends

/-- Settles O44: with a tree the effect stores the derived table, whose entries are the paths; without one it raises. -/
theorem deriveRecordsEveryPath : Obligations.DeriveRecordsEveryPath := by
  refine fun s h => ⟨rfl, fun hv => ?_, fun hv => exec_raise .tableDerive rfl (deriveTable_noTree hv)⟩
  obtain ⟨f, hbuilt⟩ := h.builtFrom hv
  have hexec := (exec_legal (i := .tableDerive) rfl).trans (congrArg Host.Outcome.next (deriveTable_tree hv))
  obtain ⟨hcontrol, hin, hout, hresult, htree, hfreq, -, hbcs⟩ := exec_writesOnly hexec
  obtain ⟨-, hpaths⟩ := hbuilt.tableDerive hexec
  exact ⟨_, hexec, completedOk_complete rfl rfl, rfl, hpaths, hcontrol, hin, hout nofun, hresult nofun, hfreq nofun,
    htree nofun nofun, hbcs⟩

/-- Settles O45: the three branches of the effect. -/
theorem lookupCopiesTheCode : Obligations.LookupCopiesTheCode := by
  refine fun s c sym hc => ⟨?_, fun p hv hp => ?_, fun hv hp => ?_, fun hv => ?_⟩
  · exact (packWord_toNat 0x21 sym (fieldOf c) 0).trans (by rw [fieldOf_toNat]; rfl)
  · exact exec_store (.tableLookup c sym) hc (lookupCode_found hv hp) (.inl rfl) rfl rfl
  · exact exec_raise (.tableLookup c sym) hc (lookupCode_missing hv hp)
  · exact exec_raise (.tableLookup c sym) hc (lookupCode_noTable hv)

/-! ### Paths to leaves (R39, R160) -/

section Paths
variable {f : Counts} {t : List Node} {k : Nat}

/-- No path leads on from a leaf. -/
theorem PathTo.nil_of_leaf {p : Bits} {i j : Nat} {sym : Byte} (hp : PathTo t i p j) (hl : IsLeafOf t i sym) :
    p = [] ∧ i = j := by
  cases p with
  | nil => exact ⟨rfl, hp⟩
  | cons b p =>
    obtain ⟨n, hn⟩ := hl
    obtain ⟨_, _, _, hi, -⟩ := hp
    cases hn.symm.trans hi

/-- A path to a leaf is a beginning of no other leaf's path. -/
theorem PathTo.leaf_eq_of_prefix {p q : Bits} {r i j : Nat} {sym : Byte} (hp : PathTo t r p i) (hl : IsLeafOf t i sym)
    (hq : PathTo t r q j) (hpq : p <+: q) : i = j := by
  obtain ⟨u, rfl⟩ := hpq
  obtain ⟨m, hm, hu⟩ := pathTo_append.1 hq
  obtain rfl := hm.functional hp
  exact (hu.nil_of_leaf hl).2

theorem IsLeafOf.symbol_unique {i : Nat} {sym sym' : Byte} (h : IsLeafOf t i sym) (h' : IsLeafOf t i sym') :
    sym = sym' := by
  obtain ⟨n, hn⟩ := h
  obtain ⟨n', hn'⟩ := h'
  exact (Node.leaf.inj (hn.symm.trans hn')).1

theorem IsLeafOf.symbolOf_eq {i : Nat} {sym : Byte} (h : IsLeafOf t i sym) : symbolOf t i = sym := by
  obtain ⟨n, hn⟩ := h
  rw [symbolOf, hn]

/-- Every node of the arena is a leaf, or internal with its children below it. -/
theorem GreedyArena.leaf_or_internal (h : GreedyArena f t k) {i : Nat} (hi : i ≤ 2 * k - 2) :
    (∃ sym, IsLeafOf t i sym) ∨ k ≤ i ∧ ∃ n c0 c1, nodeOf t i = .internal n c0 c1 ∧ c0 < i ∧ c1 < i := by
  obtain ⟨hpos, -⟩ := h.size
  rcases Nat.lt_or_ge i k with hk | hk
  · obtain ⟨sym, hl, -⟩ := h.leaves i hk
    exact .inl ⟨sym, _, hl⟩
  · obtain ⟨c0, c1, hn, ⟨h0, -⟩, ⟨h1, -⟩, -⟩ := h.merges i hk (by omega)
    exact .inr ⟨hk, _, c0, c1, hn, h0, h1⟩

/-- Bits followed from a node reach a leaf after some of them, or end on an internal node. -/
theorem GreedyArena.walk_cases (h : GreedyArena f t k) (b : Bits) {i : Nat} (hi : i ≤ 2 * k - 2) :
    (∃ p q j sym, b = p ++ q ∧ PathTo t i p j ∧ IsLeafOf t j sym) ∨ ∃ j, PathTo t i b j ∧ k ≤ j := by
  induction b generalizing i with
  | nil =>
    rcases h.leaf_or_internal hi with ⟨sym, hl⟩ | ⟨hk, -⟩
    · exact .inl ⟨[], [], i, sym, rfl, rfl, hl⟩
    · exact .inr ⟨i, rfl, hk⟩
  | cons b bs ih =>
    rcases h.leaf_or_internal hi with ⟨sym, hl⟩ | ⟨-, n, c0, c1, hn, h0, h1⟩
    · exact .inl ⟨[], b :: bs, i, sym, rfl, rfl, hl⟩
    have hchild : (if b then c1 else c0) ≤ 2 * k - 2 := by split <;> omega
    rcases ih hchild with ⟨p, q, j, sym, rfl, hp, hl⟩ | ⟨j, hp, hj⟩
    · exact .inl ⟨b :: p, q, j, sym, rfl, ⟨n, c0, c1, hn, hp⟩, hl⟩
    · exact .inr ⟨j, ⟨n, c0, c1, hn, hp⟩, hj⟩

/-- Below every node lies a leaf: more bits than there are nodes cannot all be followed. -/
theorem GreedyArena.exists_leaf_path (h : GreedyArena f t k) {i : Nat} (hi : i ≤ 2 * k - 2) :
    ∃ p j sym, PathTo t i p j ∧ IsLeafOf t j sym := by
  rcases h.walk_cases (List.replicate (i + 2) false) hi with ⟨p, _, j, sym, -, hp, hl⟩ | ⟨j, hp, -⟩
  · exact ⟨p, j, sym, hp, hl⟩
  · have hlen := ((h.path_le hp).2 (List.cons_ne_nil _ _)).2
    rw [List.length_replicate] at hlen
    omega

/-- A sum over the symbols that counts only those with a leaf is a sum over the leaves. -/
theorem GreedyArena.symbolSum_eq (h : GreedyArena f t k) {g : Byte → Nat}
    (hg : ∀ sym, (∀ i, ¬ IsLeafOf t i sym) → g sym = 0) :
    symbolSum g = ∑ i ∈ Finset.range k, g (symbolOf t i) := by
  have hleaf {i : Nat} (hi : i ∈ Finset.range k) : IsLeafOf t i (symbolOf t i) := by
    obtain ⟨sym, hl, -⟩ := h.leaves i (Finset.mem_range.1 hi)
    rw [IsLeafOf.symbolOf_eq ⟨_, hl⟩]
    exact ⟨_, hl⟩
  -- Each leaf's symbol is one of the 256 summands, no two leaves have the same, and every other summand is 0.
  rw [symbolSum, ← List.ofFn_eq_map, List.sum_ofFn]
  refine (Finset.sum_of_injOn (fun i => (symbolOf t i).toFin) ?_ (fun _ _ => Finset.mem_coe.2 (Finset.mem_univ _))
    ?_ ?_).symm
  · intro i hi j hj hij
    have hsym : symbolOf t i = symbolOf t j := BitVec.eq_of_toFin_eq hij
    exact h.leaf_unique (hleaf hi) (hsym ▸ hleaf hj)
  · rintro v - hv
    refine hg _ fun i hl => hv ?_
    obtain ⟨n, hn⟩ := hl
    refine ⟨i, Finset.mem_coe.2 (Finset.mem_range.2 (h.leaf_lt hn)), ?_⟩
    simp only [IsLeafOf.symbolOf_eq ⟨n, hn⟩]
    exact Fin.ext (Nat.mod_eq_of_lt v.isLt)
  · intro i _
    simp

end Paths

/-! ### The codes (R163, R164) -/

section Codes
variable {f : Counts} {s : State}

/-- A path to a leaf is the code of the leaf's symbol. -/
theorem TableIsPaths.code_of_path (h : TableIsPaths s) {p : Bits} {i : Nat} {sym : Byte}
    (hp : PathTo s.nodes s.root p i) (hl : IsLeafOf s.nodes i sym) : s.ctValid sym = true ∧ s.ctCode sym = p := by
  have hcode := (h sym p).2 ⟨i, hp, hl⟩
  rw [State.ctValid, hcode]
  exact ⟨rfl, State.ctCode_of_code hcode⟩

theorem TableIsPaths.ctValid_iff (h : TableIsPaths s) (hbuilt : BuiltFrom f s) (sym : Byte) :
    s.ctValid sym = true ↔ ∃ i, IsLeafOf s.nodes i sym := by
  constructor
  · intro hv
    obtain ⟨i, -, hl⟩ := h.path_to_leaf hv
    exact ⟨i, hl⟩
  · rintro ⟨i, n, hl⟩
    have hp := h.ctCode_leaf hbuilt (hbuilt.node_eq i ▸ hl)
    exact (h.code_of_path hp ⟨n, hl⟩).1

/-- No symbol's code is a beginning of another's (R163). -/
theorem TableIsPaths.prefixFree (h : TableIsPaths s) {s1 s2 : Byte} {p1 p2 : Bits} (hne : s1 ≠ s2)
    (h1 : s.code s1 = some p1) (h2 : s.code s2 = some p2) : ¬ p1 <+: p2 := by
  intro hpre
  obtain ⟨i, hp1, hl1⟩ := (h s1 p1).1 h1
  obtain ⟨j, hp2, hl2⟩ := (h s2 p2).1 h2
  obtain rfl := hp1.leaf_eq_of_prefix hl1 hp2 hpre
  exact hne (hl1.symbol_unique hl2)

/-- The lengths of the codes meet Kraft's equation (R164), scaled by 2 ^ 255. -/
theorem TableIsPaths.kraft (h : TableIsPaths s) (hbuilt : BuiltFrom f s) :
    symbolSum (fun sym => if s.ctValid sym then 2 ^ (255 - s.ctLen sym) else 0) = 2 ^ 255 := by
  obtain ⟨k, hg, -, hroot⟩ := hbuilt.greedy
  have hk : k ≤ 256 := hg.leaves_length ▸ leavesOf_length_le f
  rw [hg.symbolSum_eq fun sym hno => if_neg fun hv => not_exists.2 hno ((h.ctValid_iff hbuilt sym).1 hv),
    ← hg.kraft (N := 255) (by omega)]
  refine Finset.sum_congr rfl fun i hi => ?_
  obtain ⟨sym, hl, -⟩ := hg.leaves i (Finset.mem_range.1 hi)
  have hp := h.ctCode_leaf hbuilt (hbuilt.node_eq i ▸ hl)
  obtain ⟨hv, -⟩ := h.code_of_path hp ⟨_, hl⟩
  rw [IsLeafOf.symbolOf_eq ⟨_, hl⟩, if_pos hv, State.ctLen, hg.depthOf_eq (hroot ▸ hp)]

/-- With two leaves or more every bit sequence is codes one after the other and a proper beginning of a code (R164). -/
theorem TableIsPaths.parse (h : TableIsPaths s) (hbuilt : BuiltFrom f s) (hmany : s.nodeCount ≠ 1) (b : Bits) :
    ∃ (syms : List Byte) (r : Bits), b = syms.flatMap s.ctCode ++ r ∧ (∀ v ∈ syms, s.ctValid v = true) ∧
      ∃ v, s.ctValid v = true ∧ r <+: s.ctCode v ∧ r ≠ s.ctCode v := by
  obtain ⟨k, hg, hcount, hroot⟩ := hbuilt.greedy
  obtain ⟨hpos, -⟩ := hg.size
  induction hlen : b.length using Nat.strong_induction_on generalizing b with
  | _ n ih =>
    subst hlen
    rcases hg.walk_cases b hroot.le with ⟨p, q, j, sym, rfl, hp, hl⟩ | ⟨j, hp, hj⟩
    · obtain ⟨hv, hcode⟩ := h.code_of_path hp hl
      have hp1 : 1 ≤ p.length := (hg.leaf_path_length (by omega) hl (hroot ▸ hp)).1
      obtain ⟨syms, r, rfl, hsyms, hr⟩ := ih q.length (by rw [List.length_append]; omega) q rfl
      exact ⟨sym :: syms, r, by rw [List.flatMap_cons, hcode, List.append_assoc],
        List.forall_mem_cons.2 ⟨hv, hsyms⟩, hr⟩
    · obtain ⟨q, i, v, hq, hl⟩ := hg.exists_leaf_path ((hg.path_le hp).1.trans hroot.le)
      obtain ⟨hv, hcode⟩ := h.code_of_path (pathTo_append.2 ⟨j, hp, hq⟩) hl
      have hne : q ≠ [] := by
        rintro rfl
        obtain rfl : j = i := hq
        obtain ⟨n, hn⟩ := hl
        exact hj.not_gt (hg.leaf_lt hn)
      refine ⟨[], b, rfl, nofun, v, hv, hcode ▸ List.prefix_append b q, fun heq => hne ?_⟩
      exact List.self_eq_append_right.1 (heq.trans hcode)

end Codes

/-- Settles O46: the table is the tree's paths, and no path leads on from a leaf. -/
theorem codesArePathsAndPrefixFree : Obligations.CodesArePathsAndPrefixFree := by
  intro s h hv
  obtain ⟨⟨f, hbuilt⟩, htable⟩ := h.tableIsPaths hv
  exact ⟨htable.ctValid_iff hbuilt, htable, fun _ _ _ _ => htable.prefixFree⟩

/-- Settles O47: Kraft's equation of the greedy arena, and the walk from the root restarted at each leaf. -/
theorem codeIsComplete : Obligations.CodeIsComplete := by
  intro s h hv hmany
  obtain ⟨⟨f, hbuilt⟩, htable⟩ := h.tableIsPaths hv
  exact ⟨htable.kraft hbuilt, htable.parse hbuilt hmany⟩

end Sys2Proof.Machine
end

section
/-! PROOFS. The coder (R180, R181): how ENCODE and DECODE end, branch by branch, and the laws of the family for an
encoding without its last bit (R183) and for an encoding's length (R184). -/

namespace Sys2Proof.Machine

/-! ### How ENCODE ends (R180) -/

section Encode
variable {s : State} {c : CIdx}

theorem encodeInput_noTable (h : s.tableValid = false) : encodeInput c s = s.raise .noTable 0 0 :=
  if_neg (Bool.not_eq_true _ ▸ h)

theorem encodeInput_over (hv : s.tableValid = true) (h : s.cfg.inCap < s.inCount) :
    encodeInput c s = s.raise .overflow 0 0 := by
  rw [encodeInput, if_pos hv, if_pos h]

theorem encodeInput_ok (hv : s.tableValid = true) (hin : s.inCount ≤ s.cfg.inCap) {bits : Bits}
    (hrun : encodeFrom s.codes s.cfg.bcCap 0 [] s.input = .ok bits) :
    encodeInput c s = (s.afterInput.replaceBits c bits).complete := by
  rw [encodeInput, if_pos hv, if_neg hin.not_gt, hrun]

theorem encodeInput_error (hv : s.tableValid = true) (hin : s.inCount ≤ s.cfg.inCap) {e : Raised}
    (hrun : encodeFrom s.codes s.cfg.bcCap 0 [] s.input = .error e) :
    encodeInput c s = s.afterInput.raise e.code e.index e.symbol := by
  rw [encodeInput, if_pos hv, if_neg hin.not_gt, hrun]

theorem State.length_flatMap_ctCode (s : State) (vs : List Byte) :
    (vs.flatMap s.ctCode).length = (vs.map s.ctLen).sum :=
  List.length_flatMap

/-- The loop over the state's own table: bytes that have codes within the capacity add them and are passed. -/
theorem State.encodeFrom_codes {vs rest : List Byte} (hcodes : ∀ v ∈ vs, s.ctValid v = true)
    (hfit : (vs.map s.ctLen).sum ≤ s.cfg.bcCap) :
    encodeFrom s.codes s.cfg.bcCap 0 [] (vs ++ rest) =
      encodeFrom s.codes s.cfg.bcCap vs.length (vs.flatMap s.ctCode) rest := by
  have hpassed := encodeFrom_append s.codes s.cfg.bcCap 0 [] vs rest hcodes ((Nat.zero_add _).trans_le hfit)
  rwa [Nat.zero_add] at hpassed

theorem State.encodeFrom_input_ok (hcodes : ∀ v ∈ s.input, s.ctValid v = true)
    (hfit : (s.input.map s.ctLen).sum ≤ s.cfg.bcCap) :
    encodeFrom s.codes s.cfg.bcCap 0 [] s.input = .ok (s.input.flatMap s.ctCode) := by
  have hrun := s.encodeFrom_codes (rest := []) hcodes hfit
  rwa [List.append_nil] at hrun

/-- The loop reaches byte `i` when every byte before it has a code and their codes fit. -/
theorem State.encodeFrom_input_at {i : Nat} {v : Byte} (hget : s.input[i]? = some v)
    (hcodes : ∀ u ∈ s.input.take i, s.ctValid u = true) (hfit : ((s.input.take i).map s.ctLen).sum ≤ s.cfg.bcCap) :
    encodeFrom s.codes s.cfg.bcCap 0 [] s.input =
      encodeFrom s.codes s.cfg.bcCap i ((s.input.take i).flatMap s.ctCode) (v :: s.input.drop (i + 1)) := by
  obtain ⟨hi, hv⟩ := List.getElem?_eq_some_iff.1 hget
  have hsplit : s.input = s.input.take i ++ v :: s.input.drop (i + 1) := by
    rw [← hv, ← List.drop_eq_getElem_cons hi, List.take_append_drop]
  have hrun := s.encodeFrom_codes (rest := v :: s.input.drop (i + 1)) hcodes hfit
  rwa [← hsplit, List.length_take_of_le hi.le] at hrun

/-- Byte `i` has no code: the loop reports it before it looks at the capacity. -/
theorem encodeFrom_missing {t : CodeTable} {cap i : Nat} {acc : Bits} {v : Byte} {vs : List Byte}
    (h : t.entry v = none) :
    encodeFrom t cap i acc (v :: vs) = .error { code := .symbolNotFound, index := i, symbol := v } := by
  rw [encodeFrom, h]

theorem encodeFrom_overflow {t : CodeTable} {cap i : Nat} {acc : Bits} {v : Byte} {vs : List Byte}
    (h : (t.entry v).isSome = true) (hover : cap < acc.length + (codeIn t v).length) :
    encodeFrom t cap i acc (v :: vs) = .error { code := .overflow, index := i, symbol := 0 } := by
  obtain ⟨code, hcode⟩ := Option.isSome_iff_exists.1 h
  rw [codeIn, hcode, Option.getD_some] at hover
  rw [encodeFrom, hcode]
  exact if_pos hover

/-- An ENCODE whose loop fails completes with the failing byte's error; no data state but the draws has moved. -/
theorem exec_encode_error (hc : containerExists s.cfg c = true) (hv : s.tableValid = true)
    (hin : s.inCount ≤ s.cfg.inCap) {e : Raised} (hrun : encodeFrom s.codes s.cfg.bcCap 0 [] s.input = .error e) :
    ∃ t, exec (.encode c) s = .next t ∧ CompletedWith e.code e.index e.symbol t ∧ SameData s t :=
  ⟨_, (exec_legal (i := .encode c) hc).trans (congrArg _ (encodeInput_error hv hin hrun)), completedWith_raise ..,
    sameData_raise s.afterInput ..⟩

end Encode

/-- Settles O49: the loop passes the bytes before the first failing one, and that byte decides. -/
theorem encodeConcatenatesTheCodes : Obligations.EncodeConcatenatesTheCodes := by
  refine fun s c hc => ⟨packWord_container_toNat _ c, fun hv hin hcodes hfit => ?_, fun hv => ?_, fun hv hover => ?_,
    fun hv hin i v hget hcodes hfit => ?_⟩
  · exact exec_store (.encode c) hc (encodeInput_ok hv hin (s.encodeFrom_input_ok hcodes hfit)) (.inr rfl) rfl rfl
  · exact exec_raise (.encode c) hc (encodeInput_noTable hv)
  · exact exec_raise (.encode c) hc (encodeInput_over hv hover)
  · have hreach := s.encodeFrom_input_at hget hcodes hfit
    refine ⟨fun hmissing => ?_, fun hvalid hover => ?_⟩
    · have hnone : s.code v = none := Option.isNone_iff_eq_none.1 (Option.isSome_eq_false_iff.1 hmissing)
      exact exec_encode_error hc hv hin (hreach.trans (encodeFrom_missing hnone))
    · rw [← s.length_flatMap_ctCode] at hover
      exact exec_encode_error hc hv hin (hreach.trans (encodeFrom_overflow hvalid hover))

/-! ### How DECODE ends (R181, R215) -/

section Decode
variable {s : State} {c : CIdx}

theorem decodeContainer_noTree (h : s.treeValid = false) :
    decodeContainer c s = s.discardOutput.raise .noTree 0 0 :=
  if_neg (Bool.not_eq_true _ ▸ h)

/-- A DECODE whose effect is to discard OUT and raise an error leaves just that. -/
theorem exec_decode_fails (hc : containerExists s.cfg c = true) {e : ErrCode} {index : Nat}
    (heffect : decodeContainer c s = s.discardOutput.raise e index 0) :
    ∃ t, exec (.decode c) s = .next t ∧ DecodeFails s t e index := by
  have hexec := (exec_legal (i := .decode c) hc).trans (congrArg Host.Outcome.next heffect)
  obtain ⟨hcontrol, hin, -, hresult, htree, hfreq, htable, hbcs⟩ := exec_writesOnly hexec
  exact ⟨_, hexec, completedWith_raise .., rfl, fun _ => rfl, hcontrol, hin, hresult nofun, hfreq nofun,
    htree nofun nofun, htable nofun nofun nofun, hbcs⟩

theorem MachineInv.lt_word_of_le_outCap (h : MachineInv s) {n : Nat} (hn : n ≤ s.cfg.outCap) : n < 2 ^ 32 := by
  obtain ⟨-, -, -, hout⟩ := h.ranges
  omega

theorem exec_decode_error (hc : containerExists s.cfg c = true) (hv : s.treeValid = true) {e : ErrCode} {index : Nat}
    (hb : decodeBits s (s.bits c) = .error { code := e, index := index, symbol := 0 }) :
    ∃ t, exec (.decode c) s = .next t ∧ DecodeFails s t e index :=
  exec_decode_fails hc (by rw [decodeContainer, if_pos hv, hb])

/-- A DECODE of bits that give few enough bytes leaves them in OUT. -/
theorem exec_decode_gives (hc : containerExists s.cfg c = true) (hv : s.treeValid = true) {bytes : List Byte}
    (hb : decodeBits s (s.bits c) = .ok bytes) (hlen : bytes.length < 2 ^ 32) :
    ∃ t, exec (.decode c) s = .next t ∧ DecodeGives s t bytes := by
  have hexec := (exec_legal (i := .decode c) hc).trans (congrArg Host.Outcome.next (decodeContainer_ok hv hb))
  obtain ⟨hcontrol, hin, -, hresult, htree, hfreq, htable, hbcs⟩ := exec_writesOnly hexec
  exact ⟨_, hexec, completedOk_complete rfl rfl, word_toNat hlen, Memory.read_writeBytes_nil bytes, hcontrol, hin,
    hresult nofun, hfreq nofun, htree nofun nofun, htable nofun nofun nofun, hbcs⟩

/-! The single leaf. -/

theorem decodeBits_single_nonempty (hone : s.nodeCount = 1) {b : Bits} (hb : b ≠ []) :
    decodeBits s b = .error { code := .invalidData, index := 0, symbol := 0 } := by
  rw [decodeBits, if_pos hone, decodeSingle, if_pos hb]

theorem decodeBits_single_overflow (hone : s.nodeCount = 1) (hover : s.cfg.outCap < s.decCount.toNat) :
    decodeBits s [] = .error { code := .overflow, index := 0, symbol := 0 } := by
  rw [decodeBits, if_pos hone, decodeSingle, if_neg (not_not_intro rfl), if_pos hover]

theorem decodeBits_single_ok (hone : s.nodeCount = 1) (hcap : s.decCount.toNat ≤ s.cfg.outCap) :
    decodeBits s [] = .ok (List.replicate s.decCount.toNat (symbolOf s.nodes s.root)) := by
  rw [decodeBits, if_pos hone, decodeSingle, if_neg (not_not_intro rfl), if_neg hcap.not_gt]

/-! The walk of a tree of two leaves or more. -/

variable {f : Counts} {segs : List (Bits × Byte)} {r : Bits}

/-- In a tree of two leaves or more no path to a leaf is empty. -/
theorem leafPaths_nonempty (hsegs : LeafPaths s segs) (hbuilt : BuiltFrom f s) (hmany : s.nodeCount ≠ 1) :
    ∀ g ∈ segs, g.1 ≠ [] ∧ ∃ i, PathTo s.nodes s.root g.1 i ∧ IsLeafOf s.nodes i g.2 := by
  intro g hg
  obtain ⟨k, harena, hcount, hroot⟩ := hbuilt.greedy
  obtain ⟨i, hp, hl⟩ := hsegs g hg
  obtain ⟨hpos, -⟩ := harena.size
  have hlen := harena.leaf_path_length (by omega) hl (hroot ▸ hp)
  exact ⟨List.ne_nil_of_length_pos hlen.1, i, hp, hl⟩

/-- The walk gets through leaf paths with room for their symbols, and goes on from the root with the rest. -/
theorem decodeBits_leafPaths (hbuilt : BuiltFrom f s) (hmany : s.nodeCount ≠ 1) (hsegs : LeafPaths s segs)
    (hcap : segs.length ≤ s.cfg.outCap) :
    decodeBits s (segs.flatMap (·.1) ++ r) =
      (decodeFrom s.nodes s.root s.cfg.outCap (segs.flatMap (·.1)).length s.root segs.length r).map
        (segs.map (·.2) ++ ·) := by
  have hwalk := decodeFrom_leafPaths (cap := s.cfg.outCap) (i := 0) (m := 0) (rest := r) segs
    (leafPaths_nonempty hsegs hbuilt hmany) (by omega)
  rw [decodeBits, if_neg hmany, hwalk, Nat.zero_add, Nat.zero_add]

theorem decodeBits_walk_ok (hbuilt : BuiltFrom f s) (hmany : s.nodeCount ≠ 1) (hsegs : LeafPaths s segs)
    (hcap : segs.length ≤ s.cfg.outCap) : decodeBits s (segs.flatMap (·.1)) = .ok (segs.map (·.2)) := by
  have hwalk := decodeBits_leafPaths (r := []) hbuilt hmany hsegs hcap
  rwa [List.append_nil, decodeFrom, if_pos rfl, Except.map, List.append_nil] at hwalk

/-- A non-empty rest that reaches no leaf ends off the root, since no path returns there. -/
theorem decodeBits_walk_invalid (hbuilt : BuiltFrom f s) (hmany : s.nodeCount ≠ 1) (hsegs : LeafPaths s segs)
    (hcap : segs.length ≤ s.cfg.outCap) (hr : r ≠ []) {i : Nat} (hp : PathTo s.nodes s.root r i)
    (hopen : ∀ sym, ¬ IsLeafOf s.nodes i sym) :
    decodeBits s (segs.flatMap (·.1) ++ r) =
      .error { code := .invalidData, index := (segs.flatMap (·.1) ++ r).length, symbol := 0 } := by
  have hoff : i ≠ s.root := by
    rintro rfl
    obtain ⟨k, harena, -, hroot⟩ := hbuilt.greedy
    rw [hroot] at hp
    exact hr (harena.path_unique hp rfl)
  rw [decodeBits_leafPaths hbuilt hmany hsegs hcap, decodeFrom_openPath hp hopen, if_neg hoff, List.length_append]
  rfl

/-- The last of OUT_CAP + 1 leaf paths overflows at its last bit, whatever follows. -/
theorem decodeBits_walk_overflow (hbuilt : BuiltFrom f s) (hmany : s.nodeCount ≠ 1) (hsegs : LeafPaths s segs)
    (hfull : segs.length = s.cfg.outCap + 1) :
    decodeBits s (segs.flatMap (·.1) ++ r) =
      .error { code := .overflow, index := (segs.flatMap (·.1)).length - 1, symbol := 0 } := by
  obtain ⟨front, g, rfl⟩ := (List.eq_nil_or_concat' segs).resolve_left (by rintro rfl; cases hfull)
  have hfront : front.length = s.cfg.outCap := by simpa using hfull
  obtain ⟨hne, i, hp, hl⟩ := leafPaths_nonempty hsegs hbuilt hmany g (by simp)
  have hbits : (front ++ [g]).flatMap (·.1) = front.flatMap (·.1) ++ g.1 := by simp
  have hfrontPaths : LeafPaths s front := fun g' hg => hsegs g' (List.mem_append_left _ hg)
  rw [hbits, List.append_assoc, decodeBits_leafPaths hbuilt hmany hfrontPaths hfront.le, decodeFrom_leafPath hne hp hl,
    if_pos hfront, List.length_append]
  rfl

end Decode

/-- Settles O50: without a tree, by the bits and DEC_COUNT of a single leaf, and by what the walk finds after the leaf
paths. -/
theorem decodeWalksTheTree : Obligations.DecodeWalksTheTree := by
  intro s c h hc
  refine ⟨packWord_container_toNat _ c, fun hv => exec_decode_fails hc (decodeContainer_noTree hv),
    fun sym n hv hone hleaf => ⟨fun hb => ?_, fun hb hover => ?_, fun hb hcap => ?_⟩,
    fun segs r hv hmany hsegs hbits => ?_⟩
  · exact exec_decode_error hc hv (decodeBits_single_nonempty hone hb)
  · exact exec_decode_error hc hv (hb ▸ decodeBits_single_overflow hone hover)
  · have hsym : symbolOf s.nodes s.root = sym := IsLeafOf.symbolOf_eq ⟨n, h.node_eq s.root ▸ hleaf⟩
    refine exec_decode_gives hc hv ?_ (by rw [List.length_replicate]; exact h.lt_word_of_le_outCap hcap)
    rw [hb, decodeBits_single_ok hone hcap, hsym]
  · obtain ⟨f, hbuilt⟩ := h.builtFrom hv
    refine ⟨fun hr hcap => ?_, fun i hr hcap hp hopen => ?_, fun hfull => ?_⟩
    · refine exec_decode_gives hc hv ?_ (by rw [List.length_map]; exact h.lt_word_of_le_outCap hcap)
      rw [hbits, hr, List.append_nil, decodeBits_walk_ok hbuilt hmany hsegs hcap]
    · exact exec_decode_error hc hv (hbits ▸ decodeBits_walk_invalid hbuilt hmany hsegs hcap hr hp hopen)
    · exact exec_decode_error hc hv (hbits ▸ decodeBits_walk_overflow hbuilt hmany hsegs hfull)

/-! ### An encoding without its last bit (R183) -/

/-- Symbols with their codes, as the walk's leaf paths. -/
def State.segments (s : State) (vs : List Byte) : List (Bits × Byte) := vs.map fun v => (s.ctCode v, v)

section Truncated
variable (s : State) (vs : List Byte)

@[simp] theorem State.segments_length : (s.segments vs).length = vs.length := List.length_map _

@[simp] theorem State.segments_bits : (s.segments vs).flatMap (·.1) = vs.flatMap s.ctCode := List.flatMap_map ..

@[simp] theorem State.segments_symbols : (s.segments vs).map (·.2) = vs := by
  rw [State.segments, List.map_map]
  exact List.map_id vs

variable {s vs}

theorem TableIsPaths.leafPaths (h : TableIsPaths s) (hv : ∀ v ∈ vs, s.ctValid v = true) :
    LeafPaths s (s.segments vs) := by
  intro g hg
  obtain ⟨v, hmem, rfl⟩ := List.mem_map.1 hg
  exact h.path_to_leaf (hv v hmem)

/-- A code without its last bit leads to the leaf's parent, which is no leaf. -/
theorem TableIsPaths.path_dropLast (h : TableIsPaths s) {v : Byte} (hv : s.ctValid v = true) (hne : s.ctCode v ≠ []) :
    ∃ i, PathTo s.nodes s.root (s.ctCode v).dropLast i ∧ ∀ sym, ¬ IsLeafOf s.nodes i sym := by
  obtain ⟨j, hp, -⟩ := h.path_to_leaf hv
  rw [← List.dropLast_append_getLast hne] at hp
  obtain ⟨i, n, c0, c1, hparent, hinternal, -⟩ := pathTo_snoc.1 hp
  refine ⟨i, hparent, ?_⟩
  rintro sym ⟨count, hleaf⟩
  cases hinternal.symm.trans hleaf

end Truncated

/-- Settles O52: DECODE sees all codes but the last and then what is left of that one, a path to its leaf's parent. -/
theorem truncatedEncodingFails : Obligations.TruncatedEncodingFails := by
  intro s c syms v h hc htv hmany hvalid hcap hbits
  obtain ⟨⟨f, hbuilt⟩, htable⟩ := h.tableIsPaths htv
  have hv : s.ctValid v = true := hvalid v List.mem_concat_self
  have hpaths := htable.leafPaths fun u hu => hvalid u (List.mem_append_left [v] hu)
  have hroom : syms.length ≤ s.cfg.outCap := by
    rw [List.length_append] at hcap
    omega
  have hsegments : (s.segments syms).length ≤ s.cfg.outCap := (s.segments_length syms).trans_le hroom
  have hne (hlen : 1 ≤ s.ctLen v) : s.ctCode v ≠ [] := List.ne_nil_of_length_pos hlen
  have hsplit (hlen : 1 ≤ s.ctLen v) :
      s.bits c = (s.segments syms).flatMap (·.1) ++ (s.ctCode v).dropLast := by
    rw [hbits, List.flatMap_append, List.flatMap_singleton, List.dropLast_append_of_ne_nil (hne hlen),
      State.segments_bits]
  have hrest : (s.ctCode v).dropLast.length = s.ctLen v - 1 := List.length_dropLast
  refine ⟨fun hlen => ?_, fun hlen => ?_⟩
  · obtain ⟨i, hp, hopen⟩ := htable.path_dropLast hv (hne (by omega))
    have hdecode := decodeBits_walk_invalid hbuilt hmany hpaths hsegments
      (List.ne_nil_of_length_pos (by omega)) hp hopen
    rw [← hsplit (by omega)] at hdecode
    rw [← List.length_dropLast, ← hbits]
    exact exec_decode_error hc hbuilt.treeValid hdecode
  · have hnil : (s.ctCode v).dropLast = [] := List.length_eq_zero_iff.1 (by omega)
    have hcodes : s.bits c = (s.segments syms).flatMap (·.1) := by
      rw [hsplit hlen.ge, hnil, List.append_nil]
    have hdecode := decodeBits_walk_ok hbuilt hmany hpaths hsegments
    rw [← hcodes, State.segments_symbols] at hdecode
    exact exec_decode_gives hc hbuilt.treeValid hdecode (h.lt_word_of_le_outCap hroom)

/-! ### The length of an encoding (R184) -/

/-- What a node adds to the sum of the internal counts. -/
def Node.internalCount : Node → Nat
  | .internal n _ _ => n
  | _ => 0

section Length

theorem symbolSum_eq_sum (g : Byte → Nat) : symbolSum g = ∑ i : Fin 256, g (BitVec.ofNat 8 i.val) := by
  rw [symbolSum, ← List.ofFn_eq_map, List.sum_ofFn]

/-- A sum over bytes is the sum over the symbols, each as often as it occurs. -/
theorem symbolSum_count_mul (bytes : List Byte) (g : Byte → Nat) :
    symbolSum (fun sym => bytes.count sym * g sym) = (bytes.map g).sum := by
  rw [symbolSum_eq_sum, Finset.sum_list_map_count]
  refine (Finset.sum_of_injOn (fun v : Byte => v.toFin) (fun _ _ _ _ => BitVec.eq_of_toFin_eq)
    (fun _ _ => Finset.mem_coe.2 (Finset.mem_univ _)) (fun i _ hi => ?_) fun v _ => ?_).symm
  · rw [List.count_eq_zero.2, Nat.zero_mul]
    exact fun hmem => hi ⟨_, List.mem_toFinset.2 hmem, Fin.ext (Nat.mod_eq_of_lt i.isLt)⟩
  · simp

variable {f : Counts} {t : List Node} {k : Nat} {s : State}

theorem sum_map_eq_sum_nodeOf (t : List Node) (g : Node → Nat) :
    (t.map g).sum = ∑ i ∈ Finset.range t.length, g (nodeOf t i) := by
  rw [← Fin.sum_univ_fun_getElem, Finset.sum_range]
  exact Finset.sum_congr rfl fun i _ => by rw [nodeOf, List.getD_eq_getElem _ _ i.isLt]

/-- The sum of the internal counts leaves out the leaves, which stand first. -/
theorem GreedyArena.sum_internalCount (h : GreedyArena f t k) :
    (t.map Node.internalCount).sum = ∑ i ∈ Finset.Ico k (2 * k - 1), (nodeOf t i).count := by
  obtain ⟨hpos, hlen⟩ := h.size
  have hleaves : (∑ i ∈ Finset.range k, (nodeOf t i).internalCount) = 0 := by
    refine Finset.sum_eq_zero fun i hi => ?_
    obtain ⟨sym, hl, -⟩ := h.leaves i (Finset.mem_range.1 hi)
    rw [hl]
    rfl
  rw [sum_map_eq_sum_nodeOf, hlen, ← Finset.sum_range_add_sum_Ico _ (show k ≤ 2 * k - 1 by omega), hleaves,
    Nat.zero_add]
  refine Finset.sum_congr rfl fun i hi => ?_
  obtain ⟨hk, hi⟩ := Finset.mem_Ico.1 hi
  obtain ⟨a, b, hn, -⟩ := h.merges i hk hi
  rw [hn, Node.internalCount, Node.count]

/-- The code lengths weighted by the counts the tree was built from make up the internal counts (R184). -/
theorem TableIsPaths.weighted_sum (h : TableIsPaths s) (hbuilt : BuiltFrom f s) :
    symbolSum (fun sym => f[sym.toNat]'sym.isLt * s.ctLen sym) = (s.nodes.map Node.internalCount).sum := by
  obtain ⟨k, hg, -, hroot⟩ := hbuilt.greedy
  have habsent (sym : Byte) (hno : ∀ i, ¬ IsLeafOf s.nodes i sym) : f[sym.toNat]'sym.isLt * s.ctLen sym = 0 := by
    refine Nat.mul_eq_zero.2 (.inl (Nat.eq_zero_of_not_pos fun hpos => ?_))
    obtain ⟨i, -, hl⟩ := hg.present sym hpos
    exact hno i hl
  rw [hg.symbolSum_eq habsent, hg.sum_internalCount, ← hg.weighted]
  refine Finset.sum_congr rfl fun i hi => ?_
  obtain ⟨sym, hl, -⟩ := hg.leaves i (Finset.mem_range.1 hi)
  have hp := h.ctCode_leaf hbuilt (hbuilt.node_eq i ▸ hl)
  rw [IsLeafOf.symbolOf_eq ⟨_, hl⟩, hl, Node.count, State.ctLen, hg.depthOf_eq (hroot ▸ hp)]

theorem encode_length {t : State} {c : CIdx} (hx : exec (.encode c) s = .next t) (hok : t.err = .ok) :
    (t.bits c).length = (s.input.map s.ctLen).sum := by
  obtain ⟨hbits, -⟩ := encode_ok hx hok
  rw [hbits, s.length_flatMap_ctCode]

end Length

/-- Settles O53: ENCODE's length byte by byte; for written input those bytes are what TREE_BUILD counted into FREQ, and
the counts weighted by the leaves' depths make up the internal counts. -/
theorem encodedLengthIsTheWeightedSum : Obligations.EncodedLengthIsTheWeightedSum := by
  refine ⟨fun s t c _ => encode_length, fun s s1 s2 s3 c _ hwritten hx1 hok1 hx2 hx3 hok3 => ?_⟩
  have hframe1 := exec_writesOnly hx1
  have hframe2 := exec_writesOnly hx2
  obtain ⟨-, -, -, -, hlen1, -⟩ := hframe1.control
  obtain ⟨-, -, -, -, hlen2, -⟩ := hframe2.control
  have hinput : s2.input = s.input :=
    State.input_congr (fun i => (hframe2.input i).trans (hframe1.input i)) (hlen2.trans hlen1) hwritten
  obtain ⟨hbuilt, htable⟩ := (build_builtFrom (.inl rfl) hx1 hok1).tableDerive hx2
  obtain ⟨hnodes, -⟩ := hframe2.tree nofun nofun
  have hweighted : (s3.bits c).length = symbolSum fun sym => s1.freqAt sym * s2.ctLen sym := by
    simp only [encode_length hx3 hok3, hinput, ← symbolSum_count_mul, State.freqAt, treeBuild_freq hx1 hok1,
      countBytes_get]
  refine ⟨hweighted, ?_⟩
  rw [hweighted, ← hnodes]
  exact htable.weighted_sum hbuilt

end Sys2Proof.Machine
end

section
/-! PROOFS. The control command NOP (R200). -/

namespace Sys2Proof.Machine

/-- Settles O26: NOP is legal in every state and its effect is the completion alone; a command that writes containers
only, and names none, writes no data. -/
theorem nopChangesNoData : Obligations.NopChangesNoData := by
  refine ⟨rfl, fun s => ?_⟩
  have hexec : exec .nop s = .next s.complete := exec_legal rfl
  obtain ⟨hbcs, hrest⟩ := exec_sameButContainers hexec rfl
  exact ⟨_, hexec, completedOk_complete rfl rfl, hrest, hbcs⟩

end Sys2Proof.Machine
end

section
/-! PROOFS. How a command ends (R213 to R216): one lemma per effect with branches, then every command; and what follows
for the error codes and for what a failing command leaves unchanged. -/

namespace Sys2Proof.Machine

/-! ### The two ends of a legal command (R213 to R216) -/

/-- How a legal command `i` leaves `s`: completed, or failed with an error R214 lets it raise. A failing command has moved
nothing but the draws its reads of IN took, or, if it is DECODE, has dropped OUT (R215). -/
inductive Ending (i : Instr) (s : State) : State → Prop
  /-- Completion with ERR = OK. -/
  | completed {t : State} (h : CompletedOk s t) : Ending i s t
  /-- The error of any other command than DECODE. -/
  | failed (draws : Nat) (index : Nat) (symbol : Byte) {e : ErrCode} (he : e ∈ raisedBy i) (hi : ∀ c, i ≠ .decode c) :
      Ending i s (State.raise e index symbol { s with draws := draws })
  /-- The error of DECODE. -/
  | dropped (c : CIdx) (index : Nat) (symbol : Byte) {e : ErrCode} (he : e ∈ raisedBy i) (hi : i = .decode c) :
      Ending i s (s.discardOutput.raise e index symbol)

/-- Neither OK nor ILLEGAL_COMMAND is among the errors a legal command raises. -/
theorem ne_of_mem_raisedBy {i : Instr} {e : ErrCode} (he : e ∈ raisedBy i) : e ≠ .ok ∧ e ≠ .illegalCommand := by
  constructor <;> rintro rfl <;> cases i <;> simp [raisedBy] at he

section Effects
variable (s : State) (c : CIdx)

theorem pushBit_ending (bit : Bool) : Ending (.bcPush c bit) s (pushBit c bit s) := by
  unfold pushBit
  split
  · exact .failed s.draws 0 0 (.head _) nofun
  · exact .completed (completedOk_complete rfl rfl)

theorem loadBits_ending : Ending (.bcFromBits c) s (loadBits c s) := by
  by_cases h : s.cfg.inCap < s.inCount ∨ s.cfg.bcCap < s.inCount
  · rw [loadBits_over h]
    exact .failed s.draws 0 0 (.head _) nofun
  · obtain ⟨hin, hbc⟩ := not_or.1 h
    rw [loadBits_within (Nat.le_of_not_lt hin) (Nat.le_of_not_lt hbc)]
    exact .completed (completedOk_complete rfl rfl)

theorem loadBytes_ending : Ending (.bcFromBytes c) s (loadBytes c s) := by
  by_cases h : s.cfg.inCap < s.inCount ∨ s.cfg.bcCap < 8 * s.inCount
  · rw [loadBytes_over h]
    exact .failed s.draws 0 0 (.head _) nofun
  · obtain ⟨hin, hbc⟩ := not_or.1 h
    rw [loadBytes_within (Nat.le_of_not_lt hin) (Nat.le_of_not_lt hbc)]
    exact .completed (completedOk_complete rfl rfl)

theorem appendContainer_ending (src : CIdx) : Ending (.bcAppend c src) s (appendContainer c src s) := by
  unfold appendContainer
  split
  · exact .failed s.draws 0 0 (.head _) nofun
  · exact .completed (completedOk_complete rfl rfl)

/-- The end of the sequence is no error (R116). -/
theorem yieldBit_ending : Ending (.bcIterNext c) s (yieldBit c s) := by
  unfold yieldBit
  split <;> exact .completed (completedOk_complete rfl rfl)

theorem buildFromInput_ending : Ending .treeBuild s (buildFromInput s) := by
  by_cases hover : s.cfg.inCap < s.inCount
  · rw [buildFromInput_over hover]
    exact .failed s.draws 0 0 (by simp [raisedBy]) nofun
  obtain hempty | hpos := Nat.eq_zero_or_pos s.inCount
  · rw [buildFromInput_empty hempty]
    exact .failed s.draws 0 0 (.head _) nofun
  · obtain ⟨nodes, hbuild⟩ := exists_buildTree_countBytes hpos
    rw [buildFromInput_within hpos (Nat.le_of_not_lt hover) hbuild]
    exact .completed (completedOk_complete rfl rfl)

theorem buildFromFreq_ending : Ending .treeBuildFreq s (buildFromFreq s) := by
  cases hbuild : buildTree s.freq with
  | none =>
    rw [buildFromFreq_none hbuild]
    exact .failed s.draws 0 0 (.head _) nofun
  | some nodes =>
    rw [buildFromFreq_some hbuild]
    exact .completed (completedOk_complete rfl rfl)

theorem deriveTable_ending : Ending .tableDerive s (deriveTable s) := by
  cases hv : s.treeValid with
  | false =>
    rw [deriveTable_noTree hv]
    exact .failed s.draws 0 0 (.head _) nofun
  | true =>
    rw [deriveTable_tree hv]
    exact .completed (completedOk_complete rfl rfl)

theorem lookupCode_ending (sym : Byte) : Ending (.tableLookup c sym) s (lookupCode c sym s) := by
  cases hv : s.tableValid with
  | false =>
    rw [lookupCode_noTable hv]
    exact .failed s.draws 0 0 (by simp [raisedBy]) nofun
  | true =>
    cases hcode : s.code sym with
    | none =>
      rw [lookupCode_missing hv hcode]
      exact .failed s.draws 0 sym (.head _) nofun
    | some p =>
      rw [lookupCode_found hv hcode]
      exact .completed (completedOk_complete rfl rfl)

/-- A failing ENCODE may have read all of IN, so the draws have moved (R76). -/
theorem encodeInput_ending : Ending (.encode c) s (encodeInput c s) := by
  cases hv : s.tableValid with
  | false =>
    rw [encodeInput_noTable hv]
    exact .failed s.draws 0 0 (by simp [raisedBy]) nofun
  | true =>
    by_cases hover : s.cfg.inCap < s.inCount
    · rw [encodeInput_over hv hover]
      exact .failed s.draws 0 0 (by simp [raisedBy]) nofun
    have hin : s.inCount ≤ s.cfg.inCap := Nat.le_of_not_lt hover
    rcases encodeFrom_cases s.codes s.cfg.bcCap 0 [] s.input (Nat.zero_le _) with
      ⟨hrun, -⟩ | ⟨_, _, _, -, -, -, ⟨-, hrun⟩ | ⟨-, -, hrun⟩⟩
    · rw [encodeInput_ok hv hin hrun]
      exact .completed (completedOk_complete rfl rfl)
    · rw [encodeInput_error hv hin hrun]
      exact .failed s.afterInput.draws _ _ (.head _) nofun
    · rw [encodeInput_error hv hin hrun]
      exact .failed s.afterInput.draws _ _ (by simp [raisedBy]) nofun

theorem decodeContainer_ending : Ending (.decode c) s (decodeContainer c s) := by
  cases hv : s.treeValid with
  | false =>
    rw [decodeContainer_noTree hv]
    exact .dropped c 0 0 (by simp [raisedBy]) rfl
  | true =>
    rcases decodeBits_cases s (s.bits c) with ⟨bytes, hrun, -⟩ | ⟨e, hrun, hcode⟩
    · rw [decodeContainer_ok hv hrun]
      exact .completed (completedOk_complete rfl rfl)
    · have hraised : e.code ∈ raisedBy (.decode c) := by rcases hcode with h | h <;> simp [h, raisedBy]
      rw [decodeContainer, if_pos hv, hrun]
      exact .dropped c _ _ hraised rfl

end Effects

theorem effect_ending (i : Instr) (s : State) : Ending i s (effect i s) := by
  cases i with
  | nop | bcClear _ | bcIterReset _ | bcAlign _ => exact .completed (completedOk_complete rfl rfl)
  | bcPush c bit => exact pushBit_ending s c bit
  | bcFromBits c => exact loadBits_ending s c
  | bcFromBytes c => exact loadBytes_ending s c
  | bcAppend c src => exact appendContainer_ending s c src
  | bcIterNext c => exact yieldBit_ending s c
  | treeBuild => exact buildFromInput_ending s
  | treeBuildFreq => exact buildFromFreq_ending s
  | tableDerive => exact deriveTable_ending s
  | tableLookup c sym => exact lookupCode_ending s c sym
  | encode c => exact encodeInput_ending s c
  | decode c => exact decodeContainer_ending s c

/-! ### Every command -/

section Commands
variable {i : Instr} {s t : State}

theorem Ending.err (h : Ending i s t) : t.err = .ok ∨ t.err ∈ raisedBy i := by
  cases h with
  | completed h =>
    obtain ⟨-, -, -, hok, -⟩ := h
    exact .inl hok
  | failed _ _ _ he _ => exact .inr he
  | dropped _ _ _ he _ => exact .inr he

theorem Ending.err_ne_illegalCommand (h : Ending i s t) : t.err ≠ .illegalCommand := by
  rcases h.err with hok | he
  · rw [hok]
    nofun
  · exact (ne_of_mem_raisedBy he).2

/-- A legal command that ends with an error has changed no data, unless it is DECODE, which drops OUT (R215). -/
theorem Ending.fails (h : Ending i s t) (herr : t.err ≠ .ok) :
    (∃ e index symbol, CompletedWith e index symbol t) ∧
    ((∀ c, i ≠ .decode c) ∧ SameData s t ∨ (∃ c, i = .decode c) ∧ t.outLen = 0 ∧ ∀ j, t.outMem.read j = none) := by
  cases h with
  | completed h =>
    obtain ⟨-, -, -, hok, -⟩ := h
    exact absurd hok herr
  | failed draws index symbol _ hi =>
    exact ⟨⟨_, _, _, completedWith_raise ..⟩, .inl ⟨hi, sameData_raise { s with draws := draws } ..⟩⟩
  | dropped c index symbol _ hi =>
    exact ⟨⟨_, _, _, completedWith_raise ..⟩, .inr ⟨⟨c, hi⟩, rfl, fun _ => rfl⟩⟩

/-- All that one command can do: an ending of its own, or ILLEGAL_COMMAND and nothing else. -/
theorem exec_ending (h : exec i s = .next t) :
    (i.wellFormed s.cfg = true ∧ Ending i s t) ∨
    (i.wellFormed s.cfg = false ∧ t = s.raise .illegalCommand 0 0) := by
  rcases exec_cases h with ⟨hlegal, rfl⟩ | hillegal
  · exact .inl ⟨hlegal, effect_ending i s⟩
  · exact .inr hillegal

end Commands

/-- Settles O54: a legal command ends with OK or an error of its own, and none of those is ILLEGAL_COMMAND. -/
theorem errorsComeFromTheirCommands : Obligations.ErrorsComeFromTheirCommands := by
  refine ⟨⟨rfl, rfl, rfl, rfl, rfl, rfl, rfl, rfl⟩, fun i s t h => ?_⟩
  rcases exec_ending h with ⟨hlegal, hend⟩ | ⟨hillegal, rfl⟩
  · rw [hlegal]
    exact ⟨⟨fun he => absurd he hend.err_ne_illegalCommand, nofun⟩, fun _ => hend.err⟩
  · rw [hillegal]
    exact ⟨⟨fun _ => rfl, fun _ => rfl⟩, nofun⟩

/-- Settles O55: a command that fails has changed no data; DECODE alone has dropped OUT, and what else it leaves
unchanged is what no DECODE writes. -/
theorem failingCommandsChangeNothingElse : Obligations.FailingCommandsChangeNothingElse := by
  intro i s t h herr
  rcases exec_ending h with ⟨hlegal, hend⟩ | ⟨hillegal, rfl⟩
  · obtain ⟨⟨_, _, _, hpending, hbusy, hdone, -⟩, ⟨hi, hdata⟩ | ⟨⟨c, rfl⟩, hdropped⟩⟩ := hend.fails herr
    · obtain ⟨⟨hcontrol, hin, hout, hresult, hfreq, htree, htable⟩, hbcs⟩ := hdata
      exact ⟨hpending, hbusy, hdone, hcontrol, hin, hresult, hfreq, htree, htable, hbcs,
        fun ⟨c, hc, _⟩ => absurd hc (hi c), fun _ => hout⟩
    · obtain ⟨hcontrol, hin, -, hresult, htree, hfreq, htable, hbcs⟩ := exec_writesOnly h
      exact ⟨hpending, hbusy, hdone, hcontrol, hin, hresult nofun, hfreq nofun, htree nofun nofun,
        htable nofun nofun nofun, hbcs, fun _ => hdropped, fun hnone => absurd (hlegal.symm.trans (hnone c rfl)) nofun⟩
  · obtain ⟨⟨hcontrol, hin, hout, hresult, hfreq, htree, htable⟩, hbcs⟩ := sameData_raise s .illegalCommand 0 0
    refine ⟨rfl, rfl, rfl, hcontrol, hin, hresult, hfreq, htree, htable, hbcs, ?_, fun _ => hout⟩
    rintro ⟨c, rfl, hc⟩
    exact absurd (hc.symm.trans hillegal) nofun

end Sys2Proof.Machine
end

section
/-! PROOFS. The engine's turn and the lifecycle of a command (R210 to R213): the step on a pending word, acceptance,
OVERRUN over every step, and the interrupt output. -/

namespace Sys2Proof.Machine

/-! ### The engine on any word (R212, R213) -/

section Engine
variable {s t : State} {w : Word}

/-- Every word has an outcome, legal or not. -/
theorem runWord_next (w : Word) (s : State) : ∃ t, runWord w s = .next t := by
  unfold runWord
  split
  · exact ⟨_, exec_eq _ s⟩
  · exact ⟨_, rfl⟩

theorem runWord_decoded {i : Instr} (h : decode w = .ok i) (s : State) : runWord w s = exec i s := by
  simp only [runWord, h]

/-- Whatever the word, its run is a completion, with an error or without. -/
theorem runWord_completes (h : runWord w s = .next t) :
    CompletedOk s t ∨ ∃ e index symbol, e ≠ .ok ∧ CompletedWith e index symbol t := by
  rcases runWord_cases h with ⟨i, -, hexec⟩ | ⟨-, rfl⟩
  · rcases exec_ending hexec with ⟨-, hend⟩ | ⟨-, rfl⟩
    · cases hend with
      | completed hok => exact .inl hok
      | failed _ _ _ he _ => exact .inr ⟨_, _, _, (ne_of_mem_raisedBy he).1, completedWith_raise ..⟩
      | dropped _ _ _ he _ => exact .inr ⟨_, _, _, (ne_of_mem_raisedBy he).1, completedWith_raise ..⟩
    · exact .inr ⟨.illegalCommand, 0, 0, nofun, completedWith_raise ..⟩
  · exact .inr ⟨.illegalCommand, 0, 0, nofun, completedWith_raise ..⟩

theorem runWord_sameControl (h : runWord w s = .next t) : SameControl s t := by
  rcases runWord_cases h with ⟨i, -, hexec⟩ | ⟨-, rfl⟩
  · exact (exec_writesOnly hexec).control
  · obtain ⟨⟨hcontrol, -⟩, -⟩ := sameData_raise s .illegalCommand 0 0
    exact hcontrol

theorem engineStep_pending (h : s.pending = some w) : engineStep s = runWord w s := by
  simp only [engineStep, h]

theorem engineStep_idle (h : s.pending = none) : engineStep s = .next s := by
  simp only [engineStep, h]

theorem engineStep_next (s : State) : ∃ t, engineStep s = .next t := by
  cases h : s.pending with
  | none => exact ⟨s, engineStep_idle h⟩
  | some w => exact engineStep_pending h ▸ runWord_next w s

/-- The engine's turn with a word pending runs the word. -/
theorem step_pending {rest : List Event} (hnext : EngineNext s rest) (h : s.pending = some w) :
    step s = runWord w { s with schedule := rest } :=
  (step_engine hnext).trans (engineStep_pending h)

end Engine

theorem turn_next (e : Event) (s : State) : ∃ t, turn e s = .next t := by
  cases e with
  | engine => exact engineStep_next s
  | read _ | write _ _ | wait | reset => exact ⟨_, rfl⟩

theorem step_next (s : State) : ∃ t, step s = .next t := by
  cases h : s.schedule with
  | nil => exact step_engine (.inr ⟨h, rfl⟩) ▸ engineStep_next _
  | cons e rest => exact step_scheduled h ▸ turn_next e _

/-- Settles O9: every turn of every agent has a next state; the engine's turn runs the pending word, whose run is a
completion and writes no schedule. -/
theorem stepsNeverStopAndCompleteTheCommand : Obligations.StepsNeverStopAndCompleteTheCommand := by
  refine ⟨step_next, fun s w rest hnext hpending => ?_, fun s rest hnext hidle =>
    (step_engine hnext).trans (engineStep_idle hidle)⟩
  obtain ⟨t, hrun⟩ := runWord_next w { s with schedule := rest }
  obtain ⟨-, -, -, -, -, -, hsched, -⟩ := runWord_sameControl hrun
  refine ⟨t, (step_pending hnext hpending).trans hrun, hsched, ?_⟩
  rcases runWord_completes hrun with ⟨hnone, hbusy, hdone, -, hindex, hsymbol⟩ |
    ⟨e, _, _, he, hnone, hbusy, hdone, herr, -⟩
  · exact ⟨hnone, hbusy, hdone, fun _ => ⟨hindex, hsymbol⟩⟩
  · exact ⟨hnone, hbusy, hdone, fun hok => absurd (herr.symm.trans hok) he⟩

/-- The placement of a command's word keeps all of its bits. -/
theorem withFetchWord_encode (s : State) (i : Instr) : s.withFetchWord 32 (encode i).toNat =
    { s with pending := some (encode i), busy := true, schedule := .engine :: s.schedule } := by
  simp only [State.withFetchWord, placeWord, Nat.mod_eq_of_lt (encode i).isLt, BitVec.ofNat_toNat, BitVec.setWidth_eq]

/-- Settles O7: the engine's turn runs the pending word, which is `exec` of the command it decodes to. -/
theorem stepRunsThePendingCommand : Obligations.StepRunsThePendingCommand := by
  refine ⟨fun s w i hpending hdecode => ⟨fun hempty => ?_, fun rest hnamed => ?_⟩, fun s i => ?_⟩
  · have hself : { s with schedule := [] } = s := by rw [← hempty]
    rw [step_pending (.inr ⟨hempty, rfl⟩) hpending, runWord_decoded hdecode, hself]
  · rw [step_pending (.inl hnamed) hpending, runWord_decoded hdecode]
  · rw [withFetchWord_encode, step_pending (.inl rfl) rfl, runWord_decoded (decodeAfterEncode i)]

/-! ### Acceptance and OVERRUN (R210, R211) -/

section Accept
variable {s : State}

theorem busWrite_cmd_accepts (hidle : s.busy = false) (w : Word) : s.busWrite 0x000002 w = s.accept w :=
  busWrite_cmd_idle w hidle (locate_cmd s.cfg)

theorem busWrite_cmd_overruns (hbusy : s.busy = true) (w : Word) :
    s.busWrite 0x000002 w = { s with overrun := true } :=
  busWrite_cmd_busy w hbusy (locate_cmd s.cfg)

end Accept

/-- Settles O10: the idle write is the acceptance, which leaves the schedule; the engine's turn then runs the word. -/
theorem acceptanceTakesTheWord : Obligations.AcceptanceTakesTheWord := by
  refine fun s w hidle => ⟨busWrite_cmd_accepts hidle w, fun hlegal rest hnext => ?_⟩
  have hstep : step (s.accept w) = runWord w { s.accept w with schedule := rest } := step_pending hnext rfl
  rw [busWrite_cmd_accepts hidle w]
  exact ⟨_, hstep.trans (runWord_illegal hlegal), completedWith_raise ..⟩

section Overrun
variable {s t : State}

/-- Of the bus writes only a 1 in bit 2 of STATUS clears OVERRUN (R211). -/
theorem busWrite_keeps_overrun (hover : s.overrun = true) (a : Addr) (d : Word) :
    (s.busWrite a d).overrun = true ∨ locate s.cfg a = .status ∧ d.getLsbD 2 = true := by
  by_cases hstatus : locate s.cfg a = .status
  · rw [busWrite_status d hstatus]
    cases hbit : d.getLsbD 2 with
    | true => exact .inr ⟨hstatus, rfl⟩
    | false => exact .inl hover
  · rcases busWrite_cases s a d with ⟨-, e⟩ | ⟨hl, -⟩ | ⟨-, -, e⟩ | ⟨-, -, e⟩ | ⟨-, -, e⟩ | ⟨-, -, e⟩ |
      ⟨_, -, -, e⟩ | ⟨_, -, -, e⟩ | e
    case inr.inl => exact absurd hl hstatus
    case inr.inr.inl => exact .inl (congrArg State.overrun e)
    all_goals exact .inl ((congrArg State.overrun e).trans hover)

/-- No turn but reset and such a write clears OVERRUN. -/
theorem step_keeps_overrun (hover : s.overrun = true) (h : step s = .next t) :
    t.overrun = true ∨ (∃ rest, s.schedule = .reset :: rest) ∨
      ∃ a d rest, s.schedule = .write a d :: rest ∧ locate s.cfg a = .status ∧ d.getLsbD 2 = true := by
  rcases step_cases h with ⟨s', hs', hrun⟩ | ⟨e, rest, hsched, hturn⟩
  · have hover' : s'.overrun = true := by rcases hs' with rfl | ⟨_, -, rfl⟩ <;> exact hover
    rcases hrun with ⟨-, rfl⟩ | ⟨w, -, hrun⟩
    · exact .inl hover'
    · obtain ⟨-, -, hkept, -⟩ := runWord_sameControl hrun
      exact .inl (hkept.trans hover')
  · rcases hturn with ⟨a, -, rfl⟩ | ⟨a, d, rfl, rfl⟩ | ⟨-, rfl⟩ | ⟨rfl, -⟩
    · obtain ⟨_, _, e⟩ := hostRead_eq { s with schedule := rest } a
      exact .inl (e ▸ hover)
    · exact (busWrite_keeps_overrun (s := { s with schedule := rest }) hover a d).imp_right fun hclear =>
        .inr ⟨a, d, rest, hsched, hclear⟩
    · obtain ⟨_, _, _, e⟩ := poll_eq { s with schedule := rest }
      exact .inl (e ▸ hover)
    · exact .inr (.inl ⟨rest, hsched⟩)

end Overrun

/-- Settles O11: the busy write is the flag alone, and every turn keeps the flag but for the two that clear it. -/
theorem overrunDropsTheWord : Obligations.OverrunDropsTheWord :=
  ⟨fun _ w hbusy => busWrite_cmd_overruns hbusy w, fun _ _ => step_keeps_overrun⟩

/-! ### The interrupt output (R221, R222) -/

theorem State.irq_iff (s : State) : s.irq = true ↔ s.irqEn = true ∧ s.done = true := Bool.and_eq_true_iff

/-- Settles O24: irq after each of the writes to CMD, STATUS and CTRL, and the two flags at reset. -/
theorem interruptFollowsDoneAndEnable : Obligations.InterruptFollowsDoneAndEnable := by
  intro s
  have hctrl (d : Word) : s.busWrite 0x000000 d = { s with irqEn := d.getLsbD 0 } := busWrite_ctrl d (locate_ctrl s.cfg)
  have hstatus (d : Word) : (s.busWrite 0x000001 d).done = if d.getLsbD 1 then false else s.done :=
    congrArg State.done (busWrite_status d (locate_status s.cfg))
  refine ⟨s.irq_iff, fun w hidle => ?_, fun d hbit => ?_, fun d hbit => ?_, fun d hbit => ?_, fun w hbusy => ?_,
    rfl, rfl⟩
  · rw [busWrite_cmd_accepts hidle w]
    exact Bool.and_false _
  · rw [State.irq, hstatus, hbit]
    exact Bool.and_false _
  · rw [hctrl, hbit]
    exact Bool.true_and _
  · rw [hctrl, hbit]
    exact ⟨Bool.false_and _, rfl⟩
  · rw [busWrite_cmd_overruns hbusy w]
    rfl

end Sys2Proof.Machine
end

section
/-! PROOFS. Reset (R240, R241): what a read of each part of the state gives after it, and the invariant there. -/

namespace Sys2Proof.Machine

/-! ### The state after the reset event, part by part (10_state.md) -/

section Reset
variable (s : State)

@[simp] theorem State.ctrlWord_resetEvent : s.resetEvent.ctrlWord = 0 := by
  change 0#31 ++ flag false = 0
  decide

@[simp] theorem State.statusWord_resetEvent : s.resetEvent.statusWord = 0 := by
  change 0#22 ++ flag false ++ flag false ++ ErrCode.code .ok ++ 0#1 ++ flag false ++ flag false ++ flag false = 0
  decide

@[simp] theorem State.resultWord_resetEvent : s.resetEvent.resultWord = 0 := by
  change 0#30 ++ flag false ++ flag false = 0
  decide

@[simp] theorem State.container_resetEvent (c : CIdx) : s.resetEvent.container c = Container.empty :=
  Vector.getElem_replicate _

@[simp] theorem State.freqAt_resetEvent (sym : Byte) : s.resetEvent.freqAt sym = 0 := Vector.getElem_replicate _

@[simp] theorem State.code_resetEvent (sym : Byte) : s.resetEvent.code sym = none := CodeTable.entry_cleared sym

@[simp] theorem State.node_resetEvent (i : Nat) : s.resetEvent.node i = .empty :=
  State.node_eq_nodeOf (Nat.zero_le _) i

/-- The block is idle right after reset, so the next write to CMD is an acceptance (R210, R241). -/
theorem pending_busWrite_cmd_resetEvent (w : Word) : (s.resetEvent.busWrite 0x000002 w).pending = some w :=
  congrArg State.pending (busWrite_cmd_accepts (s := s.resetEvent) rfl w)

end Reset

theorem step_reset {s : State} {rest : List Event} (h : s.schedule = .reset :: rest) :
    step s = .next (State.resetEvent { s with schedule := rest }) := step_scheduled h

/-- Settles O58: the step is the reset event, and each part of the state after it reads as the lemmas above say; the
plain registers, PENDING, IN, OUT and irq hold their reset values by definition. -/
theorem resetPutsEveryStateAtItsValue : Obligations.ResetPutsEveryStateAtItsValue := by
  intro s rest hreset
  refine ⟨_, step_reset hreset, rfl, State.ctrlWord_resetEvent _, State.statusWord_resetEvent _, rfl, rfl, rfl, rfl,
    rfl, State.resultWord_resetEvent _, rfl, rfl, rfl, rfl, ?containers, State.freqAt_resetEvent _,
    State.code_resetEvent _, State.node_resetEvent _, fun _ => ⟨rfl, rfl⟩, rfl, pending_busWrite_cmd_resetEvent _⟩
  case containers =>
    intro c
    rw [State.bits, State.pos, State.container_resetEvent]
    exact ⟨rfl, rfl⟩

/-- Settles O59: the reference configuration is one of the legal ones. -/
theorem invariantHoldsAtReset : Obligations.InvariantHoldsAtReset :=
  ⟨machineInv_resetWith (by decide), fun _ => machineInv_resetWith⟩

end Sys2Proof.Machine
end
